-- ==== Sys2Proof/Word.lean ====
section
/-! DEFINITION. The word types of the block: the field widths of the wire formats (00_scope.md R9, R10). -/

namespace Sys2Proof

/-- A byte, bits numbered 7 to 0 (R10). -/
abbrev Byte := BitVec 8

/-- A 16-bit field: ethertype, ARP opcode, checksum, port. -/
abbrev Half := BitVec 16

/-- A 32-bit field: IPv4 address, TCP sequence number, host register. -/
abbrev Word := BitVec 32

/-- A 48-bit hardware address (R8, R120). -/
abbrev Mac := BitVec 48

/-- A byte string, first byte on the wire first (R11). -/
abbrev Bytes := List Byte

end Sys2Proof
end

