-- ==== Sys2Proof/Config.lean ====
section
/-! DEFINITION. The implementation parameters of 00_scope.md R8 and the free values of the spec
("any value" in 93_implementation_defined.md). -/

namespace Sys2Proof

/-- What the TCP responder does with a segment whose SYN bit is clear: `P_TCP_NONSYN` (R8, R245). -/
inductive NonSynPolicy where
  | echo
  | drop
  deriving DecidableEq, Repr

/-- The parameters and the device identity, fixed from reset for the block's lifetime (R8, R20, R21). -/
structure Config where
  /-- `DEV_IP` -/
  devIp : Word
  /-- `DEV_MAC` -/
  devMac : Mac
  /-- `P_ARP_CAPACITY`; `none` is `INF` -/
  arpCapacity : Option Nat
  /-- `P_MAX_FRAME` -/
  maxFrame : Nat
  /-- `P_TCP_ISN` -/
  tcpIsn : Word
  /-- `P_TCP_NONSYN` -/
  tcpNonSyn : NonSynPolicy
  /-- `P_ARP_OWN_IP_ONLY` -/
  arpOwnIpOnly : Bool
  deriving DecidableEq, Repr

/-- The ranges R8 gives: `P_ARP_CAPACITY` at least 1 or `INF`, `P_MAX_FRAME` from 14 to 65535. -/
def Config.wf (c : Config) : Bool :=
  decide (c.arpCapacity ≠ some 0) && decide (14 ≤ c.maxFrame) && decide (c.maxFrame ≤ 65535)

/-- The reference configuration of R8. R8 gives it no device identity: the one here is the identity
95_test_vectors.md's conventions give (DESIGN CHOICE, log 4: unsafe for a claim that rests on it). -/
def Config.reference : Config where
  devIp := 0x0A000002#32
  devMac := 0x020000000001#48
  arpCapacity := none
  maxFrame := 1514
  tcpIsn := 1024#32
  tcpNonSyn := .echo
  arpOwnIpOnly := false

/-- FREE VALUE (R36, R37, R330; U8, U9): the byte that the buffer cell at a host offset holds after the
given number of resets, while nothing has written it. No body: nothing can be proved of it (DESIGN CHOICE of its form, log 5). -/
opaque Config.bufferAtReset (resets offset : Nat) : Byte

/-- FREE VALUE (R36, R37; U8, U9): what the host's given draw reads from a `RXBUF` byte at or beyond `RX_LEN`, or from a `TXBUF`
byte at or beyond `TX_LEN`. No body: nothing can be proved of it (DESIGN CHOICE of its form, log 6, log 7). -/
opaque Config.beyondLen (draw offset : Nat) : Byte

end Sys2Proof
end

