-- ==== Sys2Proof/Syntax.lean ====
section
/-! DEFINITION. The rows of spec/opcode_table.json: the thirteen dispatch rows of 30_encoding.md R88 and the
five commands of R90, R91. A row that matches several values carries the field's value. -/

namespace Sys2Proof

/-- The levels of the decode tree (R88), and the command register (R90). A row is known only together with
its level: the field of the enclosing layer (R87). -/
inductive Level where
  /-- field `ethertype`, 16 bits -/
  | ethernet
  /-- field `opcode`, 16 bits -/
  | arp
  /-- field `proto`, 8 bits -/
  | ipv4
  /-- field `type`, 8 bits -/
  | icmp
  /-- field `flags`, 8 bits, of which only SYN selects -/
  | tcp
  /-- the 32-bit value written to `CMD` -/
  | command
  deriving DecidableEq, Repr

/-- One constructor per row of the opcode table, in its order. -/
inductive Instr where
  /-- ETH_ARP, R142 -/
  | ethArp
  /-- ETH_IPV4, R142 -/
  | ethIpv4
  /-- ETH_OTHER, R143, with the ethertype -/
  | ethOther (ethertype : Half)
  /-- ARP_REQUEST, R173 -/
  | arpRequest
  /-- ARP_REPLY, R175 -/
  | arpReply
  /-- ARP_OTHER, R176, with the opcode -/
  | arpOther (opcode : Half)
  /-- IPV4_ICMP, R197 -/
  | ipv4Icmp
  /-- IPV4_TCP, R197 -/
  | ipv4Tcp
  /-- IPV4_OTHER, R197, with the protocol -/
  | ipv4Other (proto : Byte)
  /-- ICMP_ECHO_REQUEST, R223 -/
  | icmpEchoRequest
  /-- ICMP_OTHER, R225, with the type -/
  | icmpOther (type : Byte)
  /-- TCP_SYN, R243, with the flags byte -/
  | tcpSyn (flags : Byte)
  /-- TCP_NONSYN, R245, with the flags byte -/
  | tcpNonsyn (flags : Byte)
  /-- PROCESS_FRAME, R271 -/
  | processFrame
  /-- CACHE_LOOKUP, R280 -/
  | cacheLookup
  /-- CHECKSUM, R282 -/
  | checksum
  /-- RESTART, R283 -/
  | restart
  /-- CMD_ILLEGAL, R284, with the value -/
  | cmdIllegal (value : Word)
  deriving DecidableEq, Repr

/-- The level whose field an instruction is encoded in (R88, R90). -/
def Instr.level : Instr → Level
  | .ethArp => .ethernet
  | .ethIpv4 => .ethernet
  | .ethOther _ => .ethernet
  | .arpRequest => .arp
  | .arpReply => .arp
  | .arpOther _ => .arp
  | .ipv4Icmp => .ipv4
  | .ipv4Tcp => .ipv4
  | .ipv4Other _ => .ipv4
  | .icmpEchoRequest => .icmp
  | .icmpOther _ => .icmp
  | .tcpSyn _ => .tcp
  | .tcpNonsyn _ => .tcp
  | .processFrame => .command
  | .cacheLookup => .command
  | .checksum => .command
  | .restart => .command
  | .cmdIllegal _ => .command

end Sys2Proof
end

