-- ==== Sys2Proof/WellFormed.lean ====
section
/-! DEFINITION. Which instructions an encoding stands for: a row's value is one that no earlier row of its level
matches (30_encoding.md R88, R91); SYN is bit 1 of the TCP flags byte (R85). -/

namespace Sys2Proof

/-- An instruction is well formed when its row is the one its field's value selects (R88, R91). -/
def Instr.wf : Instr → Bool
  | .ethArp => true
  | .ethIpv4 => true
  | .ethOther t => t != 0x0806#16 && t != 0x0800#16
  | .arpRequest => true
  | .arpReply => true
  | .arpOther op => op != 1#16 && op != 2#16
  | .ipv4Icmp => true
  | .ipv4Tcp => true
  | .ipv4Other p => p != 1#8 && p != 6#8
  | .icmpEchoRequest => true
  | .icmpOther t => t != 8#8
  | .tcpSyn f => f.getLsbD 1
  | .tcpNonsyn f => !f.getLsbD 1
  | .processFrame => true
  | .cacheLookup => true
  | .checksum => true
  | .restart => true
  | .cmdIllegal v => v != 1#32 && v != 2#32 && v != 3#32 && v != 4#32

end Sys2Proof
end

