-- ==== Sys2Proof/Decode.lean ====
section
/-! DEFINITION. The decoder of the dispatch map (30_encoding.md R88, R89) and of the commands (R90, R91), the
byte-order helpers it uses, and the encoder. -/

namespace Sys2Proof

/-- Two bytes as a big-endian 16-bit value (20_memory.md R50). -/
def be16 (a b : Byte) : Half := a ++ b

/-- Four bytes as a big-endian 32-bit value (R50). -/
def be32 (a b c d : Byte) : Word := a ++ b ++ c ++ d

/-- `u8` (40_codec_checksum.md R122). -/
def u8 (v : Byte) : Bytes := [v]

/-- `u16` (R122). -/
def u16 (v : Half) : Bytes := [v.extractLsb' 8 8, v.extractLsb' 0 8]

/-- `u32` (R122). -/
def u32 (v : Word) : Bytes :=
  [v.extractLsb' 24 8, v.extractLsb' 16 8, v.extractLsb' 8 8, v.extractLsb' 0 8]

/-- `u48` (R122). -/
def u48 (v : Mac) : Bytes :=
  [v.extractLsb' 40 8, v.extractLsb' 32 8, v.extractLsb' 24 8, v.extractLsb' 16 8, v.extractLsb' 8 8,
    v.extractLsb' 0 8]

/-- The Ethernet rows (R88). -/
def decodeEthertype (t : Half) : Instr :=
  if t = 0x0806#16 then .ethArp else if t = 0x0800#16 then .ethIpv4 else .ethOther t

/-- The ARP rows (R88). -/
def decodeArpOpcode (op : Half) : Instr :=
  if op = 1#16 then .arpRequest else if op = 2#16 then .arpReply else .arpOther op

/-- The IPv4 rows (R88). -/
def decodeIpv4Proto (p : Byte) : Instr :=
  if p = 1#8 then .ipv4Icmp else if p = 6#8 then .ipv4Tcp else .ipv4Other p

/-- The ICMP rows (R88). -/
def decodeIcmpType (t : Byte) : Instr :=
  if t = 8#8 then .icmpEchoRequest else .icmpOther t

/-- Whether SYN, mask 0x02, is set in the TCP flags byte (R85, R242). -/
def synSet (flags : Byte) : Bool := flags &&& 0x02#8 != 0#8

/-- The TCP rows (R88): only the SYN bit selects (R85). -/
def decodeTcpFlags (f : Byte) : Instr :=
  if synSet f then .tcpSyn f else .tcpNonsyn f

/-- The command rows (R90, R91). -/
def decodeCommand (v : Word) : Instr :=
  if v = 1#32 then .processFrame else if v = 2#32 then .cacheLookup
  else if v = 3#32 then .checksum else if v = 4#32 then .restart else .cmdIllegal v

/-- How many bytes a level's field takes (R70, R72, R74, R79, R83, R90). -/
def Level.width : Level → Nat
  | .ethernet => 2
  | .arp => 2
  | .ipv4 => 1
  | .icmp => 1
  | .tcp => 1
  | .command => 4

/-- Why a byte string decodes to no instruction: it is shorter than its level's field. Every value of a whole
field selects a row, since a level's last row matches what the others do not (R88). -/
inductive DecodeError where
  | shortField (level : Level) (length : Nat)
  deriving DecidableEq, Repr

/-- Read one instruction of a level from the front of a byte string, and give back the rest. Wire fields are
big-endian (R50); the four bytes of a `CMD` value are taken most significant first (DESIGN CHOICE, log 1). -/
def decode (l : Level) (B : Bytes) : Except DecodeError (Instr × Bytes) :=
  match l, B with
  | .ethernet, a :: b :: rest => .ok (decodeEthertype (be16 a b), rest)
  | .arp, a :: b :: rest => .ok (decodeArpOpcode (be16 a b), rest)
  | .ipv4, a :: rest => .ok (decodeIpv4Proto a, rest)
  | .icmp, a :: rest => .ok (decodeIcmpType a, rest)
  | .tcp, a :: rest => .ok (decodeTcpFlags a, rest)
  | .command, a :: b :: c :: d :: rest => .ok (decodeCommand (be32 a b c d), rest)
  | l, B => .error (.shortField l B.length)

/-- The level a word of the opcode table is read at when only its width is given. Levels of one width are tried in
the table's order; the first one in which a row other than the catch-all row matches is taken, and where none does, the
first level of that width (DESIGN CHOICE, log 2). -/
def tableLevel (nbits w : Nat) : Option Level :=
  match nbits with
  | 16 =>
    if w = 0x0806 ∨ w = 0x0800 then some .ethernet else if w = 1 ∨ w = 2 then some .arp
    else some .ethernet
  | 8 => if w = 1 ∨ w = 6 then some .ipv4 else if w = 8 then some .icmp else some .tcp
  | 32 => some .command
  | _ => none

/-- The bytes of a table word as its level stores them: most significant first (R50; log 1 for `CMD`). -/
def tableBytes (nbits w : Nat) : Bytes :=
  match nbits with
  | 16 => u16 (BitVec.ofNat 16 w)
  | 8 => u8 (BitVec.ofNat 8 w)
  | 32 => u32 (BitVec.ofNat 32 w)
  | _ => []

/-- The instruction the decoder reads from a word of the opcode table. -/
def decodeTableWord (nbits w : Nat) : Option Instr :=
  match tableLevel nbits w with
  | none => none
  | some l =>
    match decode l (tableBytes nbits w) with
    | .ok (i, _) => some i
    | .error _ => none

/-- The bytes of an instruction's field (R71, R73, R77, R82, R85, R90). -/
def encode : Instr → Bytes
  | .ethArp => u16 0x0806#16
  | .ethIpv4 => u16 0x0800#16
  | .ethOther t => u16 t
  | .arpRequest => u16 1#16
  | .arpReply => u16 2#16
  | .arpOther op => u16 op
  | .ipv4Icmp => u8 1#8
  | .ipv4Tcp => u8 6#8
  | .ipv4Other p => u8 p
  | .icmpEchoRequest => u8 8#8
  | .icmpOther t => u8 t
  | .tcpSyn f => u8 f
  | .tcpNonsyn f => u8 f
  | .processFrame => u32 1#32
  | .cacheLookup => u32 2#32
  | .checksum => u32 3#32
  | .restart => u32 4#32
  | .cmdIllegal v => u32 v

end Sys2Proof
end

