-- ==== Sys2Proof/Machine/State.lean ====
section
/-! DEFINITION. The state of the block (10_state.md R40), with the model's own input and observation fields, its
faults and refusals, and its reset value (70_reset_and_hazards.md R330). -/

namespace Sys2Proof.Machine

/-- The state of an ARP cache entry (R23). The reserved value 3 is never written and is left out (U17). -/
inductive EntryState where
  | free
  | waiting
  | resolved
  deriving DecidableEq, Repr

/-- An ARP cache entry (R23). -/
structure Entry where
  state : EntryState
  ip : Word
  hwtype : Half
  mac : Mac
  deriving DecidableEq, Repr

/-- A cache entry at reset (R23, R330). -/
def Entry.empty : Entry := ⟨.free, 0#32, 0#16, 0#48⟩

/-- The engine's position (R28). -/
inductive Engine where
  | idle
  | busy
  deriving DecidableEq, Repr

/-- What the transmit channel reports on the next frame handed to it (R148, R149, R274, R334). -/
inductive ChannelReport where
  /-- the write succeeds -/
  | ok
  /-- the write fails -/
  | fail
  /-- the write reports this many bytes written -/
  | wrote (bytes : Nat)
  /-- no channel is connected -/
  | unconnected
  deriving DecidableEq, Repr

/-- The width of a host access (R59). -/
inductive AccessSize where
  | byte
  | half
  | word
  deriving DecidableEq, Repr

/-- One action of the host (R342; the stimulus lines of R105). -/
inductive HostAction where
  /-- read `size` at a host offset -/
  | read (offset : Nat) (size : AccessSize)
  /-- write `value` with an access of `size` at a host offset; a word write of offset 0x000 issues a command -/
  | write (offset : Nat) (size : AccessSize) (value : Word)
  /-- write bytes to `RXBUF` from a buffer offset on -/
  | wrbuf (offset : Nat) (bytes : Bytes)
  /-- the channel's report on the next transmission -/
  | tx (report : ChannelReport)
  /-- the reset event (R332) -/
  | reset
  deriving DecidableEq, Repr

/-- A frame handed to the transmit channel, and whether the channel accepted it (R343). -/
structure Sent where
  frame : Bytes
  accepted : Bool
  deriving DecidableEq, Repr

/-- The two frame buffers as cells of the host space (R104): host offset and byte, offsets strictly rising. An unlisted
offset holds no value: nothing has written it since reset. -/
abbrev Memory := List Host.Cell

/-- The canonical form: offsets strictly rise. (A listed cell always differs from an unlisted one, which holds no value.) -/
abbrev Memory.wf (m : Memory) : Prop := (m.map (·.1)).Pairwise (· < ·)

/-- The state of the block. -/
structure State where
  /-- MODEL's own: the configuration (R8, R20, R21), which no step changes (log 4) -/
  cfg : Config
  /-- the ARP cache (R22) -/
  cache : List Entry
  /-- `CACHE_COUNT` (R27) -/
  cacheCount : Word
  /-- `ENGINE` (R28) -/
  engine : Engine
  /-- `HALTED` (R29) -/
  halted : Bool
  /-- `STATUS` (R30, R92) -/
  status : Half
  /-- `RX_LEN` (R31) -/
  rxLen : Half
  /-- `TX_LEN` (R32) -/
  txLen : Half
  /-- `ARG_IP` (R33) -/
  argIp : Word
  /-- `LK_INFO` (R34) -/
  lkInfo : Word
  /-- `LK_MAC_HI` bits 15:0 (R34) -/
  lkMacHi : Half
  /-- `LK_MAC_LO` (R34) -/
  lkMacLo : Word
  /-- `CSUM_RESULT` (R35) -/
  csumResult : Half
  /-- `RXBUF` and `TXBUF` (R36, R37) -/
  mem : Memory
  /-- MODEL's own: the host's pending actions, oldest first (log 3) -/
  host : List HostAction
  /-- MODEL's own: the channel's report on the next transmission (log 8) -/
  channel : ChannelReport
  /-- MODEL's own: the frames handed to the channel, oldest first (R343; log 10) -/
  sent : List Sent
  /-- MODEL's own: the value the host's last read returned (log 10) -/
  rdata : Word
  /-- MODEL's own: how many reset events have been applied (log 5) -/
  epoch : Nat
  /-- MODEL's own: how many unspecified buffer bytes the host has read (log 6, log 7) -/
  draws : Nat
  deriving DecidableEq, Repr

/-- Which field read or slice a fault names (R120). -/
inductive FieldRead where
  | u8
  | u16
  | u32
  | bytes (count : Nat)
  deriving DecidableEq, Repr

/-- How the model stops. Neither fault is reached by a command of the host: every unit checks its window first (R121). -/
inductive Fault where
  /-- Raised by a field read whose window is shorter than the field (R120, R121): which read, at which offset, in a window
  of which length. Safe: the machine stops where the spec says it must not go on. -/
  | truncated (read : FieldRead) (offset length : Nat)
  /-- Raised by a slice `B[from..to)` of a string of the given length that R11 does not define. Safe, for the same reason. -/
  | undefinedSlice (start stop length : Nat)
  deriving DecidableEq, Repr

/-- Moves to which the spec gives no meaning. -/
inductive Refusal where
  /-- Raised by exec for an instruction that has no meaning yet. Safe. -/
  | notModelled (mnemonic : String)
  /-- Raised by the host port for a register access that is not an aligned 32-bit access (R59, U12). Safe. -/
  | registerAccess (offset : Nat) (size : AccessSize)
  /-- Raised by the host port for a buffer access that is not a byte access (R59; 92_eei_decisions.md D2). Safe. -/
  | bufferAccess (offset : Nat) (size : AccessSize)
  /-- Raised by the host port for an access outside the register range and the two buffers (D2; log 11). Safe. -/
  | outsideMap (offset : Nat)
  /-- Raised by the host port for a write to `CMD`, `RX_LEN`, `RXBUF` or `ARG_IP` while BUSY (R338, U11). Safe. -/
  | writeWhileBusy (offset : Nat)
  deriving DecidableEq, Repr

/-- The cache at reset: `P_ARP_CAPACITY` free entries, or the empty sequence under `INF` (R330). -/
def emptyCache (c : Config) : List Entry :=
  match c.arpCapacity with
  | none => []
  | some n => List.replicate n Entry.empty

/-- The state reset establishes under a configuration (R330), with the model's own fields as they stand before any host
action (log 3, 5, 6, 8, 10). -/
def State.resetOf (c : Config) : State where
  cfg := c
  cache := emptyCache c
  cacheCount := 0#32
  engine := .idle
  halted := false
  status := 0#16
  rxLen := 0#16
  txLen := 0#16
  argIp := 0#32
  lkInfo := 0#32
  lkMacHi := 0#16
  lkMacLo := 0#32
  csumResult := 0#16
  mem := []
  host := []
  channel := .ok
  sent := []
  rdata := 0#32
  epoch := 0
  draws := 0

/-- The machine right after reset, in the reference configuration (R8, R330). -/
def State.reset : State := State.resetOf Config.reference

end Sys2Proof.Machine
end

