-- ==== Sys2Proof/Machine/Flags.lean ====
section
/-! DEFINITION. The status word: the reason, kind and class codes (30_encoding.md R92, R100, R103) and how an outcome
makes `STATUS` (46_host_commands.md R273). The block has no condition codes (10_state.md R39). -/

namespace Sys2Proof.Machine

/-- The outcome kinds (R30); the value 7 is never written (U15). -/
inductive Kind where
  | none
  | replied
  | consumed
  | dropped
  | failed
  | rejected
  | done
  deriving DecidableEq, Repr

/-- The error classes (R30, R301); the value 7 is never written (U16). -/
inductive ErrorClass where
  | none
  | truncatedHeader
  | unsupportedField
  | checksumMismatch
  | cacheConflict
  | transmitFailure
  | commandError
  deriving DecidableEq, Repr

/-- The reasons (R100). -/
inductive Reason where
  | none
  | arpReplySent
  | icmpEchoReplySent
  | tcpReplySent
  | arpReplyLearned
  | arpOpcodeIgnored
  | arpRequestNotOwnIp
  | icmpTypeIgnored
  | lookupDone
  | checksumDone
  | restartDone
  | ethTruncated
  | ethUnknownEthertype
  | arpTruncated
  | arpBadHwtype
  | arpBadProtype
  | arpCacheConflict
  | arpCacheFull
  | ipTruncated
  | ipBadVersion
  | ipBadIhl
  | ipTtlZero
  | ipHdrTruncated
  | ipChecksum
  | ipBadTotalLength
  | ipUnknownProtocol
  | icmpTruncated
  | icmpChecksum
  | icmpEchoTruncated
  | tcpTruncated
  | tcpChecksum
  | tcpNonsynDropped
  | txFailure
  | cmdIllegal
  | cmdHalted
  | frameTooLong
  deriving DecidableEq, Repr

/-- `KIND`, bits 10:8 (R30). -/
def kindCode : Kind → BitVec 3
  | .none => 0#3
  | .replied => 1#3
  | .consumed => 2#3
  | .dropped => 3#3
  | .failed => 4#3
  | .rejected => 5#3
  | .done => 6#3

/-- `CLASS`, bits 14:12 (R30). -/
def classCode : ErrorClass → BitVec 3
  | .none => 0#3
  | .truncatedHeader => 1#3
  | .unsupportedField => 2#3
  | .checksumMismatch => 3#3
  | .cacheConflict => 4#3
  | .transmitFailure => 5#3
  | .commandError => 6#3

/-- `REASON`, bits 7:0 (R100). -/
def reasonCode : Reason → Byte
  | .none => 0x00#8
  | .arpReplySent => 0x01#8
  | .icmpEchoReplySent => 0x02#8
  | .tcpReplySent => 0x03#8
  | .arpReplyLearned => 0x04#8
  | .arpOpcodeIgnored => 0x05#8
  | .arpRequestNotOwnIp => 0x06#8
  | .icmpTypeIgnored => 0x07#8
  | .lookupDone => 0x08#8
  | .checksumDone => 0x09#8
  | .restartDone => 0x0A#8
  | .ethTruncated => 0x10#8
  | .ethUnknownEthertype => 0x11#8
  | .arpTruncated => 0x20#8
  | .arpBadHwtype => 0x21#8
  | .arpBadProtype => 0x22#8
  | .arpCacheConflict => 0x23#8
  | .arpCacheFull => 0x24#8
  | .ipTruncated => 0x30#8
  | .ipBadVersion => 0x31#8
  | .ipBadIhl => 0x32#8
  | .ipTtlZero => 0x33#8
  | .ipHdrTruncated => 0x34#8
  | .ipChecksum => 0x35#8
  | .ipBadTotalLength => 0x36#8
  | .ipUnknownProtocol => 0x37#8
  | .icmpTruncated => 0x40#8
  | .icmpChecksum => 0x41#8
  | .icmpEchoTruncated => 0x42#8
  | .tcpTruncated => 0x50#8
  | .tcpChecksum => 0x51#8
  | .tcpNonsynDropped => 0x52#8
  | .txFailure => 0x60#8
  | .cmdIllegal => 0x70#8
  | .cmdHalted => 0x71#8
  | .frameTooLong => 0x72#8

/-- The kind of a reason (R100). -/
def reasonKind : Reason → Kind
  | .none => .none
  | .arpReplySent => .replied
  | .icmpEchoReplySent => .replied
  | .tcpReplySent => .replied
  | .arpReplyLearned => .consumed
  | .arpOpcodeIgnored => .consumed
  | .arpRequestNotOwnIp => .consumed
  | .icmpTypeIgnored => .consumed
  | .lookupDone => .done
  | .checksumDone => .done
  | .restartDone => .done
  | .ethTruncated => .dropped
  | .ethUnknownEthertype => .dropped
  | .arpTruncated => .dropped
  | .arpBadHwtype => .dropped
  | .arpBadProtype => .dropped
  | .arpCacheConflict => .dropped
  | .arpCacheFull => .dropped
  | .ipTruncated => .dropped
  | .ipBadVersion => .dropped
  | .ipBadIhl => .dropped
  | .ipTtlZero => .dropped
  | .ipHdrTruncated => .dropped
  | .ipChecksum => .dropped
  | .ipBadTotalLength => .dropped
  | .ipUnknownProtocol => .dropped
  | .icmpTruncated => .dropped
  | .icmpChecksum => .dropped
  | .icmpEchoTruncated => .dropped
  | .tcpTruncated => .dropped
  | .tcpChecksum => .dropped
  | .tcpNonsynDropped => .dropped
  | .txFailure => .failed
  | .cmdIllegal => .rejected
  | .cmdHalted => .rejected
  | .frameTooLong => .rejected

/-- The class of a reason (R100, R103). -/
def reasonClass : Reason → ErrorClass
  | .none => .none
  | .arpReplySent => .none
  | .icmpEchoReplySent => .none
  | .tcpReplySent => .none
  | .arpReplyLearned => .none
  | .arpOpcodeIgnored => .none
  | .arpRequestNotOwnIp => .none
  | .icmpTypeIgnored => .none
  | .lookupDone => .none
  | .checksumDone => .none
  | .restartDone => .none
  | .ethTruncated => .truncatedHeader
  | .ethUnknownEthertype => .unsupportedField
  | .arpTruncated => .truncatedHeader
  | .arpBadHwtype => .unsupportedField
  | .arpBadProtype => .unsupportedField
  | .arpCacheConflict => .cacheConflict
  | .arpCacheFull => .cacheConflict
  | .ipTruncated => .truncatedHeader
  | .ipBadVersion => .unsupportedField
  | .ipBadIhl => .unsupportedField
  | .ipTtlZero => .unsupportedField
  | .ipHdrTruncated => .truncatedHeader
  | .ipChecksum => .checksumMismatch
  | .ipBadTotalLength => .truncatedHeader
  | .ipUnknownProtocol => .unsupportedField
  | .icmpTruncated => .truncatedHeader
  | .icmpChecksum => .checksumMismatch
  | .icmpEchoTruncated => .truncatedHeader
  | .tcpTruncated => .truncatedHeader
  | .tcpChecksum => .checksumMismatch
  | .tcpNonsynDropped => .unsupportedField
  | .txFailure => .transmitFailure
  | .cmdIllegal => .commandError
  | .cmdHalted => .commandError
  | .frameTooLong => .commandError

/-- The layout of `STATUS` (R30, R92): `HALTED*0x8000 + CLASS*0x1000 + BUSY*0x0800 + KIND*0x0100 + REASON`. -/
def packStatus (halted : Bool) (cls : BitVec 3) (busy : Bool) (kind : BitVec 3) (reason : Byte) : Half :=
  BitVec.ofBool halted ++ cls ++ BitVec.ofBool busy ++ kind ++ reason

/-- The `STATUS` that ends a command with a reason, `BUSY` being 0 (R273). -/
def statusWord (halted : Bool) (r : Reason) : Half :=
  packStatus halted (classCode (reasonClass r)) false (kindCode (reasonKind r)) (reasonCode r)

/-- `STATUS.REASON` (R30). -/
def statusReason (st : Half) : Byte := st.extractLsb' 0 8

/-- `STATUS.KIND` (R30). -/
def statusKind (st : Half) : BitVec 3 := st.extractLsb' 8 3

/-- `STATUS.BUSY` (R30). -/
def statusBusy (st : Half) : Bool := st.getLsbD 11

/-- `STATUS.CLASS` (R30). -/
def statusClass (st : Half) : BitVec 3 := st.extractLsb' 12 3

/-- `STATUS.HALTED` (R30). -/
def statusHalted (st : Half) : Bool := st.getLsbD 15

/-- `STATUS` with `BUSY` reading 1 (R30, R270). -/
def markBusy (st : Half) : Half := st ||| 0x0800#16

/-- The 2-bit code of an entry's state (R23). -/
def entryStateCode : EntryState → BitVec 2
  | .free => 0#2
  | .waiting => 1#2
  | .resolved => 2#2

/-- `LK_INFO` after a lookup that found an entry (R34, R280): `hwtype*2^16 + state*2 + 1`. -/
def lookupInfo (e : Entry) : Word := e.hwtype ++ 0#13 ++ entryStateCode e.state ++ 1#1

/-- The ACK bit of the TCP flags byte (R85); the SYN bit is `synSet`. -/
def ackBit : Byte := 0x10#8

end Sys2Proof.Machine
end

