-- ==== Sys2Proof/Machine/Codec.lean ====
section
/-! DEFINITION. The Wire Codec and Checksum unit (40_codec_checksum.md): bounds-checked field reads, field writes, and the
internet checksum. Pure functions, no state. -/

namespace Sys2Proof.Machine

/-- `B[i]`, for an index inside the string (R11). -/
def byteAt (B : Bytes) (i : Nat) : Byte := B.getD i 0#8

/-- `readU8` (R120). -/
def readU8 (B : Bytes) (off : Nat) : Except Fault Byte :=
  if off + 1 ≤ B.length then .ok (byteAt B off) else .error (.truncated .u8 off B.length)

/-- `readU16` (R120). -/
def readU16 (B : Bytes) (off : Nat) : Except Fault Half :=
  if off + 2 ≤ B.length then .ok (be16 (byteAt B off) (byteAt B (off + 1)))
  else .error (.truncated .u16 off B.length)

/-- `readU32` (R120). -/
def readU32 (B : Bytes) (off : Nat) : Except Fault Word :=
  if off + 4 ≤ B.length then
    .ok (be32 (byteAt B off) (byteAt B (off + 1)) (byteAt B (off + 2)) (byteAt B (off + 3)))
  else .error (.truncated .u32 off B.length)

/-- `readBytes` (R120). -/
def readBytes (B : Bytes) (off n : Nat) : Except Fault Bytes :=
  if off + n ≤ B.length then .ok ((B.drop off).take n) else .error (.truncated (.bytes n) off B.length)

/-- The big-endian number of six bytes (R120, corner cases). -/
def macOfBytes (B : Bytes) : Mac :=
  byteAt B 0 ++ byteAt B 1 ++ byteAt B 2 ++ byteAt B 3 ++ byteAt B 4 ++ byteAt B 5

/-- A 48-bit MAC, read as `readBytes(B, off, 6)` (R120). -/
def readMac (B : Bytes) (off : Nat) : Except Fault Mac :=
  match readBytes B off 6 with
  | .ok m => .ok (macOfBytes m)
  | .error f => .error f

/-- `B[a..b)`, defined only when `0 ≤ a ≤ b ≤ len(B)` (R11). -/
def slice (B : Bytes) (a b : Nat) : Except Fault Bytes :=
  if a ≤ b ∧ b ≤ B.length then .ok ((B.drop a).take (b - a)) else .error (.undefinedSlice a b B.length)

/-- `B with [off..off+len(C)) := C` (R11). -/
def splice (B : Bytes) (off : Nat) (C : Bytes) : Bytes := B.take off ++ C ++ B.drop (off + C.length)

/-- `writeU16` (R123). -/
def writeU16 (B : Bytes) (off : Nat) (v : Half) : Bytes := splice B off (u16 v)

/-- `writeU32` (R123). -/
def writeU32 (B : Bytes) (off : Nat) (v : Word) : Bytes := splice B off (u32 v)

/-- `sum16` (R124): the sum of the big-endian 16-bit words, a trailing odd byte being the high byte of a last word. -/
def sum16 : Bytes → Nat
  | [] => 0
  | [a] => a.toNat * 256
  | a :: b :: rest => a.toNat * 256 + b.toNat + sum16 rest

/-- At most the given number of passes of R124's folding loop. -/
def foldPasses : Nat → Nat → Nat
  | 0, s => s
  | n + 1, s => if s < 65536 then s else foldPasses n ((s &&& 0xFFFF) + (s >>> 16))

/-- `fold` (R124). Each pass makes a sum of at least `2^16` strictly smaller, so the loop ends within that many passes. -/
def fold (s : Nat) : Nat := foldPasses s s

/-- `checksum` (R125): the ones'-complement of the folded sum of the first `n` bytes. -/
def checksum (B : Bytes) (n : Nat) : Half := ~~~ (BitVec.ofNat 16 (fold (sum16 (B.take n))))

/-- The 12-byte pseudo-header (R86, R128). -/
def pseudoHeader (src dst : Word) (proto : Byte) (segmentLength : Half) : Bytes :=
  u32 src ++ u32 dst ++ u8 0#8 ++ u8 proto ++ u16 segmentLength

/-- `tcpChecksum` (R128). -/
def tcpChecksum (src dst : Word) (proto : Byte) (T : Bytes) : Half :=
  checksum (pseudoHeader src dst proto (BitVec.ofNat 16 T.length) ++ T) (12 + T.length)

/-- Checksum construction without a prefix (R127): zero the field at `c`, sum the region, store the result in the field. -/
def constructChecksum (R : Bytes) (c : Nat) : Bytes :=
  let R0 := writeU16 R c 0#16
  writeU16 R0 c (checksum R0 R0.length)

/-- Checksum construction for a TCP segment (R127, R128): the field is at offset 16. -/
def constructTcpChecksum (src dst : Word) (proto : Byte) (T : Bytes) : Bytes :=
  let T0 := writeU16 T 16 0#16
  writeU16 T0 16 (tcpChecksum src dst proto T0)

end Sys2Proof.Machine
end

