-- ==== Sys2Proof/Machine/Operands.lean ====
section
/-! DEFINITION. The decoded headers, which are the operands of the dispatch rows: the layouts of 30_encoding.md as
41_ethernet.md R141, 42_arp.md R162, 43_ipv4.md R195, 44_icmp.md R222 and 45_tcp.md R242 decode them, with the encoders
of the same layouts. They live only during one command (10_state.md R38). -/

namespace Sys2Proof.Machine

/-- The Ethernet header and payload (R70, R141). -/
structure EthView where
  dst : Mac
  src : Mac
  ethertype : Half
  payload : Bytes
  deriving DecidableEq, Repr

/-- The ARP message (R72, R162). -/
structure ArpView where
  hwtype : Half
  protype : Half
  hwsize : Byte
  prosize : Byte
  opcode : Half
  smac : Mac
  sip : Word
  tmac : Mac
  tip : Word
  deriving DecidableEq, Repr

/-- The IPv4 header (R74, R195). -/
structure Ipv4View where
  version : BitVec 4
  ihl : BitVec 4
  tos : Byte
  totlen : Half
  id : Half
  flags : BitVec 3
  fragoff : BitVec 13
  ttl : Byte
  proto : Byte
  hcsum : Half
  saddr : Word
  daddr : Word
  options : Bytes
  deriving DecidableEq, Repr

/-- The ICMP message (R79, R222). -/
structure IcmpView where
  type : Byte
  code : Byte
  csum : Half
  body : Bytes
  deriving DecidableEq, Repr

/-- The TCP segment (R83, R242). -/
structure TcpView where
  sport : Half
  dport : Half
  seq : Word
  ack : Word
  doff : BitVec 4
  rsvd : BitVec 4
  flags : Byte
  window : Half
  csum : Half
  urg : Half
  rest : Bytes
  deriving DecidableEq, Repr

/-- `version`, bits 7:4 of the first IPv4 byte (R75; PRESUMED by the rule itself, log 15). -/
def ipVersion (b : Byte) : BitVec 4 := b.extractLsb' 4 4

/-- `IHL`, bits 3:0 of the first IPv4 byte (R75; PRESUMED by the rule itself, log 15). -/
def ipIhl (b : Byte) : BitVec 4 := b.extractLsb' 0 4

/-- The header length in bytes, `4*IHL` (R78). -/
def headerBytes (ihl : BitVec 4) : Nat := 4 * ihl.toNat

/-- Decode an Ethernet frame (R141). -/
def decodeEth (F : Bytes) : Except Fault EthView := do
  let dst ← readMac F 0
  let src ← readMac F 6
  let ethertype ← readU16 F 12
  let payload ← slice F 14 F.length
  return { dst, src, ethertype, payload }

/-- `ethEncode` (R144). -/
def ethEncode (dst src : Mac) (ethertype : Half) (payload : Bytes) : Bytes :=
  u48 dst ++ u48 src ++ u16 ethertype ++ payload

/-- Decode an ARP message (R162). -/
def decodeArp (P : Bytes) : Except Fault ArpView := do
  let hwtype ← readU16 P 0
  let protype ← readU16 P 2
  let hwsize ← readU8 P 4
  let prosize ← readU8 P 5
  let opcode ← readU16 P 6
  let smac ← readMac P 8
  let sip ← readU32 P 14
  let tmac ← readMac P 18
  let tip ← readU32 P 24
  return { hwtype, protype, hwsize, prosize, opcode, smac, sip, tmac, tip }

/-- The 28 bytes of an ARP message (R72). -/
def arpEncode (a : ArpView) : Bytes :=
  u16 a.hwtype ++ u16 a.protype ++ u8 a.hwsize ++ u8 a.prosize ++ u16 a.opcode ++ u48 a.smac ++ u32 a.sip
    ++ u48 a.tmac ++ u32 a.tip

/-- Decode an IPv4 header (R195): the fields at the offsets of R74, packed as R75 and R76 give, and the options. -/
def decodeIpv4 (P : Bytes) : Except Fault Ipv4View := do
  let b0 ← readU8 P 0
  let tos ← readU8 P 1
  let totlen ← readU16 P 2
  let id ← readU16 P 4
  let w ← readU16 P 6
  let ttl ← readU8 P 8
  let proto ← readU8 P 9
  let hcsum ← readU16 P 10
  let saddr ← readU32 P 12
  let daddr ← readU32 P 16
  let options ← slice P 20 (headerBytes (ipIhl b0))
  return { version := ipVersion b0, ihl := ipIhl b0, tos, totlen, id, flags := w.extractLsb' 13 3,
           fragoff := w.extractLsb' 0 13, ttl, proto, hcsum, saddr, daddr, options }

/-- Encode an IPv4 header (R74, R75, R76). -/
def ipv4Encode (h : Ipv4View) : Bytes :=
  u8 (h.version ++ h.ihl) ++ u8 h.tos ++ u16 h.totlen ++ u16 h.id ++ u16 (h.flags ++ h.fragoff) ++ u8 h.ttl
    ++ u8 h.proto ++ u16 h.hcsum ++ u32 h.saddr ++ u32 h.daddr ++ h.options

/-- Decode an ICMP message (R222). -/
def decodeIcmp (M : Bytes) : Except Fault IcmpView := do
  let type ← readU8 M 0
  let code ← readU8 M 1
  let csum ← readU16 M 2
  let body ← slice M 4 M.length
  return { type, code, csum, body }

/-- Encode an ICMP message (R79). -/
def icmpEncode (m : IcmpView) : Bytes := u8 m.type ++ u8 m.code ++ u16 m.csum ++ m.body

/-- Decode a TCP segment (R242). -/
def decodeTcp (T : Bytes) : Except Fault TcpView := do
  let sport ← readU16 T 0
  let dport ← readU16 T 2
  let seq ← readU32 T 4
  let ack ← readU32 T 8
  let b12 ← readU8 T 12
  let flags ← readU8 T 13
  let window ← readU16 T 14
  let csum ← readU16 T 16
  let urg ← readU16 T 18
  let rest ← slice T 20 T.length
  return { sport, dport, seq, ack, doff := b12.extractLsb' 4 4, rsvd := b12.extractLsb' 0 4, flags, window, csum,
           urg, rest }

/-- Encode a TCP segment (R83, R84, R85). -/
def tcpEncode (t : TcpView) : Bytes :=
  u16 t.sport ++ u16 t.dport ++ u32 t.seq ++ u32 t.ack ++ u8 (t.doff ++ t.rsvd) ++ u8 t.flags ++ u16 t.window
    ++ u16 t.csum ++ u16 t.urg ++ t.rest

/-- An IPv4 datagram as the responders receive it: the frame, the decoded header, the header's bytes `D[0..4*IHL)` and the
payload `D[4*IHL..totlen)`, where `D = P[0..totlen)` is the datagram (R195, R198). -/
structure Datagram where
  eth : EthView
  ip : Ipv4View
  header : Bytes
  payload : Bytes
  deriving DecidableEq, Repr

/-- Decode the datagram an Ethernet frame carries (R195, R198). -/
def decodeDatagram (eth : EthView) : Except Fault Datagram := do
  let ip ← decodeIpv4 eth.payload
  let D ← slice eth.payload 0 ip.totlen.toNat
  let header ← slice D 0 (headerBytes ip.ihl)
  let payload ← slice D (headerBytes ip.ihl) ip.totlen.toNat
  return { eth, ip, header, payload }

end Sys2Proof.Machine
end

