-- ==== Sys2Proof/Machine/Ops.lean ====
section
/-! DEFINITION. The named operations of the block: the frame buffers, how a command ends, the block's exception (a drop,
60_exceptions.md R307) and its fatal event with the return from it (R309), the ARP cache, reply framing, transmission, the
IPv4 turnaround, and the operands of the dispatch rows. -/

namespace Sys2Proof.Machine

/-- The outcome of one step of the block. -/
abbrev StepResult := Host.Outcome State Fault Refusal

/-- Go on with a decoded value, or stop with the fault that names the read (R121). -/
def orFault {α : Type} (r : Except Fault α) (k : α → StepResult) : StepResult :=
  match r with
  | .ok a => k a
  | .error f => .fault f

/-! ## The frame buffers (R36, R37, R51) -/

/-- The host offset of `RXBUF` (R104). -/
def rxBase : Nat := 0x10000

/-- The host offset of `TXBUF` (R104). -/
def txBase : Nat := 0x20000

/-- The byte a cell holds, if anything has written it. -/
def memGet : Memory → Nat → Option Byte
  | [], _ => none
  | (k, v) :: m, a => if a = k then some v else memGet m a

/-- Write one cell, keeping the canonical form. -/
def memSet : Memory → Nat → Byte → Memory
  | [], a, b => [(a, b)]
  | (k, v) :: m, a, b =>
    if a < k then (a, b) :: (k, v) :: m else if a = k then (a, b) :: m else (k, v) :: memSet m a b

/-- Write consecutive cells. -/
def memSetBytes : Memory → Nat → Bytes → Memory
  | m, _, [] => m
  | m, a, b :: bs => memSetBytes (memSet m a b) (a + 1) bs

/-- The byte in a buffer cell: what was last written there, or the free value of R36 and R37 (log 5). -/
def bufByte (s : State) (a : Nat) : Byte := (memGet s.mem a).getD (Config.bufferAtReset s.epoch a)

/-- Consecutive buffer bytes. -/
def bufBytes (s : State) (base n : Nat) : Bytes := (List.range n).map fun i => bufByte s (base + i)

/-- The received frame `F = RXBUF[0..RX_LEN)` (R51). PROCESS_FRAME and CHECKSUM reject `RX_LEN > P_MAX_FRAME` before they read it
(R277, R282). A dispatch row run alone does not check `RX_LEN`: the bytes it reads beyond `RXBUF` are the free values of offsets
that nothing has written (DESIGN CHOICE, log 9). -/
def rxFrame (s : State) : Bytes := bufBytes s rxBase s.rxLen.toNat

/-- The transmitted frame `TXBUF[0..TX_LEN)` (R51). -/
def txFrame (s : State) : Bytes := bufBytes s txBase s.txLen.toNat

/-! ## How a command begins and ends -/

/-- Issue: `ENGINE` goes to `BUSY` and `STATUS.BUSY` reads 1 (R270). -/
def beginCommand (s : State) : State := { s with engine := .busy, status := markBusy s.status }

/-- `finish`: write `STATUS` from the reason, with `HALTED` as it stands and `BUSY` 0; `ENGINE` returns to `IDLE`
(R270, R273). -/
def finish (r : Reason) (s : State) : State := { s with status := statusWord s.halted r, engine := .idle }

/-- `drop(reason)`: the block's exception. It stops the frame at the failed check, saves only `STATUS`, and jumps nowhere
(R13, R300, R302, R307); the next command needs no return (R308). -/
def drop (r : Reason) (s : State) : StepResult := .next (finish r s)

/-- `consume(reason)`: end the frame with no frame transmitted and no error (R13). -/
def consume (r : Reason) (s : State) : StepResult := .next (finish r s)

/-- `reject(reason)`: refuse a command before it has any effect but the write of `STATUS` (R276, R277, R282, R284). -/
def reject (r : Reason) (s : State) : StepResult := .next (finish r s)

/-- The fatal event: `HALTED` is set and `STATUS` says TX_FAILURE; `TXBUF` and `TX_LEN` keep the frame (R149, R309). -/
def enterHalt (s : State) : State := finish .txFailure { s with halted := true }

/-- The return from the fatal event: `HALTED` is cleared, everything else stays (R283, R309, R335). -/
def leaveHalt (s : State) : State := finish .restartDone { s with halted := false }

/-! ## Transmission (R144 to R149) -/

/-- Whether the channel accepts a frame of the given length: a short write counts as a failure (R149), and so does a frame
transmitted while no channel is connected (R334). -/
def ChannelReport.accepts (r : ChannelReport) (len : Nat) : Bool :=
  match r with
  | .ok => true
  | .fail => false
  | .wrote n => decide (len ≤ n)
  | .unconnected => false

/-- Hand a frame to the channel: `TXBUF` and `TX_LEN` hold it, and the channel's report is used up (R148, R274; the next
one is the default of R105; DEDUCED, log 8). A frame that PROCESS_FRAME builds fits `TXBUF` (R148); a dispatch row run alone with
`RX_LEN > P_MAX_FRAME` may hand over a longer one, whose bytes then stand beyond `TXBUF` too (DESIGN CHOICE, log 9). -/
def handOver (out : Bytes) (s : State) : State :=
  { s with
    mem := memSetBytes s.mem txBase out
    txLen := BitVec.ofNat 16 out.length
    sent := s.sent ++ [⟨out, s.channel.accepts out.length⟩]
    channel := .ok }

/-- `transmit(out, reason)` (R148, R149). -/
def transmit (out : Bytes) (r : Reason) (s : State) : StepResult :=
  if s.channel.accepts out.length then .next (finish r (handOver out s)) else .next (enterHalt (handOver out s))

/-- `replyFrame(eth, payload)` (R146): to the received source, from `DEV_MAC`, with the received ethertype. -/
def replyFrame (c : Config) (eth : EthView) (payload : Bytes) : Bytes :=
  ethEncode eth.src c.devMac eth.ethertype payload

/-- The reply header of the turnaround (R199): the addresses trade places and the checksum is constructed anew. -/
def turnaroundHeader (d : Datagram) : Bytes :=
  let H1 := writeU32 d.header 12 d.ip.daddr
  let H2 := writeU32 H1 16 d.ip.saddr
  let H3 := writeU16 H2 10 0#16
  writeU16 H3 10 (checksum H3 (headerBytes d.ip.ihl))

/-- `sendOutgoing(eth, ip, Q, reason)` (R199). -/
def sendOutgoing (d : Datagram) (Q : Bytes) (r : Reason) (s : State) : StepResult :=
  transmit (replyFrame s.cfg d.eth (turnaroundHeader d ++ Q)) r s

/-! ## The ARP cache (R165 to R167) -/

/-- An entry answers a key when it is not Free and holds the key; a Waiting entry answers like a Resolved one (R165). -/
def Entry.answers (ip : Word) (e : Entry) : Bool := decide (e.state ≠ .free) && decide (e.ip = ip)

/-- `lookup(ip)`: the index of the entry for a key (R165). At most one qualifies (R24); in states no run reaches where
several do, the lowest (DESIGN CHOICE, log 13). -/
def lookup (cache : List Entry) (ip : Word) : Option Nat := cache.findIdx? (Entry.answers ip)

/-- `CACHE_COUNT` after an insert: one more, saturating at `2^32 - 1` (R27, R167). -/
def countUp (n : Word) : Word := if n = 0xFFFFFFFF#32 then n else n + 1#32

/-- A new Resolved entry (R167). -/
def Entry.learned (ip : Word) (hwtype : Half) (mac : Mac) : Entry := ⟨.resolved, ip, hwtype, mac⟩

/-- The lowest index with a Free entry (R167). -/
def freeIndex (cache : List Entry) : Option Nat := cache.findIdx? fun e => decide (e.state = .free)

/-- `insert(ip, hwtype, mac)` (R167): append under `INF`; else take the lowest Free index, or drop when there is none. -/
def insertEntry (ip : Word) (hwtype : Half) (mac : Mac) (s : State) : Except Reason State :=
  match s.cfg.arpCapacity with
  | none =>
    .ok { s with cache := s.cache ++ [Entry.learned ip hwtype mac], cacheCount := countUp s.cacheCount }
  | some _ =>
    match freeIndex s.cache with
    | none => .error .arpCacheFull
    | some j =>
      .ok { s with cache := s.cache.set j (Entry.learned ip hwtype mac), cacheCount := countUp s.cacheCount }

/-- `learn(arp)`: merge or insert (R166, R169). -/
def learn (arp : ArpView) (s : State) : Except Reason State :=
  match lookup s.cache arp.sip with
  | some i =>
    let e := s.cache.getD i Entry.empty
    if e.hwtype = arp.hwtype then .ok { s with cache := s.cache.set i { e with mac := arp.smac } }
    else .error .arpCacheConflict
  | none => insertEntry arp.sip arp.hwtype arp.smac s

/-- `arpReply(arp)` (R170). -/
def arpReplyMessage (c : Config) (arp : ArpView) : Bytes :=
  arpEncode { hwtype := arp.hwtype, protype := arp.protype, hwsize := arp.hwsize, prosize := arp.prosize,
              opcode := 2#16, smac := c.devMac, sip := c.devIp, tmac := arp.smac, tip := arp.sip }

/-! ## The operands of the dispatch rows, decoded from the frame in `RXBUF` (R38, R51) -/

/-- The operand of the Ethernet rows (R141). -/
def ethOperand (s : State) : Except Fault EthView := decodeEth (rxFrame s)

/-- The operands of the ARP rows (R162). -/
def arpOperand (s : State) : Except Fault (EthView × ArpView) := do
  let eth ← ethOperand s
  let arp ← decodeArp eth.payload
  return (eth, arp)

/-- The operand of the IPv4 and ICMP rows (R195). -/
def datagramOperand (s : State) : Except Fault Datagram := do
  let eth ← ethOperand s
  decodeDatagram eth

/-- The operands of the TCP rows (R242). -/
def tcpOperand (s : State) : Except Fault (Datagram × TcpView) := do
  let d ← datagramOperand s
  let tcp ← decodeTcp d.payload
  return (d, tcp)

end Sys2Proof.Machine
end

