-- ==== Sys2Proof/Machine/Arp.lean ====
section
/-! DEFINITION. The ARP Resolver (42_arp.md): the ARP rows and the unit's sequence `arpIncoming`. -/

namespace Sys2Proof.Machine

/-- ARP_REQUEST (R173, R174): answer with the ARP Reply, or, under `P_ARP_OWN_IP_ONLY`, consume a Request for another
address. The learn of R172 step 2 is already done. -/
def execArpRequest (s : State) : StepResult :=
  orFault (arpOperand s) fun (eth, arp) =>
    if s.cfg.arpOwnIpOnly ∧ arp.tip ≠ s.cfg.devIp then consume .arpRequestNotOwnIp s
    else transmit (replyFrame s.cfg eth (arpReplyMessage s.cfg arp)) .arpReplySent s

/-- ARP_REPLY (R175). -/
def execArpReply (s : State) : StepResult := consume .arpReplyLearned s

/-- ARP_OTHER (R176), whatever its opcode. -/
def execArpOther (_opcode : Half) (s : State) : StepResult := consume .arpOpcodeIgnored s

/-- R172 step 3: the row the opcode selects (R88, R173, R175, R176). -/
def dispatchArp (opcode : Half) (s : State) : StepResult :=
  if opcode = 1#16 then execArpRequest s
  else if opcode = 2#16 then execArpReply s
  else execArpOther opcode s

/-- `arpIncoming` (R172): the length check (R160), the type checks (R161), the decode (R162), the learn (R166), the
opcode's row. -/
def arpIncoming (P : Bytes) (s : State) : StepResult :=
  if P.length < 28 then drop .arpTruncated s
  else
    orFault (readU16 P 0) fun hwtype =>
    if hwtype ≠ 1#16 then drop .arpBadHwtype s
    else
      orFault (readU16 P 2) fun protype =>
      if protype ≠ 0x0800#16 then drop .arpBadProtype s
      else
        orFault (decodeArp P) fun arp =>
        match learn arp s with
        | .error reason => drop reason s
        | .ok learned => dispatchArp arp.opcode learned

end Sys2Proof.Machine
end

