-- ==== Sys2Proof/Machine/Icmp.lean ====
section
/-! DEFINITION. The ICMP Echo Responder (44_icmp.md): the ICMP rows and the unit's sequence `icmpIncoming`. -/

namespace Sys2Proof.Machine

/-- The echo reply message (R223): type 0, checksum constructed over the same length, everything else copied. -/
def echoReply (M : Bytes) : Bytes := constructChecksum (splice M 0 (u8 0#8)) 2

/-- ICMP_ECHO_REQUEST (R223). -/
def execIcmpEchoRequest (s : State) : StepResult :=
  orFault (datagramOperand s) fun d =>
    if d.payload.length < 8 then drop .icmpEchoTruncated s
    else sendOutgoing d (echoReply d.payload) .icmpEchoReplySent s

/-- ICMP_OTHER (R225), whatever its type. -/
def execIcmpOther (_type : Byte) (s : State) : StepResult := consume .icmpTypeIgnored s

/-- The row the ICMP type selects (R88, R222). -/
def dispatchIcmp (type : Byte) (s : State) : StepResult :=
  if type = 8#8 then execIcmpEchoRequest s else execIcmpOther type s

/-- `icmpIncoming` (R222): the length check (R220), the checksum check (R221), the type's row. -/
def icmpIncoming (M : Bytes) (s : State) : StepResult :=
  if M.length < 4 then drop .icmpTruncated s
  else if checksum M M.length ≠ 0#16 then drop .icmpChecksum s
  else orFault (decodeIcmp M) fun icmp => dispatchIcmp icmp.type s

end Sys2Proof.Machine
end

