-- ==== Sys2Proof/Machine/Tcp.lean ====
section
/-! DEFINITION. The TCP SYN/ACK builder (45_tcp.md): the TCP rows and the unit's sequence `tcpIncoming`. -/

namespace Sys2Proof.Machine

/-- The segment with its ports swapped (R243, R245). -/
def swapPorts (tcp : TcpView) (T : Bytes) : Bytes := writeU16 (writeU16 T 0 tcp.dport) 2 tcp.sport

/-- The SYN/ACK segment (R243), from the flags byte that selected the row. -/
def synAckSegment (c : Config) (d : Datagram) (tcp : TcpView) (flags : Byte) : Bytes :=
  let T1 := swapPorts tcp d.payload
  let T2 := writeU32 T1 4 c.tcpIsn
  let T3 := writeU32 T2 8 (tcp.seq + 1#32)
  let T4 := splice T3 13 (u8 (flags ||| ackBit))
  constructTcpChecksum d.ip.daddr d.ip.saddr d.ip.proto T4

/-- The echoed segment (R245). -/
def echoSegment (d : Datagram) (tcp : TcpView) : Bytes :=
  constructTcpChecksum d.ip.daddr d.ip.saddr d.ip.proto (swapPorts tcp d.payload)

/-- TCP_SYN (R243). -/
def execTcpSyn (flags : Byte) (s : State) : StepResult :=
  orFault (tcpOperand s) fun (d, tcp) => sendOutgoing d (synAckSegment s.cfg d tcp flags) .tcpReplySent s

/-- TCP_NONSYN (R245), whatever its flags. -/
def execTcpNonsyn (_flags : Byte) (s : State) : StepResult :=
  match s.cfg.tcpNonSyn with
  | .drop => drop .tcpNonsynDropped s
  | .echo => orFault (tcpOperand s) fun (d, tcp) => sendOutgoing d (echoSegment d tcp) .tcpReplySent s

/-- The row the SYN bit selects (R88, R242). -/
def dispatchTcp (flags : Byte) (s : State) : StepResult :=
  if synSet flags then execTcpSyn flags s else execTcpNonsyn flags s

/-- `tcpIncoming` (R242): the length check (R240), the checksum check (R241), the SYN bit's row. -/
def tcpIncoming (d : Datagram) (s : State) : StepResult :=
  if d.payload.length < 20 then drop .tcpTruncated s
  else if tcpChecksum d.ip.saddr d.ip.daddr d.ip.proto d.payload ≠ 0#16 then drop .tcpChecksum s
  else orFault (decodeTcp d.payload) fun tcp => dispatchTcp tcp.flags s

end Sys2Proof.Machine
end

