-- ==== Sys2Proof/Machine/Ipv4.lean ====
section
/-! DEFINITION. The IPv4 header validator and dispatch (43_ipv4.md): the IPv4 rows and the unit's sequence
`ipv4Incoming`. -/

namespace Sys2Proof.Machine

/-- IPV4_ICMP (R197): the datagram goes to the ICMP Responder. -/
def execIpv4Icmp (s : State) : StepResult :=
  orFault (datagramOperand s) fun d => icmpIncoming d.payload s

/-- IPV4_TCP (R197): the datagram goes to the TCP Responder. -/
def execIpv4Tcp (s : State) : StepResult :=
  orFault (datagramOperand s) fun d => tcpIncoming d s

/-- IPV4_OTHER (R197), whatever its protocol. -/
def execIpv4Other (_proto : Byte) (s : State) : StepResult := drop .ipUnknownProtocol s

/-- The row the protocol selects (R88, R197). -/
def dispatchIpv4 (proto : Byte) (s : State) : StepResult :=
  if proto = 1#8 then execIpv4Icmp s
  else if proto = 6#8 then execIpv4Tcp s
  else execIpv4Other proto s

/-- The checks that need the whole header (R192, R193, R194), and then the protocol's row (R195, R197). -/
def ipv4HeaderChecks (P : Bytes) (ihl : BitVec 4) (s : State) : StepResult :=
  if P.length < headerBytes ihl then drop .ipHdrTruncated s
  else
    orFault (slice P 0 (headerBytes ihl)) fun H =>
    if checksum H (headerBytes ihl) ≠ 0#16 then drop .ipChecksum s
    else
      orFault (readU16 P 2) fun totlen =>
      if totlen.toNat < headerBytes ihl ∨ P.length < totlen.toNat then drop .ipBadTotalLength s
      else orFault (decodeIpv4 P) fun ip => dispatchIpv4 ip.proto s

/-- `ipv4Incoming` (R195): the checks of R190 to R194 in that order, and then the protocol's row. -/
def ipv4Incoming (P : Bytes) (s : State) : StepResult :=
  if P.length < 20 then drop .ipTruncated s
  else
    orFault (readU8 P 0) fun b0 =>
    if ipVersion b0 ≠ 4#4 then drop .ipBadVersion s
    else if ipIhl b0 < 5#4 then drop .ipBadIhl s
    else
      orFault (readU8 P 8) fun ttl =>
      if ttl = 0#8 then drop .ipTtlZero s
      else ipv4HeaderChecks P (ipIhl b0) s

end Sys2Proof.Machine
end

