-- ==== Sys2Proof/Machine/Ethernet.lean ====
section
/-! DEFINITION. The Ethernet rows and the frame pipeline (41_ethernet.md; 46_host_commands.md R272). -/

namespace Sys2Proof.Machine

/-- ETH_ARP (R142): the frame goes to the ARP Resolver. -/
def execEthArp (s : State) : StepResult := orFault (ethOperand s) fun eth => arpIncoming eth.payload s

/-- ETH_IPV4 (R142): the frame goes to the IPv4 validator. -/
def execEthIpv4 (s : State) : StepResult := orFault (ethOperand s) fun eth => ipv4Incoming eth.payload s

/-- ETH_OTHER (R143), whatever its ethertype. -/
def execEthOther (_ethertype : Half) (s : State) : StepResult := drop .ethUnknownEthertype s

/-- The row the ethertype selects (R88, R142). -/
def dispatchEth (ethertype : Half) (s : State) : StepResult :=
  if ethertype = 0x0806#16 then execEthArp s
  else if ethertype = 0x0800#16 then execEthIpv4 s
  else execEthOther ethertype s

/-- `processFrame` (R272): the length check (R140), the decode (R141), the ethertype's row. -/
def frameIncoming (s : State) : StepResult :=
  if (rxFrame s).length < 14 then drop .ethTruncated s
  else orFault (ethOperand s) fun eth => dispatchEth eth.ethertype s

end Sys2Proof.Machine
end

