-- ==== Sys2Proof/Machine/Command.lean ====
section
/-! DEFINITION. The host commands (46_host_commands.md). Each begins and ends as R270 says. -/

namespace Sys2Proof.Machine

/-- PROCESS_FRAME (R271): the rejections of R276 to R278, `TX_LEN <- 0`, and the frame pipeline, which ends the command. -/
def execProcessFrame (s : State) : StepResult :=
  let b := beginCommand s
  if b.halted then reject .cmdHalted b
  else if b.cfg.maxFrame < b.rxLen.toNat then reject .frameTooLong b
  else frameIncoming { b with txLen := 0#16 }

/-- CACHE_LOOKUP (R280). -/
def execCacheLookup (s : State) : StepResult :=
  let b := beginCommand s
  match lookup b.cache b.argIp with
  | none => .next (finish .lookupDone { b with lkInfo := 0#32, lkMacHi := 0#16, lkMacLo := 0#32 })
  | some i =>
    let e := b.cache.getD i Entry.empty
    .next (finish .lookupDone
      { b with lkInfo := lookupInfo e, lkMacHi := e.mac.extractLsb' 32 16, lkMacLo := e.mac.extractLsb' 0 32 })

/-- CHECKSUM (R282). -/
def execChecksum (s : State) : StepResult :=
  let b := beginCommand s
  if b.cfg.maxFrame < b.rxLen.toNat then reject .frameTooLong b
  else .next (finish .checksumDone { b with csumResult := checksum (rxFrame b) b.rxLen.toNat })

/-- RESTART (R283). -/
def execRestart (s : State) : StepResult := .next (leaveHalt (beginCommand s))

/-- CMD_ILLEGAL (R284), whatever its value; it is rejected while halted too. -/
def execCmdIllegal (_value : Word) (s : State) : StepResult := reject .cmdIllegal (beginCommand s)

end Sys2Proof.Machine
end

