-- ==== Sys2Proof/Machine/Dispatch.lean ====
section
/-! DEFINITION. One arm per instruction, each one call of its meaning. A dispatch row acts on the frame in `RXBUF`, with no
check of `HALTED` or of `RX_LEN` (DESIGN CHOICE, log 9). -/

namespace Sys2Proof.Machine

/-- The meaning of an instruction. -/
def exec (i : Instr) (s : State) : Host.Outcome State Fault Refusal :=
  match i with
  | .ethArp => Sys2Proof.Machine.execEthArp s
  | .ethIpv4 => Sys2Proof.Machine.execEthIpv4 s
  | .ethOther ethertype => Sys2Proof.Machine.execEthOther ethertype s
  | .arpRequest => Sys2Proof.Machine.execArpRequest s
  | .arpReply => Sys2Proof.Machine.execArpReply s
  | .arpOther opcode => Sys2Proof.Machine.execArpOther opcode s
  | .ipv4Icmp => Sys2Proof.Machine.execIpv4Icmp s
  | .ipv4Tcp => Sys2Proof.Machine.execIpv4Tcp s
  | .ipv4Other proto => Sys2Proof.Machine.execIpv4Other proto s
  | .icmpEchoRequest => Sys2Proof.Machine.execIcmpEchoRequest s
  | .icmpOther type => Sys2Proof.Machine.execIcmpOther type s
  | .tcpSyn flags => Sys2Proof.Machine.execTcpSyn flags s
  | .tcpNonsyn flags => Sys2Proof.Machine.execTcpNonsyn flags s
  | .processFrame => Sys2Proof.Machine.execProcessFrame s
  | .cacheLookup => Sys2Proof.Machine.execCacheLookup s
  | .checksum => Sys2Proof.Machine.execChecksum s
  | .restart => Sys2Proof.Machine.execRestart s
  | .cmdIllegal value => Sys2Proof.Machine.execCmdIllegal value s

end Sys2Proof.Machine
end

