-- ==== Sys2Proof/Machine/HostPort.lean ====
section
/-! DEFINITION. The host's side of the block: the register map (30_encoding.md R104), the access rules (20_memory.md R59),
the issue of a command (46_host_commands.md R270), the reset event (70_reset_and_hazards.md R332), and the stimulus notation
(30_encoding.md R105, R106). -/

namespace Sys2Proof.Machine

/-- The host registers (R104). -/
inductive Reg where
  | cmd
  | status
  | rxLen
  | txLen
  | argIp
  | lkInfo
  | lkMacHi
  | lkMacLo
  | csumResult
  | devIp
  | devMacHi
  | devMacLo
  | cacheCount
  deriving DecidableEq, Repr

/-- The offset of a register (R104). -/
def regOffset : Reg → Nat
  | .cmd => 0x000
  | .status => 0x004
  | .rxLen => 0x008
  | .txLen => 0x00C
  | .argIp => 0x010
  | .lkInfo => 0x014
  | .lkMacHi => 0x018
  | .lkMacLo => 0x01C
  | .csumResult => 0x020
  | .devIp => 0x024
  | .devMacHi => 0x028
  | .devMacLo => 0x02C
  | .cacheCount => 0x030

/-- The registers in the order of their offsets. -/
def registers : List Reg :=
  [.cmd, .status, .rxLen, .txLen, .argIp, .lkInfo, .lkMacHi, .lkMacLo, .csumResult, .devIp, .devMacHi, .devMacLo,
    .cacheCount]

/-- The register at an offset, if one is mapped there (R104). -/
def regAt (off : Nat) : Option Reg := registers.find? fun r => decide (regOffset r = off)

/-- What a register reads as (R104); a narrow one reads with its high bits 0, and `CMD` reads as 0 (R90). -/
def readReg (s : State) : Reg → Word
  | .cmd => 0#32
  | .status => s.status.setWidth 32
  | .rxLen => s.rxLen.setWidth 32
  | .txLen => s.txLen.setWidth 32
  | .argIp => s.argIp
  | .lkInfo => s.lkInfo
  | .lkMacHi => s.lkMacHi.setWidth 32
  | .lkMacLo => s.lkMacLo
  | .csumResult => s.csumResult.setWidth 32
  | .devIp => s.cfg.devIp
  | .devMacHi => (s.cfg.devMac.extractLsb' 32 16).setWidth 32
  | .devMacLo => s.cfg.devMac.extractLsb' 0 32
  | .cacheCount => s.cacheCount

/-- What a host offset names. -/
inductive Target where
  /-- the register range 0x000 to 0xFFFF -/
  | register
  /-- a byte of `RXBUF` -/
  | rx
  /-- a byte of `TXBUF` -/
  | tx
  /-- anything else -/
  | outside
  deriving DecidableEq, Repr

/-- The host register space (R52, R104): each buffer is `P_MAX_FRAME` bytes. -/
def target (s : State) (off : Nat) : Target :=
  if off < rxBase then .register
  else if off < rxBase + s.cfg.maxFrame then .rx
  else if off < txBase then .outside
  else if off < txBase + s.cfg.maxFrame then .tx
  else .outside

/-- Deliver the value of a read to the host; a read has no other effect (R60, R342). -/
def deliver (v : Word) (s : State) : StepResult := .next { s with rdata := v }

/-- The host reads one byte of a buffer whose first `len` bytes are specified: such a byte, or a free value that a draw of its own
gives (R36, R37; U8, U9; log 6, log 7). -/
def deliverByte (base off : Nat) (len : Half) (s : State) : StepResult :=
  if off < base + len.toNat then deliver ((bufByte s off).setWidth 32) s
  else deliver ((Config.beyondLen s.draws off).setWidth 32) { s with draws := s.draws + 1 }

/-- A host read (R59). A byte of `RXBUF` at or beyond `RX_LEN`, or of `TXBUF` at or beyond `TX_LEN`, is a free value (log 6,
log 7). -/
def hostRead (off : Nat) (size : AccessSize) (s : State) : StepResult :=
  match target s off with
  | .register =>
    if size = .word ∧ off % 4 = 0 then
      match regAt off with
      | none => deliver 0#32 s
      | some r => deliver (readReg s r) s
    else .refused (.registerAccess off size)
  | .rx => if size = .byte then deliverByte rxBase off s.rxLen s else .refused (.bufferAccess off size)
  | .tx => if size = .byte then deliverByte txBase off s.txLen s else .refused (.bufferAccess off size)
  | .outside => .refused (.outsideMap off)

/-- A host write that the host must not make while BUSY (R338): refused then, else performed. -/
def unlessBusy (off : Nat) (s : State) (k : StepResult) : StepResult :=
  if s.engine = .busy then .refused (.writeWhileBusy off) else k

/-- A write of a value to `CMD` issues the command it names (R90, R270). -/
def issue (v : Word) (s : State) : StepResult := unlessBusy 0x000 s (exec (decodeCommand v) s)

/-- A write of a register (R104): only `CMD`, `RX_LEN` (bits 15:0 of the value) and `ARG_IP` are writable; a write of any other
has no effect (R59). -/
def writeReg (r : Reg) (v : Word) (s : State) : StepResult :=
  match r with
  | .cmd => issue v s
  | .rxLen => unlessBusy 0x008 s (.next { s with rxLen := v.setWidth 16 })
  | .argIp => unlessBusy 0x010 s (.next { s with argIp := v })
  | _ => .next s

/-- A host write (R59). A write of an unmapped offset of the register range, or of `TXBUF`, has no effect (R59; DEDUCED, log 12). -/
def hostWrite (off : Nat) (size : AccessSize) (v : Word) (s : State) : StepResult :=
  match target s off with
  | .register =>
    if size = .word ∧ off % 4 = 0 then
      match regAt off with
      | none => .next s
      | some r => writeReg r v s
    else .refused (.registerAccess off size)
  | .rx =>
    if size = .byte then unlessBusy off s (.next { s with mem := memSet s.mem off (v.setWidth 8) })
    else .refused (.bufferAccess off size)
  | .tx => if size = .byte then .next s else .refused (.bufferAccess off size)
  | .outside => .refused (.outsideMap off)

/-- `wrbuf` (R105): byte writes to `RXBUF` from an offset on; refused as a whole if one of them falls outside (DEDUCED,
log 11). -/
def hostWriteBuffer (off : Nat) (B : Bytes) (s : State) : StepResult :=
  if B.length ≤ s.cfg.maxFrame - off then
    unlessBusy (rxBase + off) s (.next { s with mem := memSetBytes s.mem (rxBase + off) B })
  else .refused (.outsideMap (max (rxBase + off) (rxBase + s.cfg.maxFrame)))

/-- The reset event (R332): the whole state becomes R330's, keeping only the configuration. The model's own input and
observation fields stay, and the buffers are drawn afresh (DESIGN CHOICE, log 5, log 14). -/
def applyReset (s : State) : State :=
  { State.resetOf s.cfg with
    host := s.host, channel := s.channel, sent := s.sent, rdata := s.rdata, epoch := s.epoch + 1, draws := s.draws }

/-- One action of the host (R342). -/
def performHost (a : HostAction) (s : State) : StepResult :=
  match a with
  | .read off size => hostRead off size s
  | .write off size v => hostWrite off size v s
  | .wrbuf off B => hostWriteBuffer off B s
  | .tx report => .next { s with channel := report }
  | .reset => .next (applyReset s)

/-! ## The stimulus notation (R105, R106) -/

/-- `cmd <value>` (R105). -/
def cmdLine (v : Word) : HostAction := .write (regOffset .cmd) .word v

/-- `wr <reg> <value>` (R105). -/
def wrLine (r : Reg) (v : Word) : HostAction := .write (regOffset r) .word v

/-- `rd <reg>` (R105). -/
def rdLine (r : Reg) : HostAction := .read (regOffset r) .word

/-- `frame <hex bytes>` (R106). -/
def frameLines (B : Bytes) : List HostAction :=
  [.wrbuf 0 B, wrLine .rxLen (BitVec.ofNat 32 B.length), cmdLine 1#32]

/-- `lookup <a.b.c.d>` (R106). -/
def lookupLines (ip : Word) : List HostAction := [wrLine .argIp ip, cmdLine 2#32]

/-- `csum <hex bytes>` (R106). -/
def csumLines (B : Bytes) : List HostAction :=
  [.wrbuf 0 B, wrLine .rxLen (BitVec.ofNat 32 B.length), cmdLine 3#32]

/-- `restart` (R106). -/
def restartLines : List HostAction := [cmdLine 4#32]

end Sys2Proof.Machine
end

