-- ==== Sys2Proof/Machine/Fetch.lean ====
section
/-! DEFINITION. How one instruction comes to be run by the very next step (log 3). The block fetches nothing (20_memory.md
R54): a command is the host's next write to `CMD`; a dispatch row is run by PROCESS_FRAME when the frame in `RXBUF` selects
it, so placing a row places a frame whose every field but the ones on the way to the row is 0 (DESIGN CHOICE). -/

namespace Sys2Proof.Machine

/-- A frame with zero addresses. -/
def placedEth (ethertype : Half) (payload : Bytes) : Bytes := ethEncode 0#48 0#48 ethertype payload

/-- An ARP message that passes R160 and R161, with the given opcode. -/
def placedArp (opcode : Half) : Bytes :=
  placedEth 0x0806#16 (arpEncode
    { hwtype := 1#16, protype := 0x0800#16, hwsize := 6#8, prosize := 4#8, opcode := opcode, smac := 0#48, sip := 0#32,
      tmac := 0#48, tip := 0#32 })

/-- A datagram that passes R190 to R194, with the given protocol and payload. -/
def placedIpv4 (proto : Byte) (Q : Bytes) : Bytes :=
  placedEth 0x0800#16 (constructChecksum (ipv4Encode
    { version := 4#4, ihl := 5#4, tos := 0#8, totlen := BitVec.ofNat 16 (20 + Q.length), id := 0#16, flags := 0#3,
      fragoff := 0#13, ttl := 64#8, proto := proto, hcsum := 0#16, saddr := 0#32, daddr := 0#32, options := [] }) 10 ++ Q)

/-- An ICMP message of eight bytes that passes R220 and R221, with the given type. -/
def placedIcmp (type : Byte) : Bytes :=
  placedIpv4 1#8 (constructChecksum (icmpEncode { type := type, code := 0#8, csum := 0#16, body := [0, 0, 0, 0] }) 2)

/-- A TCP segment of twenty bytes that passes R240 and R241, with the given flags. -/
def placedTcp (flags : Byte) : Bytes :=
  placedIpv4 6#8 (constructTcpChecksum 0#32 0#32 6#8 (tcpEncode
    { sport := 0#16, dport := 0#16, seq := 0#32, ack := 0#32, doff := 5#4, rsvd := 0#4, flags := flags, window := 0#16,
      csum := 0#16, urg := 0#16, rest := [] }))

/-- The frame that selects a dispatch row; a command needs none. -/
def placedFrame : Instr → Option Bytes
  | .ethArp => some (placedEth 0x0806#16 [])
  | .ethIpv4 => some (placedEth 0x0800#16 [])
  | .ethOther t => some (placedEth t [])
  | .arpRequest => some (placedArp 1#16)
  | .arpReply => some (placedArp 2#16)
  | .arpOther op => some (placedArp op)
  | .ipv4Icmp => some (placedIpv4 1#8 [])
  | .ipv4Tcp => some (placedIpv4 6#8 [])
  | .ipv4Other p => some (placedIpv4 p [])
  | .icmpEchoRequest => some (placedIcmp 8#8)
  | .icmpOther t => some (placedIcmp t)
  | .tcpSyn f => some (placedTcp f)
  | .tcpNonsyn f => some (placedTcp f)
  | .processFrame => none
  | .cacheLookup => none
  | .checksum => none
  | .restart => none
  | .cmdIllegal _ => none

/-- Put a frame in `RXBUF`, with the block able to process it, and PROCESS_FRAME as the host's next action. -/
def placeFrame (F : Bytes) (s : State) : State :=
  { s with
    mem := memSetBytes s.mem rxBase F
    rxLen := BitVec.ofNat 16 F.length
    halted := false
    status := s.status &&& 0x7FFF#16
    engine := .idle
    host := cmdLine 1#32 :: s.host }

/-- Make a write of a value to `CMD` the host's next action. -/
def placeCommand (v : Word) (s : State) : State := { s with engine := .idle, host := cmdLine v :: s.host }

/-- Make an instruction the one the next step runs: a dispatch row by its frame, a command by its encoded value. -/
def placeInstr (i : Instr) (s : State) : State :=
  match placedFrame i with
  | some F => placeFrame F s
  | none =>
    match encode i with
    | [a, b, c, d] => placeCommand (be32 a b c d) s
    | _ => s

/-- Make the instruction of an opcode-table word the one the next step runs. -/
def placeTableWord (s : State) (nbits w : Nat) : State :=
  match decodeTableWord nbits w with
  | none => s
  | some i => placeInstr i s

/-- The command the host issues next: what stands at `CMD` for the next step (R90). -/
def fetchCommand (s : State) : Option Word :=
  match s.host with
  | .write 0 .word v :: _ => some v
  | _ => none

/-- Take the host's next action and perform it; with none pending the block waits in `IDLE` (R314, R331). -/
def nextAction (s : State) : StepResult :=
  match s.host with
  | [] => .next s
  | a :: rest => performHost a { s with host := rest }

end Sys2Proof.Machine
end

