-- ==== Sys2Proof/Machine/Step.lean ====
section
/-! DEFINITION. One step of the block: one action of the host, which for a command is the whole command
(20_memory.md R61). -/

namespace Sys2Proof.Machine

/-- One step. -/
def step (s : State) : Host.Outcome State Fault Refusal := nextAction s

/-- The state in which the next step runs the instruction of an opcode-table word (log 3). -/
def State.withFetchWord (s : State) (nbits w : Nat) : State := placeTableWord s nbits w

end Sys2Proof.Machine
end

