-- ==== Sys2Proof/Safety.lean ====
section
/-! DEFINITION. What holds of every state a run can reach: the invariants the spec states or implies. A run is safe when no
step of it faults and every state of it meets them. -/

namespace Sys2Proof.Machine

/-- Two entries never hold one key (10_state.md R24). -/
def UniqueKeys (cache : List Entry) : Prop :=
  cache.Pairwise fun a b => a.state ≠ .free → b.state ≠ .free → a.ip ≠ b.ip

/-- An entry is Free with the reset values of its fields (R23, U21), or Resolved with the one hardware type R161 admits
(R25, R168). -/
def LegalEntry (e : Entry) : Prop := e = Entry.empty ∨ (e.state = .resolved ∧ e.hwtype = 1#16)

/-- How many entries are not Free (R27). -/
def liveEntries (cache : List Entry) : Nat := cache.countP fun e => decide (e.state ≠ .free)

/-- The size of the cache (R22): the finite capacity, or under `INF` only entries that an insert appended. -/
def CacheSize (c : Config) (cache : List Entry) : Prop :=
  match c.arpCapacity with
  | none => ∀ e ∈ cache, e.state ≠ .free
  | some n => cache.length = n

/-- The invariant of the block between commands. -/
structure Inv (s : State) : Prop where
  /-- the configuration is legal (R8) -/
  config : s.cfg.wf = true
  /-- the memory is in canonical form -/
  memory : Memory.wf s.mem
  /-- only cells of the two buffers are listed (R36, R37, R104) -/
  buffers : ∀ c ∈ s.mem, (rxBase ≤ c.1 ∧ c.1 < rxBase + s.cfg.maxFrame) ∨ (txBase ≤ c.1 ∧ c.1 < txBase + s.cfg.maxFrame)
  /-- between steps the engine is idle (R28, R61) -/
  idle : s.engine = .idle
  /-- `STATUS` is the word of one reason: `BUSY` reads 0, `HALTED` is a copy of the flag, and no reserved kind or class
  stands in it (R30, R92, R100) -/
  status : ∃ r, s.status = statusWord s.halted r
  /-- the cache has its size (R22) -/
  cacheSize : CacheSize s.cfg s.cache
  /-- every entry is legal (R23, R25, R168) -/
  entries : ∀ e ∈ s.cache, LegalEntry e
  /-- keys are unique (R24) -/
  keys : UniqueKeys s.cache
  /-- `CACHE_COUNT` counts the entries that are not Free, and saturates (R27) -/
  count : s.cacheCount.toNat = min (liveEntries s.cache) (2 ^ 32 - 1)
  /-- the transmitted frame fits `TXBUF` (R148) -/
  txFits : s.txLen.toNat ≤ s.cfg.maxFrame
  /-- the reserved bits of `LK_INFO` read 0 (R34, U19) -/
  lookupReserved : s.lkInfo.extractLsb' 3 13 = 0#13

/-- The values reset establishes (70_reset_and_hazards.md R330), the buffers being unspecified. -/
def ResetValues (c : Config) (t : State) : Prop :=
  t.cfg = c
    ∧ t.cache = (match c.arpCapacity with | none => [] | some n => List.replicate n ⟨.free, 0#32, 0#16, 0#48⟩)
    ∧ t.cacheCount = 0#32 ∧ t.engine = .idle ∧ t.halted = false ∧ t.status = 0x0000#16 ∧ t.rxLen = 0#16 ∧ t.txLen = 0#16
    ∧ t.argIp = 0#32 ∧ t.lkInfo = 0#32 ∧ t.lkMacHi = 0#16 ∧ t.lkMacLo = 0#32 ∧ t.csumResult = 0#16

/-- The registers and the configuration that no command but the one named for each writes: what every frame leaves alone
(46_host_commands.md R275), with the model's own fields that a frame does not touch. -/
def KeepsHostSide (s t : State) : Prop :=
  t.cfg = s.cfg ∧ t.rxLen = s.rxLen ∧ t.argIp = s.argIp ∧ t.lkInfo = s.lkInfo ∧ t.lkMacHi = s.lkMacHi
    ∧ t.lkMacLo = s.lkMacLo ∧ t.csumResult = s.csumResult ∧ t.host = s.host ∧ t.rdata = s.rdata ∧ t.epoch = s.epoch
    ∧ t.draws = s.draws

/-- The ARP cache and its count are as they were. -/
def KeepsCache (s t : State) : Prop := t.cache = s.cache ∧ t.cacheCount = s.cacheCount

/-- The state after a frame was handed to the channel and accepted, or refused (R148, R149): the frame stands in `TXBUF`, the
channel has seen it, and `STATUS` says how it ended. Every field not named is as it was. -/
def afterReply (out : Bytes) (status : Half) (accepted : Bool) (s : State) : State :=
  { s with
    mem := memSetBytes s.mem txBase out
    txLen := BitVec.ofNat 16 out.length
    sent := s.sent ++ [⟨out, accepted⟩]
    channel := .ok
    halted := s.halted || !accepted
    status := status
    engine := .idle }

/-- The 16-bit words of a byte string that its even offsets start, a trailing odd byte being the high byte of the last (R57,
R124). -/
def wordAt (B : Bytes) (k : Nat) : Nat :=
  (byteAt B (2 * k)).toNat * 2 ^ 8 + (if 2 * k + 1 < B.length then (byteAt B (2 * k + 1)).toNat else 0)

/-- All of them, first to last. -/
def wordsOf (B : Bytes) : List Nat := (List.range ((B.length + 1) / 2)).map (wordAt B)

/-- The IPv4 payload of the frame in `RXBUF` (R141). -/
def rxPayload (s : State) : Bytes := (rxFrame s).drop 14

/-- The header length that the payload's first byte gives (R75, R78). -/
def rxHeaderLen (s : State) : Nat := headerBytes (ipIhl (byteAt (rxPayload s) 0))

/-- The total length that the payload gives (R74). -/
def rxTotalLen (s : State) : Nat := (be16 (byteAt (rxPayload s) 2) (byteAt (rxPayload s) 3)).toNat

/-- The next state of a command or row that ends by writing only `STATUS` (and returns the engine to `IDLE`). -/
def statusOnly (status : Half) (s : State) : State := { s with status := status, engine := .idle }

end Sys2Proof.Machine
end

