-- ==== Sys2Proof/Certificates/Slice0/Obligations.lean ====
section
/-! DEFINITION. The statements for the provers. "R<n>" is the numbered rule of spec/ a statement formalises. -/

open Sys2Proof Sys2Proof.Machine

/-! ## Reset, the invariant, and no fault -/

/-- R330: the values reset establishes, in the model's reset states and after the reset event, whose configuration stays. The
bytes of the buffers are unspecified and nothing is said of them. -/
def Obligations.ResetEstablishesStatedValues : Prop :=
  (∀ c : Config, ResetValues c (State.resetOf c)) ∧ ResetValues State.reset.cfg State.reset
    ∧ ∀ (s : State) (rest : List HostAction), s.host = .reset :: rest →
        ∃ t, step s = .next t ∧ ResetValues s.cfg t

/-- Every reset state of a legal configuration meets the invariant (the invariant gathers R8, R22 to R25, R27, R28, R30, R34,
R100, R148 and R168). -/
def Obligations.ResetMeetsTheInvariant : Prop := ∀ c : Config, c.wf = true → Inv (State.resetOf c)

/-- The invariant holds after every step from a state in which it holds, whatever the host does and whatever the channel
answers. -/
def Obligations.StepKeepsTheInvariant : Prop := ∀ s t : State, Inv s → step s = .next t → Inv t

/-- R121: a read outside its window is a fault that names the read, never a value; and no step, from any state and whatever
the host does, reaches such a fault. -/
def Obligations.NoStepFaults : Prop :=
  (∀ (s : State) (f : Fault), step s ≠ .fault f)
    ∧ (∀ (B : Bytes) (off : Nat) (k : Byte → StepResult), B.length < off + 1 →
        orFault (readU8 B off) k = .fault (.truncated .u8 off B.length))
    ∧ (∀ (B : Bytes) (off : Nat) (k : Half → StepResult), B.length < off + 2 →
        orFault (readU16 B off) k = .fault (.truncated .u16 off B.length))
    ∧ (∀ (B : Bytes) (off : Nat) (k : Word → StepResult), B.length < off + 4 →
        orFault (readU32 B off) k = .fault (.truncated .u32 off B.length))
    ∧ (∀ (B : Bytes) (off n : Nat) (k : Bytes → StepResult), B.length < off + n →
        orFault (readBytes B off n) k = .fault (.truncated (.bytes n) off B.length))

/-! ## Encoding, and the decoded instruction is the one that runs -/

/-- Decoding the encoding of a well-formed instruction, at its level and with any bytes after it, gives the instruction and
the bytes (R88, R90, R91). The byte order of a `CMD` value is the model's choice (log 1). -/
def Obligations.DecodeOfEncodeIsTheInstruction : Prop :=
  ∀ (i : Instr) (rest : Bytes), i.wf = true → decode i.level (encode i ++ rest) = .ok (i, rest)

/-- What decodes is well formed, belongs to the level, and encodes back to the bytes read: each encoding has one meaning, and a
byte string is refused exactly when it is shorter than its level's field (R88, R91). The byte order of a `CMD` value is the
model's choice (log 1). -/
def Obligations.EncodeOfDecodeIsTheBytes : Prop :=
  (∀ (l : Level) (B : Bytes) (i : Instr) (rest : Bytes), decode l B = .ok (i, rest) →
      i.wf = true ∧ i.level = l ∧ encode i ++ rest = B)
    ∧ ∀ (l : Level) (B : Bytes), (∃ x, decode l B = .ok x) ↔ l.width ≤ B.length

/-- Words of the dispatch map and of the commands decode to their rows (R88, R90, R91; R142: a byte-swapped ethertype is
another row). The byte order of the two command words is the model's choice (DESIGN CHOICE, log 1). -/
def Obligations.SpecWordsDecodeToTheirRows : Prop :=
  decode .ethernet [0x08, 0x06] = .ok (.ethArp, []) ∧ decode .ethernet [0x06, 0x08] = .ok (.ethOther 0x0608#16, [])
    ∧ decode .arp [0x00, 0x02] = .ok (.arpReply, []) ∧ decode .ipv4 [0x06] = .ok (.ipv4Tcp, [])
    ∧ decode .icmp [0x08] = .ok (.icmpEchoRequest, []) ∧ decode .tcp [0x12] = .ok (.tcpSyn 0x12#8, [])
    ∧ decode .tcp [0x10] = .ok (.tcpNonsyn 0x10#8, []) ∧ decode .command [0, 0, 0, 4] = .ok (.restart, [])
    ∧ decode .command [4, 0, 0, 0] = .ok (.cmdIllegal 0x04000000#32, [])

/-- A host write of a value to `CMD` on an idle block runs the instruction that value encodes, as one step, the action being
taken from the host's queue (R61, R90, R270). The queue is the model's (log 3). -/
def Obligations.StepRunsTheDecodedCommand : Prop :=
  ∀ (s : State) (v : Word) (rest : List HostAction) (i : Instr), s.host = .write 0x000 .word v :: rest →
    s.engine = .idle → decode .command (u32 v) = .ok (i, []) → step s = exec i { s with host := rest }

/-- PROCESS_FRAME on a frame with a whole Ethernet header runs the row that the frame's bytes 12 and 13 decode to, with
`TX_LEN` cleared and the engine busy (R88, R142, R270 to R272). -/
def Obligations.ProcessFrameRunsTheEthernetRow : Prop :=
  ∀ (s : State) (i : Instr) (rest : Bytes), s.halted = false → s.rxLen.toNat ≤ s.cfg.maxFrame →
    decode .ethernet ((rxFrame s).drop 12) = .ok (i, rest) →
    exec .processFrame s
      = exec i { s with engine := .busy, status := s.status ||| 0x0800#16, txLen := 0#16 }

/-- ETH_ARP on a whole Ethernet/IPv4 ARP message whose sender can be learned learns the sender, whatever the opcode, and then
runs the row that the opcode's bytes decode to (R88, R172). It completes, and changes no register but what the reply changes
and no byte outside the 42 of the reply. A row run by itself is the model's choice (log 9). -/
def Obligations.EthArpLearnsAndRunsTheArpRow : Prop :=
  ∀ (s l : State) (eth : EthView) (arp : ArpView) (i : Instr) (rest : Bytes), arpOperand s = .ok (eth, arp) →
    arp.hwtype = 1#16 → arp.protype = 0x0800#16 → learn arp s = .ok l →
    decode .arp ((rxFrame s).drop 20) = .ok (i, rest) →
    exec .ethArp s = exec i l
      ∧ ∃ t, exec .ethArp s = .next t ∧ KeepsCache l t ∧ KeepsHostSide s t ∧ t.engine = .idle
          ∧ ∀ a, a < txBase ∨ txBase + 42 ≤ a → memGet t.mem a = memGet s.mem a

/-- ETH_IPV4 on a payload that passes the checks of R190 to R194 runs the row that the protocol byte decodes to (R88, R195,
R197). It completes, leaves the cache alone (R26, R272), and changes no byte outside the `14 + totlen` of a reply. A row run by
itself is the model's choice (log 9). -/
def Obligations.EthIpv4RunsTheIpv4Row : Prop :=
  ∀ (s : State) (i : Instr) (rest : Bytes), 14 ≤ s.rxLen.toNat → ipVersion (byteAt (rxPayload s) 0) = 4#4 →
    5 ≤ (ipIhl (byteAt (rxPayload s) 0)).toNat → byteAt (rxPayload s) 8 ≠ 0#8 →
    rxHeaderLen s ≤ (rxPayload s).length → checksum (rxPayload s) (rxHeaderLen s) = 0#16 →
    rxHeaderLen s ≤ rxTotalLen s → rxTotalLen s ≤ (rxPayload s).length →
    decode .ipv4 ((rxPayload s).drop 9) = .ok (i, rest) →
    exec .ethIpv4 s = exec i s
      ∧ ∃ t, exec .ethIpv4 s = .next t ∧ KeepsCache s t ∧ KeepsHostSide s t ∧ t.engine = .idle
          ∧ ∀ a, a < txBase ∨ txBase + (14 + rxTotalLen s) ≤ a → memGet t.mem a = memGet s.mem a

/-- IPV4_ICMP and IPV4_TCP, on a message that passes its responder's length and checksum checks, run the row that the type or
flags byte decodes to (R88, R222, R242). They complete, leave the cache alone, and change no byte outside the `14 + totlen` of a
reply. A row run by itself is the model's choice (log 9). -/
def Obligations.Ipv4RowsRunTheResponderRow : Prop :=
  (∀ (s : State) (d : Datagram) (i : Instr) (rest : Bytes), datagramOperand s = .ok d → 4 ≤ d.payload.length →
      checksum d.payload d.payload.length = 0#16 → decode .icmp d.payload = .ok (i, rest) →
      exec .ipv4Icmp s = exec i s
        ∧ ∃ t, exec .ipv4Icmp s = .next t ∧ KeepsCache s t ∧ KeepsHostSide s t ∧ t.engine = .idle
            ∧ ∀ a, a < txBase ∨ txBase + (14 + d.ip.totlen.toNat) ≤ a → memGet t.mem a = memGet s.mem a)
    ∧ ∀ (s : State) (d : Datagram) (i : Instr) (rest : Bytes), datagramOperand s = .ok d → 20 ≤ d.payload.length →
        tcpChecksum d.ip.saddr d.ip.daddr d.ip.proto d.payload = 0#16 →
        decode .tcp (d.payload.drop 13) = .ok (i, rest) →
        exec .ipv4Tcp s = exec i s
          ∧ ∃ t, exec .ipv4Tcp s = .next t ∧ KeepsCache s t ∧ KeepsHostSide s t ∧ t.engine = .idle
              ∧ ∀ a, a < txBase ∨ txBase + (14 + d.ip.totlen.toNat) ≤ a → memGet t.mem a = memGet s.mem a

/-! ## The codec and the checksum -/

/-- R120: a field read inside its window is the big-endian number of its bytes (a 48-bit MAC that of its six bytes), and a read
outside it raises Truncated. -/
def Obligations.FieldReadsAreBigEndianAndBounded : Prop :=
  (∀ (B : Bytes) (off : Nat),
      readU8 B off = if off + 1 ≤ B.length then .ok (byteAt B off) else .error (.truncated .u8 off B.length))
    ∧ (∀ (B : Bytes) (off : Nat), if off + 2 ≤ B.length then
        ∃ v, readU16 B off = .ok v ∧ v.toNat = (byteAt B off).toNat * 2 ^ 8 + (byteAt B (off + 1)).toNat
        else readU16 B off = .error (.truncated .u16 off B.length))
    ∧ (∀ (B : Bytes) (off : Nat), if off + 4 ≤ B.length then
        ∃ v, readU32 B off = .ok v ∧ v.toNat = (byteAt B off).toNat * 2 ^ 24 + (byteAt B (off + 1)).toNat * 2 ^ 16
          + (byteAt B (off + 2)).toNat * 2 ^ 8 + (byteAt B (off + 3)).toNat
        else readU32 B off = .error (.truncated .u32 off B.length))
    ∧ (∀ (B : Bytes) (off n : Nat),
        readBytes B off n = if off + n ≤ B.length then .ok ((B.drop off).take n)
          else .error (.truncated (.bytes n) off B.length))
    ∧ ∀ (B : Bytes) (off : Nat), off + 6 ≤ B.length →
        ∃ v, readMac B off = .ok v
          ∧ v.toNat = (byteAt B off).toNat * 2 ^ 40 + (byteAt B (off + 1)).toNat * 2 ^ 32
              + (byteAt B (off + 2)).toNat * 2 ^ 24 + (byteAt B (off + 3)).toNat * 2 ^ 16
              + (byteAt B (off + 4)).toNat * 2 ^ 8 + (byteAt B (off + 5)).toNat

/-- A field write inside the string keeps its length, reads back as written, and leaves every other byte alone (R122, R123). -/
def Obligations.FieldWritesReadBackAndTouchNothingElse : Prop :=
  (∀ (B : Bytes) (off : Nat) (v : Half), off + 2 ≤ B.length →
      (writeU16 B off v).length = B.length ∧ readU16 (writeU16 B off v) off = .ok v
        ∧ ∀ i, i < off ∨ off + 2 ≤ i → byteAt (writeU16 B off v) i = byteAt B i)
    ∧ ∀ (B : Bytes) (off : Nat) (v : Word), off + 4 ≤ B.length →
        (writeU32 B off v).length = B.length ∧ readU32 (writeU32 B off v) off = .ok v
          ∧ ∀ i, i < off ∨ off + 4 ≤ i → byteAt (writeU32 B off v) i = byteAt B i

/-- R124: `sum16` is the sum of the words, and `fold` is the end of the loop that the spec writes; a folded sum is 0 exactly
for 0, at most 0xFFFF, and congruent to the sum. -/
def Obligations.SumAndFoldAsTheSpecWritesThem : Prop :=
  (∀ B : Bytes, sum16 B = (wordsOf B).sum)
    ∧ (∀ s : Nat, fold s = if 2 ^ 16 ≤ s then fold ((s &&& 0xFFFF) + (s >>> 16)) else s)
    ∧ (∀ s : Nat, 2 ^ 16 ≤ s → (s &&& 0xFFFF) + (s >>> 16) < s)
    ∧ ∀ s : Nat, (fold s = 0 ↔ s = 0) ∧ fold s ≤ 0xFFFF ∧ fold s % 0xFFFF = s % 0xFFFF

/-- A 16-bit accumulator with end-around carry after each word gives the same value as summing first and folding last (R129,
form (b) against form (a)), and so the checksum of R125. -/
def Obligations.EndAroundCarryAccumulatorAgrees : Prop :=
  ∀ B : Bytes, (wordsOf B).foldl (fun acc w => fold (acc + w)) 0 = fold (sum16 B)
    ∧ (checksum B B.length).toNat = 0xFFFF - (wordsOf B).foldl (fun acc w => fold (acc + w)) 0

/-- R130 law 1: construction makes a region valid, for every region and every even field offset inside it; the IPv4 header, ICMP
and TCP fields are at even offsets. -/
def Obligations.ConstructedChecksumValidates : Prop :=
  (∀ (R : Bytes) (c : Nat), c % 2 = 0 → c + 2 ≤ R.length →
      (constructChecksum R c).length = R.length ∧ checksum (constructChecksum R c) R.length = 0#16)
    ∧ ∀ (a b : Word) (p : Byte) (T : Bytes), 18 ≤ T.length → tcpChecksum a b p (constructTcpChecksum a b p T) = 0#16

/-- R130 law 2: flipping any one bit of a valid region is detected. -/
def Obligations.SingleBitFlipIsDetected : Prop :=
  ∀ (R : Bytes) (i j : Nat), i < R.length → j < 8 → checksum R R.length = 0#16 →
    checksum (R.set i (byteAt R i ^^^ BitVec.twoPow 8 j)) R.length ≠ 0#16

/-- R130 laws 3 and 4: permuting the words at even offsets leaves the sum and the checksum alone; a constructed field is zero
only where the rest folds to 0xFFFF; and wherever a field of 0x0000 validates, one of 0xFFFF does too. -/
def Obligations.ChecksumIgnoresWordOrderAndHasTwoZeros : Prop :=
  (∀ (ws ws' : List Half) (tail : Bytes), ws.Perm ws' →
      sum16 (ws.flatMap u16 ++ tail) = sum16 (ws'.flatMap u16 ++ tail)
        ∧ checksum (ws.flatMap u16 ++ tail) (2 * ws.length + tail.length)
            = checksum (ws'.flatMap u16 ++ tail) (2 * ws.length + tail.length))
    ∧ ∀ (R : Bytes) (c : Nat), c % 2 = 0 → c + 2 ≤ R.length →
        (readU16 (constructChecksum R c) c = .ok 0#16 → fold (sum16 (writeU16 R c 0#16)) = 0xFFFF)
          ∧ (checksum (writeU16 R c 0#16) R.length = 0#16 → checksum (writeU16 R c 0xFFFF#16) R.length = 0#16)

/-- R145: decoding an encoded Ethernet frame gives back its four fields, and its length is 14 more than the payload's. -/
def Obligations.EthernetRoundTrip : Prop :=
  ∀ (dst src : Mac) (ethertype : Half) (payload : Bytes),
    decodeEth (ethEncode dst src ethertype payload) = .ok ⟨dst, src, ethertype, payload⟩
      ∧ (ethEncode dst src ethertype payload).length = 14 + payload.length

/-- R201: decoding an encoded IPv4 header gives back its fields, for every header whose options fill its `IHL`, with any bytes
after it. -/
def Obligations.Ipv4HeaderRoundTrip : Prop :=
  ∀ (h : Ipv4View) (rest : Bytes), 5 ≤ h.ihl.toNat → h.options.length = 4 * h.ihl.toNat - 20 →
    decodeIpv4 (ipv4Encode h ++ rest) = .ok h ∧ (ipv4Encode h).length = 4 * h.ihl.toNat

/-- Decoding an encoded ARP message, ICMP message or TCP segment gives back its fields (R72, R79, R83 to R85, by the decoders
of R162, R222 and R242). -/
def Obligations.MessageRoundTrips : Prop :=
  (∀ (a : ArpView) (rest : Bytes), decodeArp (arpEncode a ++ rest) = .ok a ∧ (arpEncode a).length = 28)
    ∧ (∀ m : IcmpView, decodeIcmp (icmpEncode m) = .ok m) ∧ ∀ t : TcpView, decodeTcp (tcpEncode t) = .ok t

/-! ## Ethernet and ARP -/

/-- What the reply statements' words mean. The state they name (`afterReply`): the frame is what `TXBUF` and `TX_LEN` hold (R101,
R148), and every byte of memory outside it is as it was. Which transmissions the channel accepts (`accepts`): those it answers
`ok`, none that it answers `fail`, none of which it reports fewer bytes than the frame has (R149), and none while no channel is
connected (R334). A `tx` line sets the answer for the next transmission, which is `ok` by default (R105, R274). That a count of
at least the frame's length is a success, that one transmission uses the answer up, and that the answer is a field of the
state, `ok` at reset, is log 8. -/
def Obligations.ReplyStoresOnlyItsFrame : Prop :=
  (∀ (s : State) (out : Bytes) (st : Half) (ok : Bool), out.length ≤ 0xFFFF →
    txFrame (afterReply out st ok s) = out
      ∧ ∀ a, a < txBase ∨ txBase + out.length ≤ a → memGet (afterReply out st ok s).mem a = memGet s.mem a)
    ∧ (∀ len : Nat, ChannelReport.ok.accepts len = true ∧ ChannelReport.fail.accepts len = false
        ∧ ChannelReport.unconnected.accepts len = false
        ∧ (∀ written, written < len → (ChannelReport.wrote written).accepts len = false)
        ∧ ∀ written, len ≤ written → (ChannelReport.wrote written).accepts len = true)
    ∧ (∀ (s : State) (report : ChannelReport) (rest : List HostAction), s.host = .tx report :: rest →
        step s = .next { s with host := rest, channel := report })
    ∧ State.reset.channel = .ok ∧ ∀ (s : State) (out : Bytes) (st : Half) (ok : Bool), (afterReply out st ok s).channel = .ok

/-- R140: a frame of fewer than 14 bytes is dropped with ETH_TRUNCATED, and nothing but `TX_LEN` and `STATUS` is written. -/
def Obligations.ShortFrameIsDropped : Prop :=
  ∀ s : State, s.halted = false → s.rxLen.toNat ≤ s.cfg.maxFrame → s.rxLen.toNat < 14 →
    exec .processFrame s = .next (statusOnly 0x1310#16 { s with txLen := 0#16 })

/-- The rows that end a frame quietly write `STATUS` and nothing else, whatever their operand: R143 (ETH_OTHER, dropped), R175
(ARP_REPLY), R176 (ARP_OTHER) and R225 (ICMP_OTHER, consumed), and IPV4_OTHER, dropped. A row run by itself is the model's
choice (log 9). -/
def Obligations.QuietRowsWriteOnlyStatus : Prop :=
  ∀ s : State, s.halted = false →
    (∀ t, exec (.ethOther t) s = .next (statusOnly 0x2311#16 s)) ∧ exec .arpReply s = .next (statusOnly 0x0204#16 s)
      ∧ (∀ op, exec (.arpOther op) s = .next (statusOnly 0x0205#16 s))
      ∧ (∀ p, exec (.ipv4Other p) s = .next (statusOnly 0x2337#16 s))
      ∧ ∀ t, exec (.icmpOther t) s = .next (statusOnly 0x0207#16 s)

/-- The ARP checks in the order of R304: R160 and R161, and then a failed learn, which is a conflict (R166) or a full cache
(R167); each drop writes only `STATUS`. A row run by itself is the model's choice (log 9). -/
def Obligations.ArpChecksInOrder : Prop :=
  ∀ s : State, s.halted = false → 14 ≤ s.rxLen.toNat →
    ((rxPayload s).length < 28 → exec .ethArp s = .next (statusOnly 0x1320#16 s))
      ∧ (28 ≤ (rxPayload s).length → be16 (byteAt (rxPayload s) 0) (byteAt (rxPayload s) 1) ≠ 1#16 →
          exec .ethArp s = .next (statusOnly 0x2321#16 s))
      ∧ (28 ≤ (rxPayload s).length → be16 (byteAt (rxPayload s) 0) (byteAt (rxPayload s) 1) = 1#16 →
          be16 (byteAt (rxPayload s) 2) (byteAt (rxPayload s) 3) ≠ 0x0800#16 →
          exec .ethArp s = .next (statusOnly 0x2322#16 s))
      ∧ ∀ eth arp r, arpOperand s = .ok (eth, arp) → arp.hwtype = 1#16 → arp.protype = 0x0800#16 →
          learn arp s = .error r →
          (r = .arpCacheConflict ∧ exec .ethArp s = .next (statusOnly 0x4323#16 s))
            ∨ (r = .arpCacheFull ∧ exec .ethArp s = .next (statusOnly 0x4324#16 s))

/-- R165: on a cache with unique keys, the lookup answers the one index whose entry is not Free and holds the key, and nothing
when there is none; a Waiting entry answers like a Resolved one. -/
def Obligations.LookupFindsTheUniqueEntry : Prop :=
  ∀ (cache : List Entry) (ip : Word), UniqueKeys cache →
    (∀ i, lookup cache ip = some i ↔ ∃ e, cache[i]? = some e ∧ e.state ≠ .free ∧ e.ip = ip)
      ∧ (lookup cache ip = none ↔ ∀ e ∈ cache, e.state ≠ .free → e.ip ≠ ip)

/-- R166, R167, R169: the learn merges the MAC and nothing else into an entry of the same hardware type, rejects another hardware
type, and else inserts a Resolved entry: appended under `INF`, in the lowest Free slot of a finite cache, or not at all when it is
full; `CACHE_COUNT` goes up by one, saturating. -/
def Obligations.LearnMergesInsertsOrRejects : Prop :=
  ∀ (s : State) (arp : ArpView),
    (∀ i e, lookup s.cache arp.sip = some i → s.cache[i]? = some e →
        (e.hwtype = arp.hwtype →
            learn arp s = .ok { s with cache := s.cache.set i ⟨e.state, e.ip, e.hwtype, arp.smac⟩ })
          ∧ (e.hwtype ≠ arp.hwtype → learn arp s = .error .arpCacheConflict))
      ∧ (lookup s.cache arp.sip = none →
          ∃ n : Word, n.toNat = min (s.cacheCount.toNat + 1) (2 ^ 32 - 1)
            ∧ (s.cfg.arpCapacity = none →
                learn arp s = .ok { s with cache := s.cache ++ [⟨.resolved, arp.sip, arp.hwtype, arp.smac⟩],
                                           cacheCount := n })
            ∧ (∀ c j, s.cfg.arpCapacity = some c → (∃ e, s.cache[j]? = some e ∧ e.state = .free) →
                (∀ k e, k < j → s.cache[k]? = some e → e.state ≠ .free) →
                learn arp s = .ok { s with cache := s.cache.set j ⟨.resolved, arp.sip, arp.hwtype, arp.smac⟩,
                                           cacheCount := n })
            ∧ (∀ c, s.cfg.arpCapacity = some c → (∀ e ∈ s.cache, e.state ≠ .free) →
                learn arp s = .error .arpCacheFull))

/-- After a learn, a lookup of the sender finds its hardware type and MAC, and a lookup of any other key finds what it found
before (R165, R166, R167). -/
def Obligations.LearnedSenderIsFoundAndOthersStay : Prop :=
  ∀ (s l : State) (arp : ArpView), learn arp s = .ok l →
    (∃ i e, lookup l.cache arp.sip = some i ∧ l.cache[i]? = some e ∧ e.hwtype = arp.hwtype ∧ e.mac = arp.smac)
      ∧ ∀ ip, ip ≠ arp.sip →
          (lookup l.cache ip).map (fun i => l.cache[i]?) = (lookup s.cache ip).map (fun i => s.cache[i]?)

/-- R168: where the invariant holds, no PROCESS_FRAME reports ARP_CACHE_CONFLICT. -/
def Obligations.ConflictIsNeverReported : Prop :=
  ∀ s t : State, Inv s → exec .processFrame s = .next t → statusReason t.status ≠ 0x23#8

/-- R170, R171, R173: ARP_REQUEST hands over one frame of 42 bytes: to the sender, from `DEV_MAC`, with the received ethertype
and the request's four leading fields, opcode 2, the device as sender and the received sender as target. The channel accepts it,
or the block halts (R149). R174: under `P_ARP_OWN_IP_ONLY` a Request for another address is consumed. A row run by itself is the
model's choice (log 9). The channel's answer, used up and `ok` afterwards, is log 8, and the record of frames sent log 10. -/
def Obligations.ArpRequestIsAnswered : Prop :=
  ∀ s : State, s.halted = false → 42 ≤ s.rxLen.toNat →
    let F := rxFrame s
    let out := (F.drop 6).take 6 ++ u48 s.cfg.devMac ++ (F.drop 12).take 2 ++ (F.drop 14).take 6 ++ [0x00, 0x02]
      ++ u48 s.cfg.devMac ++ u32 s.cfg.devIp ++ (F.drop 22).take 6 ++ (F.drop 28).take 4
    let forUs := (F.drop 38).take 4 = u32 s.cfg.devIp
    (s.cfg.arpOwnIpOnly = false ∨ forUs →
        out.length = 42
          ∧ (s.channel.accepts 42 = true → exec .arpRequest s = .next (afterReply out 0x0101#16 true s))
          ∧ (s.channel.accepts 42 = false → exec .arpRequest s = .next (afterReply out 0xD460#16 false s)))
      ∧ (s.cfg.arpOwnIpOnly = true → ¬ forUs → exec .arpRequest s = .next (statusOnly 0x0206#16 s))

/-! ## IPv4 -/

/-- R190 to R194: the IPv4 checks, in their order; each drop writes only `STATUS`. A row run by itself is the model's choice
(log 9). -/
def Obligations.Ipv4ChecksInOrder : Prop :=
  ∀ s : State, s.halted = false → 14 ≤ s.rxLen.toNat →
    let P := rxPayload s
    (P.length < 20 → exec .ethIpv4 s = .next (statusOnly 0x1330#16 s))
      ∧ (20 ≤ P.length →
          (ipVersion (byteAt P 0) ≠ 4#4 → exec .ethIpv4 s = .next (statusOnly 0x2331#16 s))
            ∧ (ipVersion (byteAt P 0) = 4#4 →
                ((ipIhl (byteAt P 0)).toNat < 5 → exec .ethIpv4 s = .next (statusOnly 0x2332#16 s))
                  ∧ (5 ≤ (ipIhl (byteAt P 0)).toNat →
                      (byteAt P 8 = 0#8 → exec .ethIpv4 s = .next (statusOnly 0x2333#16 s))
                        ∧ (byteAt P 8 ≠ 0#8 →
                            (P.length < rxHeaderLen s → exec .ethIpv4 s = .next (statusOnly 0x1334#16 s))
                              ∧ (rxHeaderLen s ≤ P.length →
                                  (checksum P (rxHeaderLen s) ≠ 0#16 →
                                      exec .ethIpv4 s = .next (statusOnly 0x3335#16 s))
                                    ∧ (checksum P (rxHeaderLen s) = 0#16 →
                                        rxTotalLen s < rxHeaderLen s ∨ P.length < rxTotalLen s →
                                        exec .ethIpv4 s = .next (statusOnly 0x1336#16 s)))))))

/-- R199: the turnaround's header keeps its length and every byte but the checksum and the addresses, which trade places; its
checksum is the constructed one and validates. -/
def Obligations.TurnaroundHeaderSwapsAddresses : Prop :=
  ∀ (s : State) (d : Datagram), datagramOperand s = .ok d →
    (turnaroundHeader d).length = d.header.length ∧ readU32 (turnaroundHeader d) 12 = .ok d.ip.daddr
      ∧ readU32 (turnaroundHeader d) 16 = .ok d.ip.saddr
      ∧ (∀ i, i < 10 ∨ 20 ≤ i → byteAt (turnaroundHeader d) i = byteAt d.header i)
      ∧ checksum (turnaroundHeader d) d.header.length = 0#16
      ∧ readU16 (turnaroundHeader d) 10 = .ok (checksum (writeU16 (turnaroundHeader d) 10 0#16) d.header.length)

/-- R200: the recomputed header checksum is the received one, except that 0xFFFF becomes 0x0000. -/
def Obligations.RecomputedHeaderChecksumIsTheReceivedOne : Prop :=
  ∀ (s : State) (d : Datagram), datagramOperand s = .ok d → checksum d.header d.header.length = 0#16 →
    readU16 (turnaroundHeader d) 10 = .ok (if d.ip.hcsum = 0xFFFF#16 then 0x0000#16 else d.ip.hcsum)

/-! ## ICMP -/

/-- R220, R221: the ICMP checks, in their order, and the echo length check of R223; each drop writes only `STATUS`. A row run by
itself is the model's choice (log 9). -/
def Obligations.IcmpChecksInOrder : Prop :=
  ∀ (s : State) (d : Datagram), s.halted = false → datagramOperand s = .ok d →
    (d.payload.length < 4 → exec .ipv4Icmp s = .next (statusOnly 0x1340#16 s))
      ∧ (4 ≤ d.payload.length → checksum d.payload d.payload.length ≠ 0#16 →
          exec .ipv4Icmp s = .next (statusOnly 0x3341#16 s))
      ∧ (d.payload.length < 8 → exec .icmpEchoRequest s = .next (statusOnly 0x1342#16 s))

/-- ICMP_ECHO_REQUEST on a message with identifier and sequence hands over one frame, as long as the received datagram: to the
sender, from `DEV_MAC`, with the received ethertype, the turnaround's header and the echo reply (R146, R199, R223). The channel
accepts it, or the block halts (R149). A row run by itself is the model's choice (log 9). The channel's answer, used up and `ok`
afterwards, is log 8, and the record of frames sent log 10. -/
def Obligations.IcmpEchoRequestIsAnswered : Prop :=
  ∀ (s : State) (d : Datagram), s.halted = false → datagramOperand s = .ok d → 8 ≤ d.payload.length →
    let F := rxFrame s
    let out := (F.drop 6).take 6 ++ u48 s.cfg.devMac ++ (F.drop 12).take 2 ++ turnaroundHeader d ++ echoReply d.payload
    out.length = 14 + d.ip.totlen.toNat
      ∧ (s.channel.accepts out.length = true → exec .icmpEchoRequest s = .next (afterReply out 0x0102#16 true s))
      ∧ (s.channel.accepts out.length = false → exec .icmpEchoRequest s = .next (afterReply out 0xD460#16 false s))

/-- R224: the echo reply to a valid Echo Request differs in byte 0, now 0, and in the checksum only; its checksum validates; and
the new checksum is the folded sum of the old one and 0x0800, with 0xFFFF becoming 0x0000 unless every other byte of the reply
is 0. -/
def Obligations.EchoReplyDiffersInTypeAndChecksumOnly : Prop :=
  ∀ M : Bytes, 8 ≤ M.length → checksum M M.length = 0#16 → byteAt M 0 = 8#8 →
    (echoReply M).length = M.length ∧ byteAt (echoReply M) 0 = 0#8
      ∧ (∀ i, i = 1 ∨ 4 ≤ i → byteAt (echoReply M) i = byteAt M i)
      ∧ checksum (echoReply M) M.length = 0#16
      ∧ ∀ c c' : Half, readU16 M 2 = .ok c → readU16 (echoReply M) 2 = .ok c' →
          c'.toNat % 0xFFFF = (c.toNat + 0x0800) % 0xFFFF
            ∧ (fold (c.toNat + 0x0800) ≠ 0xFFFF → c'.toNat = fold (c.toNat + 0x0800))
            ∧ (fold (c.toNat + 0x0800) = 0xFFFF →
                ((∀ i, i = 1 ∨ 4 ≤ i → byteAt M i = 0#8) → c' = 0xFFFF#16)
                  ∧ ((∃ i, (i = 1 ∨ 4 ≤ i) ∧ byteAt M i ≠ 0#8) → c' = 0x0000#16))

/-! ## TCP -/

/-- R240, R241: the TCP checks, in their order; each drop writes only `STATUS`. A row run by itself is the model's choice
(log 9). -/
def Obligations.TcpChecksInOrder : Prop :=
  ∀ (s : State) (d : Datagram), s.halted = false → datagramOperand s = .ok d →
    (d.payload.length < 20 → exec .ipv4Tcp s = .next (statusOnly 0x1350#16 s))
      ∧ (20 ≤ d.payload.length → tcpChecksum d.ip.saddr d.ip.daddr d.ip.proto d.payload ≠ 0#16 →
          exec .ipv4Tcp s = .next (statusOnly 0x3351#16 s))

/-- R243: TCP_SYN hands over one frame, as long as the received datagram, whose segment has the ports swapped, the sequence
number `P_TCP_ISN`, the received sequence number plus 1 modulo 2^32 acknowledged, ACK set beside the flags of the row (the
received flags, where the frame selected the row), the checksum constructed over the swapped addresses, which validates, and
every other byte as received. The channel accepts it, or the block halts (R149). That the row sets ACK beside the flags it
carries, also where the frame holds others, is the model's choice (log 9). The channel's answer, used up and `ok` afterwards, is
log 8, and the record of frames sent log 10. -/
def Obligations.TcpSynIsAnswered : Prop :=
  ∀ (s : State) (f : Byte) (d : Datagram) (tcp : TcpView), s.halted = false → tcpOperand s = .ok (d, tcp) →
    ∃ Q : Bytes, Q.length = d.payload.length ∧ readU16 Q 0 = .ok tcp.dport ∧ readU16 Q 2 = .ok tcp.sport
      ∧ readU32 Q 4 = .ok s.cfg.tcpIsn ∧ readU32 Q 8 = .ok (BitVec.ofNat 32 ((tcp.seq.toNat + 1) % 2 ^ 32))
      ∧ readU8 Q 13 = .ok (f ||| 0x10#8)
      ∧ (∀ i, i = 12 ∨ i = 14 ∨ i = 15 ∨ 18 ≤ i → byteAt Q i = byteAt d.payload i)
      ∧ tcpChecksum d.ip.daddr d.ip.saddr d.ip.proto Q = 0#16
      ∧ readU16 Q 16 = .ok (tcpChecksum d.ip.daddr d.ip.saddr d.ip.proto (writeU16 Q 16 0#16))
      ∧ (let F := rxFrame s
         let out := (F.drop 6).take 6 ++ u48 s.cfg.devMac ++ (F.drop 12).take 2 ++ turnaroundHeader d ++ Q
         out.length = 14 + d.ip.totlen.toNat
           ∧ (s.channel.accepts out.length = true →
               exec (.tcpSyn f) s = .next (afterReply out 0x0103#16 true s))
           ∧ (s.channel.accepts out.length = false →
               exec (.tcpSyn f) s = .next (afterReply out 0xD460#16 false s)))

/-- R245: TCP_NONSYN under `DROP` is dropped; under `ECHO` it hands over one frame, as long as the received datagram, whose
segment has the ports swapped, the checksum constructed over the swapped addresses, which validates, and every other byte as
received (R246). The channel accepts it, or the block halts (R149). A row run by itself is the model's choice (log 9). The
channel's answer, used up and `ok` afterwards, is log 8, and the record of frames sent log 10. -/
def Obligations.TcpNonsynIsEchoedOrDropped : Prop :=
  (∀ (s : State) (f : Byte), s.halted = false → s.cfg.tcpNonSyn = .drop →
      exec (.tcpNonsyn f) s = .next (statusOnly 0x2352#16 s))
    ∧ ∀ (s : State) (f : Byte) (d : Datagram) (tcp : TcpView), s.halted = false → s.cfg.tcpNonSyn = .echo →
        tcpOperand s = .ok (d, tcp) →
        ∃ Q : Bytes, Q.length = d.payload.length ∧ readU16 Q 0 = .ok tcp.dport ∧ readU16 Q 2 = .ok tcp.sport
          ∧ (∀ i, (4 ≤ i ∧ i < 16) ∨ 18 ≤ i → byteAt Q i = byteAt d.payload i)
          ∧ tcpChecksum d.ip.daddr d.ip.saddr d.ip.proto Q = 0#16
          ∧ readU16 Q 16 = .ok (tcpChecksum d.ip.daddr d.ip.saddr d.ip.proto (writeU16 Q 16 0#16))
          ∧ (let F := rxFrame s
             let out := (F.drop 6).take 6 ++ u48 s.cfg.devMac ++ (F.drop 12).take 2 ++ turnaroundHeader d ++ Q
             out.length = 14 + d.ip.totlen.toNat
               ∧ (s.channel.accepts out.length = true →
                   exec (.tcpNonsyn f) s = .next (afterReply out 0x0103#16 true s))
               ∧ (s.channel.accepts out.length = false →
                   exec (.tcpNonsyn f) s = .next (afterReply out 0xD460#16 false s)))

/-- Swapping the two addresses of the pseudo-header does not change the TCP checksum (R244); so the echoed segment's checksum is
the received one, except that 0xFFFF may become 0x0000 (R245, corner cases). -/
def Obligations.TcpChecksumIgnoresAddressOrder : Prop :=
  (∀ (a b : Word) (p : Byte) (T : Bytes), tcpChecksum a b p T = tcpChecksum b a p T)
    ∧ ∀ (s : State) (d : Datagram) (tcp : TcpView), tcpOperand s = .ok (d, tcp) →
        tcpChecksum d.ip.saddr d.ip.daddr d.ip.proto d.payload = 0#16 →
        readU16 (echoSegment d tcp) 16 = .ok tcp.csum
          ∨ (tcp.csum = 0xFFFF#16 ∧ readU16 (echoSegment d tcp) 16 = .ok 0x0000#16)

/-- R247: what a TCP row transmits, and the `STATUS` it ends with, depend on the frame, the configuration and the channel's
answer alone: not on the cache, not on any register, not on any earlier frame. A row run by itself is the model's choice
(log 9). The record of frames sent is log 10. -/
def Obligations.TcpRepliesKeepNoConnectionState : Prop :=
  ∀ (s1 s2 t1 t2 : State) (f : Byte) (i : Instr), i = .tcpSyn f ∨ i = .tcpNonsyn f → s1.cfg = s2.cfg →
    rxFrame s1 = rxFrame s2 → s1.channel = s2.channel → s1.halted = s2.halted → exec i s1 = .next t1 →
    exec i s2 = .next t2 →
    t1.status = t2.status ∧ ∃ new : List Sent, t1.sent = s1.sent ++ new ∧ t2.sent = s2.sent ++ new

/-! ## Commands -/

/-- R276 to R278: a halted block rejects PROCESS_FRAME whatever `RX_LEN`, and a running one rejects a frame longer than
`P_MAX_FRAME`; nothing but `STATUS` is written. -/
def Obligations.ProcessFrameRejections : Prop :=
  (∀ s : State, s.halted = true → exec .processFrame s = .next (statusOnly 0xE571#16 s))
    ∧ ∀ s : State, s.halted = false → s.cfg.maxFrame < s.rxLen.toNat →
        exec .processFrame s = .next (statusOnly 0x6572#16 s)

/-- PROCESS_FRAME on a running block, with a frame that fits, completes with exactly one outcome (R271, R273, R300, R341):
nothing is transmitted (a drop or a consumption, `TX_LEN` 0, no byte written), or one frame is, which `TXBUF` and `TX_LEN` hold
(R101): the channel accepted it, or the block is halted with `STATUS` 0xD460 (R149). Nothing else of the block is written but
the cache (R275), and the cache only by an ARP frame (R26, R272); and no byte outside `TXBUF`. That a transmission uses the
channel's answer up, so that it is `ok` afterwards, is log 8 (DEDUCED), and the record of frames sent is log 10. -/
def Obligations.ProcessFrameReachesOneOutcome : Prop :=
  ∀ s : State, s.halted = false → s.rxLen.toNat ≤ s.cfg.maxFrame →
    ∃ t, exec .processFrame s = .next t ∧ KeepsHostSide s t ∧ t.engine = .idle
      ∧ (∀ a, a < txBase ∨ txBase + s.cfg.maxFrame ≤ a → memGet t.mem a = memGet s.mem a)
      ∧ (be16 (byteAt (rxFrame s) 12) (byteAt (rxFrame s) 13) ≠ 0x0806#16 → KeepsCache s t)
      ∧ ((∃ r, (reasonKind r = .dropped ∨ reasonKind r = .consumed) ∧ t.status = statusWord false r ∧ t.halted = false
            ∧ t.txLen = 0#16 ∧ t.mem = s.mem ∧ t.sent = s.sent ∧ t.channel = s.channel)
        ∨ (∃ r, reasonKind r = .replied ∧ t.status = statusWord false r ∧ t.halted = false ∧ t.channel = .ok
            ∧ 14 ≤ t.txLen.toNat ∧ t.txLen.toNat ≤ s.rxLen.toNat
            ∧ s.channel.accepts t.txLen.toNat = true ∧ t.sent = s.sent ++ [⟨txFrame t, true⟩])
        ∨ (t.status = 0xD460#16 ∧ t.halted = true ∧ t.channel = .ok ∧ 14 ≤ t.txLen.toNat
            ∧ t.txLen.toNat ≤ s.rxLen.toNat ∧ s.channel.accepts t.txLen.toNat = false
            ∧ t.sent = s.sent ++ [⟨txFrame t, false⟩]))

/-- R303: a DROPPED frame transmits nothing, leaves `TX_LEN` 0, and leaves the cache and `CACHE_COUNT` as they were. -/
def Obligations.DroppedFrameLeavesTheCache : Prop :=
  ∀ s t : State, exec .processFrame s = .next t → statusKind t.status = 3#3 →
    t.txLen = 0#16 ∧ t.sent = s.sent ∧ KeepsCache s t

/-- CACHE_LOOKUP (R280): a hit shows the entry, a miss zeros; `STATUS` says LOOKUP_DONE, with `HALTED` as it stands; nothing else
is written. -/
def Obligations.CacheLookupShowsTheEntry : Prop :=
  (∀ (s : State) (i : Nat) (e : Entry), lookup s.cache s.argIp = some i → s.cache[i]? = some e →
      ∃ info hi lo, exec .cacheLookup s
          = .next (statusOnly (if s.halted then 0x8608#16 else 0x0608#16)
              { s with lkInfo := info, lkMacHi := hi, lkMacLo := lo })
        ∧ info.toNat = e.hwtype.toNat * 2 ^ 16 + (entryStateCode e.state).toNat * 2 + 1
        ∧ hi.toNat * 2 ^ 32 + lo.toNat = e.mac.toNat)
    ∧ ∀ s : State, lookup s.cache s.argIp = none →
        exec .cacheLookup s
          = .next (statusOnly (if s.halted then 0x8608#16 else 0x0608#16)
              { s with lkInfo := 0#32, lkMacHi := 0#16, lkMacLo := 0#32 })

/-- R282: CHECKSUM leaves the checksum of the `RX_LEN` bytes in `RXBUF` in `CSUM_RESULT`, or rejects a length over
`P_MAX_FRAME`; nothing else but `STATUS` is written, halted or not. -/
def Obligations.ChecksumCommandSumsTheBuffer : Prop :=
  ∀ s : State,
    (s.rxLen.toNat ≤ s.cfg.maxFrame →
        exec .checksum s
          = .next (statusOnly (if s.halted then 0x8609#16 else 0x0609#16)
              { s with csumResult := checksum (rxFrame s) s.rxLen.toNat }))
      ∧ (s.cfg.maxFrame < s.rxLen.toNat →
          exec .checksum s = .next (statusOnly (if s.halted then 0xE572#16 else 0x6572#16) s))

/-- R283: RESTART clears `HALTED` and writes `STATUS`; everything else stays. -/
def Obligations.RestartClearsOnlyHalted : Prop :=
  ∀ s : State, exec .restart s = .next (statusOnly 0x060A#16 { s with halted := false })

/-- R284: any other command value writes `STATUS` and nothing else, halted or not. -/
def Obligations.IllegalCommandWritesOnlyStatus : Prop :=
  ∀ (s : State) (v : Word), exec (.cmdIllegal v) s = .next (statusOnly (if s.halted then 0xE570#16 else 0x6570#16) s)

/-- CACHE_LOOKUP, CHECKSUM and RESTART are idempotent (R60). -/
def Obligations.LookupChecksumRestartAreIdempotent : Prop :=
  ∀ (i : Instr) (s t : State), i = .cacheLookup ∨ i = .checksum ∨ i = .restart → exec i s = .next t → exec i t = .next t

/-! ## The whole machine -/

/-- No instruction writes the configuration (R20), the host's registers `RX_LEN` and `ARG_IP` (R31, R33), the host's queue and
the values of its reads, or any byte but the first `RX_LEN` bytes of `TXBUF`: so not `RXBUF` (R36), and no byte outside `TXBUF`
where `RX_LEN` is at most `P_MAX_FRAME`. Only CACHE_LOOKUP writes the lookup registers (R34), and only CHECKSUM writes
`CSUM_RESULT` (R35). Each row and command is taken by itself (log 9). -/
def Obligations.NoInstructionWritesWhatTheHostWrites : Prop :=
  ∀ (i : Instr) (s t : State), exec i s = .next t →
    t.cfg = s.cfg ∧ t.rxLen = s.rxLen ∧ t.argIp = s.argIp ∧ t.host = s.host ∧ t.rdata = s.rdata ∧ t.epoch = s.epoch
      ∧ t.draws = s.draws
      ∧ (∀ a, a < txBase ∨ txBase + s.rxLen.toNat ≤ a → memGet t.mem a = memGet s.mem a)
      ∧ (s.rxLen.toNat ≤ s.cfg.maxFrame →
          ∀ a, a < txBase ∨ txBase + s.cfg.maxFrame ≤ a → memGet t.mem a = memGet s.mem a)
      ∧ (i ≠ .cacheLookup → t.lkInfo = s.lkInfo ∧ t.lkMacHi = s.lkMacHi ∧ t.lkMacLo = s.lkMacLo)
      ∧ (i ≠ .checksum → t.csumResult = s.csumResult)

/-- No step but the reset event removes an entry: an entry that is not Free keeps its place, its state, its key and its hardware
type (R25, R177). -/
def Obligations.EntriesAreNeverEvicted : Prop :=
  ∀ (s t : State) (j : Nat) (e : Entry), step s = .next t → s.host.head? ≠ some .reset → s.cache[j]? = some e →
    e.state ≠ .free →
    ∃ e', t.cache[j]? = some e' ∧ e'.state = e.state ∧ e'.ip = e.ip ∧ e'.hwtype = e.hwtype

/-- R29: `HALTED` is set only by a transmission that the channel refuses, and cleared only by RESTART or by reset. -/
def Obligations.HaltedIsSetByFailureAndClearedByRestart : Prop :=
  ∀ s t : State, step s = .next t →
    (s.halted = false → t.halted = true → ∃ F, t.sent = s.sent ++ [⟨F, false⟩] ∧ t.status = 0xD460#16)
      ∧ (s.halted = true → t.halted = false →
          s.host.head? = some .reset ∨ s.host.head? = some (.write 0x000 .word 0x00000004#32))

/-- A step hands at most one frame to the channel, and only PROCESS_FRAME does (R67). -/
def Obligations.OnlyProcessFrameTransmits : Prop :=
  ∀ s t : State, step s = .next t →
    t.sent = s.sent
      ∨ (s.host.head? = some (.write 0x000 .word 0x00000001#32) ∧ ∃ x, t.sent = s.sent ++ [x])

/-! ## The host port -/

/-- What the host's reads and its single writes but that of `CMD` do (R59, R104), the writes that act on an idle engine (on a busy
one: WritesWhileBusyAreRefused). Registers: an aligned 32-bit read gives the
register, or 0 where none is mapped; a write of `RX_LEN` stores bits 15:0 of the value, and one of `ARG_IP` the whole value; a write
of any other mapped or unmapped offset has no effect. Buffers, by bytes: a read gives the byte of `RXBUF` below `RX_LEN` and the
byte of `TXBUF` below `TX_LEN`; a byte of `RXBUF` at or beyond `RX_LEN` reads as a free value (U8; log 7), one of `TXBUF` at or
beyond `TX_LEN` is TxBytesBeyondTxLenReadFreely's; a write of any byte of `RXBUF` is stored (log 7), and one of `TXBUF` has no effect
(log 12). Refused: a register access of another width or alignment, a buffer access of another width, and an access of anything
else (D2; log 11). A read changes nothing but what it delivers and, where it is a free value, the count of draws. -/
def Obligations.HostAccessesFollowTheMap : Prop :=
  (∀ (s : State) (off : Nat) (rest : List HostAction), off < 0x10000 → off % 4 = 0 →
      (s.host = .read off .word :: rest →
          step s = .next { s with host := rest, rdata := match regAt off with | none => 0#32 | some r => readReg s r })
        ∧ ∀ v, s.host = .write off .word v :: rest → regAt off ≠ some .cmd → regAt off ≠ some .rxLen →
            regAt off ≠ some .argIp → step s = .next { s with host := rest })
    ∧ (∀ (s : State) (v : Word) (rest : List HostAction), s.engine = .idle →
        (s.host = .write 0x008 .word v :: rest → step s = .next { s with host := rest, rxLen := v.extractLsb' 0 16 })
          ∧ (s.host = .write 0x010 .word v :: rest → step s = .next { s with host := rest, argIp := v }))
    ∧ (∀ (s : State) (k : Nat) (rest : List HostAction), k < s.cfg.maxFrame → s.cfg.maxFrame ≤ 0xFFFF →
        (s.host = .read (0x10000 + k) .byte :: rest → k < s.rxLen.toNat →
            step s = .next { s with host := rest, rdata := (bufByte s (0x10000 + k)).setWidth 32 })
          ∧ (s.host = .read (0x10000 + k) .byte :: rest → s.rxLen.toNat ≤ k →
              step s = .next { s with host := rest, draws := s.draws + 1,
                                      rdata := (Config.beyondLen s.draws (0x10000 + k)).setWidth 32 })
          ∧ (s.host = .read (0x20000 + k) .byte :: rest → k < s.txLen.toNat →
              step s = .next { s with host := rest, rdata := (bufByte s (0x20000 + k)).setWidth 32 })
          ∧ (∀ v, s.host = .write (0x10000 + k) .byte v :: rest → s.engine = .idle →
              ∃ t, step s = .next t ∧ bufByte t (0x10000 + k) = v.setWidth 8
                ∧ t = { s with host := rest, mem := t.mem }
                ∧ ∀ a, a ≠ 0x10000 + k → memGet t.mem a = memGet s.mem a)
          ∧ ∀ v, s.host = .write (0x20000 + k) .byte v :: rest → step s = .next { s with host := rest })
    ∧ (∀ (s : State) (off : Nat) (size : AccessSize) (rest : List HostAction), off < 0x10000 →
        size ≠ .word ∨ off % 4 ≠ 0 →
        (s.host = .read off size :: rest → step s = .refused (.registerAccess off size))
          ∧ ∀ v, s.host = .write off size v :: rest → step s = .refused (.registerAccess off size))
    ∧ (∀ (s : State) (base k : Nat) (size : AccessSize) (rest : List HostAction), base = 0x10000 ∨ base = 0x20000 →
        k < s.cfg.maxFrame → s.cfg.maxFrame ≤ 0xFFFF → size ≠ .byte →
        (s.host = .read (base + k) size :: rest → step s = .refused (.bufferAccess (base + k) size))
          ∧ ∀ v, s.host = .write (base + k) size v :: rest → step s = .refused (.bufferAccess (base + k) size))
    ∧ ∀ (s : State) (off : Nat) (size : AccessSize) (rest : List HostAction),
        0x10000 + s.cfg.maxFrame ≤ off → off < 0x20000 ∨ 0x20000 + s.cfg.maxFrame ≤ off →
        (s.host = .read off size :: rest → step s = .refused (.outsideMap off))
          ∧ ∀ v, s.host = .write off size v :: rest → step s = .refused (.outsideMap off)

/-- The register map (R104): each register at its offset, no register at any other offset below 0x10000 (R59), and what each
reads as; a narrow register reads with its high bits 0, and `CMD` reads as 0. -/
def Obligations.RegisterMap : Prop :=
  ∀ s : State,
    (∀ r : Reg, regAt (regOffset r) = some r)
      ∧ [0x000, 0x004, 0x008, 0x00C, 0x010, 0x014, 0x018, 0x01C, 0x020, 0x024, 0x028, 0x02C, 0x030].map regAt
          = [Reg.cmd, .status, .rxLen, .txLen, .argIp, .lkInfo, .lkMacHi, .lkMacLo, .csumResult, .devIp, .devMacHi,
              .devMacLo, .cacheCount].map some
      ∧ (∀ off, off < 0x10000 →
          off ∉ [0x000, 0x004, 0x008, 0x00C, 0x010, 0x014, 0x018, 0x01C, 0x020, 0x024, 0x028, 0x02C, 0x030] →
          regAt off = none)
      ∧ (readReg s .cmd).toNat = 0 ∧ (readReg s .status).toNat = s.status.toNat
      ∧ (readReg s .rxLen).toNat = s.rxLen.toNat ∧ (readReg s .txLen).toNat = s.txLen.toNat
      ∧ readReg s .argIp = s.argIp ∧ readReg s .lkInfo = s.lkInfo ∧ (readReg s .lkMacHi).toNat = s.lkMacHi.toNat
      ∧ readReg s .lkMacLo = s.lkMacLo ∧ (readReg s .csumResult).toNat = s.csumResult.toNat
      ∧ readReg s .devIp = s.cfg.devIp ∧ readReg s .cacheCount = s.cacheCount
      ∧ (readReg s .devMacHi).toNat * 2 ^ 32 + (readReg s .devMacLo).toNat = s.cfg.devMac.toNat

/-- The stimulus line `frame` (R106) delivers its bytes: after its two writes the received frame is those bytes and
PROCESS_FRAME is the next action; nothing but `RXBUF` and `RX_LEN` has changed (R31, R36, R51, R337). The queue of host actions
is log 3. -/
def Obligations.FrameLineDeliversItsBytes : Prop :=
  ∀ (s : State) (F : Bytes) (rest : List HostAction), s.host = frameLines F ++ rest → s.engine = .idle →
    F.length ≤ s.cfg.maxFrame → s.cfg.maxFrame ≤ 0xFFFF →
    ∃ u t, step s = .next u ∧ step u = .next t ∧ rxFrame t = F ∧ t.host = cmdLine 1#32 :: rest
      ∧ t = { s with mem := t.mem, rxLen := t.rxLen, host := t.host }
      ∧ ∀ a, a < rxBase ∨ rxBase + F.length ≤ a → memGet t.mem a = memGet s.mem a

/-- R338: a write to `CMD`, `RX_LEN`, `ARG_IP` or `RXBUF` while the engine is busy is refused, a `wrbuf` (R105) included. -/
def Obligations.WritesWhileBusyAreRefused : Prop :=
  ∀ (s : State) (rest : List HostAction) (v : Word), s.engine = .busy →
    (∀ r, r = .cmd ∨ r = .rxLen ∨ r = .argIp → s.host = wrLine r v :: rest →
        step s = .refused (.writeWhileBusy (regOffset r)))
      ∧ (∀ k, k < s.cfg.maxFrame → s.cfg.maxFrame ≤ 0xFFFF → s.host = .write (0x10000 + k) .byte v :: rest →
          step s = .refused (.writeWhileBusy (0x10000 + k)))
      ∧ ∀ (off : Nat) (B : Bytes), s.host = .wrbuf off B :: rest →
          (off + B.length ≤ s.cfg.maxFrame → step s = .refused (.writeWhileBusy (0x10000 + off)))
            ∧ ∃ r, step s = .refused r

/-- R92: `STATUS` is the sum the spec writes, for every reason; its fields read back. -/
def Obligations.StatusWordIsTheSpecsSum : Prop :=
  ∀ (h : Bool) (r : Reason),
    (statusWord h r).toNat
        = (if h then 1 else 0) * 0x8000 + (classCode (reasonClass r)).toNat * 0x1000 + 0 * 0x0800
          + (kindCode (reasonKind r)).toNat * 0x0100 + (reasonCode r).toNat
      ∧ statusReason (statusWord h r) = reasonCode r ∧ statusKind (statusWord h r) = kindCode (reasonKind r)
      ∧ statusClass (statusWord h r) = classCode (reasonClass r) ∧ statusHalted (statusWord h r) = h
      ∧ statusBusy (statusWord h r) = false

/-- A byte of `TXBUF` at or beyond `TX_LEN` reads as a free value, whatever it is, and the next such read draws another (R37, "any
value"; the free value's form is the model's choice, log 6). -/
def Obligations.TxBytesBeyondTxLenReadFreely : Prop :=
  ∀ (s : State) (k : Nat) (rest : List HostAction), s.txLen.toNat ≤ k → k < s.cfg.maxFrame → s.cfg.maxFrame ≤ 0xFFFF →
    s.host = .read (0x20000 + k) .byte :: rest →
    step s = .next { s with host := rest, draws := s.draws + 1,
                            rdata := (Config.beyondLen s.draws (0x20000 + k)).setWidth 32 }
end

