-- ==== Sys2Proof/Laws/Codec.lean ====
section
/-! SUPPORT. Laws of the field reads and writes (40_codec_checksum.md R120 to R123). -/

namespace Sys2Proof.Laws
open Sys2Proof.Machine

/-! ## Byte order -/

theorem append_toNat {n m : Nat} (a : BitVec n) (b : BitVec m) :
    (a ++ b).toNat = a.toNat * 2 ^ m + b.toNat := by
  rw [BitVec.toNat_append, ← Nat.shiftLeft_add_eq_or_of_lt b.isLt, Nat.shiftLeft_eq]

theorem be16_toNat (a b : Byte) : (be16 a b).toNat = a.toNat * 256 + b.toNat := append_toNat a b

theorem be32_toNat (a b c d : Byte) :
    (be32 a b c d).toNat = ((a.toNat * 256 + b.toNat) * 256 + c.toNat) * 256 + d.toNat := by
  refine (append_toNat (a ++ b ++ c) d).trans ?_
  rw [append_toNat (a ++ b) c, append_toNat a b]
  rfl

theorem mac_toNat (a b c d e f : Byte) :
    (a ++ b ++ c ++ d ++ e ++ f : Mac).toNat
      = ((((a.toNat * 256 + b.toNat) * 256 + c.toNat) * 256 + d.toNat) * 256 + e.toNat) * 256 + f.toNat := by
  refine (append_toNat (a ++ b ++ c ++ d ++ e) f).trans ?_
  rw [append_toNat (a ++ b ++ c ++ d) e, append_toNat (a ++ b ++ c) d, append_toNat (a ++ b) c, append_toNat a b]
  rfl

@[simp] theorem be16_u16 (v : Half) : be16 (v.extractLsb' 8 8) (v.extractLsb' 0 8) = v := by
  apply BitVec.eq_of_toNat_eq
  rw [be16_toNat]
  simp [BitVec.extractLsb'_toNat, Nat.shiftRight_eq_div_pow]
  omega

@[simp] theorem be32_u32 (v : Word) :
    be32 (v.extractLsb' 24 8) (v.extractLsb' 16 8) (v.extractLsb' 8 8) (v.extractLsb' 0 8) = v := by
  apply BitVec.eq_of_toNat_eq
  rw [be32_toNat]
  simp [BitVec.extractLsb'_toNat, Nat.shiftRight_eq_div_pow]
  omega

@[simp] theorem u16_be16 (a b : Byte) : u16 (be16 a b) = [a, b] := by
  have h := be16_toNat a b
  simp only [u16, List.cons.injEq, and_true]
  constructor <;> apply BitVec.eq_of_toNat_eq <;>
    simp [BitVec.extractLsb'_toNat, Nat.shiftRight_eq_div_pow, h] <;> omega

@[simp] theorem u32_be32 (a b c d : Byte) : u32 (be32 a b c d) = [a, b, c, d] := by
  have h := be32_toNat a b c d
  simp only [u32, List.cons.injEq, and_true]
  refine ⟨?_, ?_, ?_, ?_⟩ <;> apply BitVec.eq_of_toNat_eq <;>
    simp [BitVec.extractLsb'_toNat, Nat.shiftRight_eq_div_pow, h] <;> omega

/-- The bytes of a MAC read from six bytes are those bytes. -/
theorem u48_macOfBytes (a b c d e f : Byte) : u48 (macOfBytes [a, b, c, d, e, f]) = [a, b, c, d, e, f] := by
  have h := mac_toNat a b c d e f
  simp only [u48, macOfBytes, byteAt, List.getD_cons_zero, List.getD_cons_succ, List.cons.injEq, and_true]
  refine ⟨?_, ?_, ?_, ?_, ?_, ?_⟩ <;> apply BitVec.eq_of_toNat_eq <;>
    simp only [BitVec.extractLsb'_toNat, Nat.shiftRight_eq_div_pow, h] <;> omega

/-- The MAC read from the six bytes of a MAC is that MAC. -/
theorem macOfBytes_u48 (v : Mac) : macOfBytes (u48 v) = v := by
  apply BitVec.eq_of_toNat_eq
  simp only [u48, macOfBytes, byteAt, List.getD_cons_zero, List.getD_cons_succ]
  rw [mac_toNat]
  simp only [BitVec.extractLsb'_toNat, Nat.shiftRight_eq_div_pow]
  omega

/-! ## Lengths -/

@[simp] theorem u8_length (v : Byte) : (u8 v).length = 1 := rfl
@[simp] theorem u16_length (v : Half) : (u16 v).length = 2 := rfl
@[simp] theorem u32_length (v : Word) : (u32 v).length = 4 := rfl
@[simp] theorem u48_length (v : Mac) : (u48 v).length = 6 := rfl

theorem splice_length (B : Bytes) (off : Nat) (C : Bytes) (h : off + C.length ≤ B.length) :
    (splice B off C).length = B.length := by
  simp [splice]; omega

theorem writeU16_length (B : Bytes) (off : Nat) (v : Half) (h : off + 2 ≤ B.length) :
    (writeU16 B off v).length = B.length := splice_length B off (u16 v) h

theorem writeU32_length (B : Bytes) (off : Nat) (v : Word) (h : off + 4 ≤ B.length) :
    (writeU32 B off v).length = B.length := splice_length B off (u32 v) h

/-! ## Reads: what each answers, and when -/

theorem readU8_ok {B : Bytes} {off : Nat} (h : off + 1 ≤ B.length) : readU8 B off = .ok (byteAt B off) := by
  simp [readU8, h]

theorem readU16_ok {B : Bytes} {off : Nat} (h : off + 2 ≤ B.length) :
    readU16 B off = .ok (be16 (byteAt B off) (byteAt B (off + 1))) := by
  simp [readU16, h]

theorem readU32_ok {B : Bytes} {off : Nat} (h : off + 4 ≤ B.length) :
    readU32 B off
      = .ok (be32 (byteAt B off) (byteAt B (off + 1)) (byteAt B (off + 2)) (byteAt B (off + 3))) := by
  simp [readU32, h]

theorem readBytes_ok {B : Bytes} {off n : Nat} (h : off + n ≤ B.length) :
    readBytes B off n = .ok ((B.drop off).take n) := by
  simp [readBytes, h]

theorem readMac_ok {B : Bytes} {off : Nat} (h : off + 6 ≤ B.length) :
    readMac B off = .ok (macOfBytes ((B.drop off).take 6)) := by
  simp [readMac, readBytes_ok h]

theorem slice_ok {B : Bytes} {a b : Nat} (h : a ≤ b) (h' : b ≤ B.length) :
    slice B a b = .ok ((B.drop a).take (b - a)) := by
  simp [slice, h, h']

theorem readU8_inv {B : Bytes} {off : Nat} {v : Byte} (h : readU8 B off = .ok v) :
    off + 1 ≤ B.length ∧ v = byteAt B off := by
  unfold readU8 at h
  split at h
  · exact ⟨‹_›, by cases h; rfl⟩
  · cases h

theorem readU16_inv {B : Bytes} {off : Nat} {v : Half} (h : readU16 B off = .ok v) :
    off + 2 ≤ B.length ∧ v = be16 (byteAt B off) (byteAt B (off + 1)) := by
  unfold readU16 at h
  split at h
  · exact ⟨‹_›, by cases h; rfl⟩
  · cases h

theorem readU32_inv {B : Bytes} {off : Nat} {v : Word} (h : readU32 B off = .ok v) :
    off + 4 ≤ B.length
      ∧ v = be32 (byteAt B off) (byteAt B (off + 1)) (byteAt B (off + 2)) (byteAt B (off + 3)) := by
  unfold readU32 at h
  split at h
  · exact ⟨‹_›, by cases h; rfl⟩
  · cases h

theorem readMac_inv {B : Bytes} {off : Nat} {v : Mac} (h : readMac B off = .ok v) :
    off + 6 ≤ B.length ∧ v = macOfBytes ((B.drop off).take 6) := by
  unfold readMac readBytes at h
  by_cases hl : off + 6 ≤ B.length
  · simp only [hl, if_true, Except.ok.injEq] at h
    exact ⟨hl, h.symm⟩
  · simp only [hl, if_false] at h
    cases h

theorem slice_inv {B C : Bytes} {a b : Nat} (h : slice B a b = .ok C) :
    a ≤ b ∧ b ≤ B.length ∧ C = (B.drop a).take (b - a) := by
  unfold slice at h
  split at h
  · rename_i hc
    exact ⟨hc.1, hc.2, by cases h; rfl⟩
  · cases h

theorem slice_length {B C : Bytes} {a b : Nat} (h : slice B a b = .ok C) : C.length = b - a := by
  obtain ⟨_, _, rfl⟩ := slice_inv h
  simp; omega

/-- Six bytes inside a string, read as a MAC and written again, are those bytes. -/
theorem u48_macAt {B : Bytes} {off : Nat} (h : off + 6 ≤ B.length) :
    u48 (macOfBytes ((B.drop off).take 6)) = (B.drop off).take 6 := by
  have hl : ((B.drop off).take 6).length = 6 := by simp; omega
  match hB : (B.drop off).take 6, hl with
  | [a, b, c, d, e, f], _ => exact u48_macOfBytes a b c d e f

/-! ## The decoders: the headers they read, in closed form -/

/-- The Ethernet view of a frame of at least 14 bytes (R141). -/
def ethOf (F : Bytes) : EthView :=
  { dst := macOfBytes ((F.drop 0).take 6), src := macOfBytes ((F.drop 6).take 6),
    ethertype := be16 (byteAt F 12) (byteAt F 13), payload := F.drop 14 }

/-- The ARP view of a payload of at least 28 bytes (R162). -/
def arpOf (P : Bytes) : ArpView :=
  { hwtype := be16 (byteAt P 0) (byteAt P 1), protype := be16 (byteAt P 2) (byteAt P 3), hwsize := byteAt P 4,
    prosize := byteAt P 5, opcode := be16 (byteAt P 6) (byteAt P 7), smac := macOfBytes ((P.drop 8).take 6),
    sip := be32 (byteAt P 14) (byteAt P 15) (byteAt P 16) (byteAt P 17), tmac := macOfBytes ((P.drop 18).take 6),
    tip := be32 (byteAt P 24) (byteAt P 25) (byteAt P 26) (byteAt P 27) }

/-- The ICMP view of a message of at least 4 bytes (R222). -/
def icmpOf (M : Bytes) : IcmpView :=
  { type := byteAt M 0, code := byteAt M 1, csum := be16 (byteAt M 2) (byteAt M 3), body := M.drop 4 }

/-- The TCP view of a segment of at least 20 bytes (R242). -/
def tcpOf (T : Bytes) : TcpView :=
  { sport := be16 (byteAt T 0) (byteAt T 1), dport := be16 (byteAt T 2) (byteAt T 3),
    seq := be32 (byteAt T 4) (byteAt T 5) (byteAt T 6) (byteAt T 7),
    ack := be32 (byteAt T 8) (byteAt T 9) (byteAt T 10) (byteAt T 11),
    doff := (byteAt T 12).extractLsb' 4 4, rsvd := (byteAt T 12).extractLsb' 0 4, flags := byteAt T 13,
    window := be16 (byteAt T 14) (byteAt T 15), csum := be16 (byteAt T 16) (byteAt T 17),
    urg := be16 (byteAt T 18) (byteAt T 19), rest := T.drop 20 }

/-- The header length the first byte of an IPv4 payload gives (R75, R78). -/
def headerLen (P : Bytes) : Nat := headerBytes (ipIhl (byteAt P 0))

/-- The total length an IPv4 payload gives (R74). -/
def totalLen (P : Bytes) : Nat := (be16 (byteAt P 2) (byteAt P 3)).toNat

/-- The IPv4 view of a payload that holds a whole header (R195). -/
def ipv4Of (P : Bytes) : Ipv4View :=
  { version := ipVersion (byteAt P 0), ihl := ipIhl (byteAt P 0), tos := byteAt P 1,
    totlen := be16 (byteAt P 2) (byteAt P 3), id := be16 (byteAt P 4) (byteAt P 5),
    flags := (be16 (byteAt P 6) (byteAt P 7)).extractLsb' 13 3,
    fragoff := (be16 (byteAt P 6) (byteAt P 7)).extractLsb' 0 13, ttl := byteAt P 8, proto := byteAt P 9,
    hcsum := be16 (byteAt P 10) (byteAt P 11), saddr := be32 (byteAt P 12) (byteAt P 13) (byteAt P 14) (byteAt P 15),
    daddr := be32 (byteAt P 16) (byteAt P 17) (byteAt P 18) (byteAt P 19),
    options := (P.drop 20).take (headerLen P - 20) }

/-- The datagram in a frame that holds a whole one (R195, R198). -/
def datagramOf (F : Bytes) : Datagram :=
  { eth := ethOf F, ip := ipv4Of (F.drop 14), header := (F.drop 14).take (headerLen (F.drop 14)),
    payload := ((F.drop 14).take (totalLen (F.drop 14))).drop (headerLen (F.drop 14)) }

/-- A frame holds a whole datagram: an Ethernet header, and an IPv4 header of at least 20 bytes whose total length covers it
and lies inside the payload (R140, R190 to R194). -/
def holdsDatagram (F : Bytes) : Prop :=
  14 ≤ F.length ∧ 20 ≤ headerLen (F.drop 14) ∧ headerLen (F.drop 14) ≤ totalLen (F.drop 14)
    ∧ totalLen (F.drop 14) ≤ (F.drop 14).length

/-! ## The decoders: what each answers, and when -/

theorem decodeEth_ok {F : Bytes} (h : 14 ≤ F.length) :
    decodeEth F = .ok (ethOf F) := by
  have h1 : (F.drop 14).take (F.length - 14) = F.drop 14 := List.take_of_length_le (by simp)
  simp [decodeEth, ethOf, readMac_ok (show 0 + 6 ≤ F.length by omega), readMac_ok (show 6 + 6 ≤ F.length by omega),
    readU16_ok (show 12 + 2 ≤ F.length by omega), slice_ok h (Nat.le_refl _), h1, bind, Except.bind, pure, Except.pure]

theorem decodeEth_inv {F : Bytes} {e : EthView} (h : decodeEth F = .ok e) :
    14 ≤ F.length ∧ e = ethOf F := by
  by_cases hl : 14 ≤ F.length
  · rw [decodeEth_ok hl, Except.ok.injEq] at h
    exact ⟨hl, h.symm⟩
  · have h1 : ¬ (12 + 2 ≤ F.length) := by omega
    unfold decodeEth at h
    simp only [bind, Except.bind] at h
    split at h <;> try cases h
    split at h <;> try cases h
    simp [readU16, h1] at h

theorem decodeArp_ok {P : Bytes} (h : 28 ≤ P.length) :
    decodeArp P = .ok (arpOf P) := by
  simp [decodeArp, arpOf, readU16_ok (show 0 + 2 ≤ P.length by omega), readU16_ok (show 2 + 2 ≤ P.length by omega),
    readU8_ok (show 4 + 1 ≤ P.length by omega), readU8_ok (show 5 + 1 ≤ P.length by omega),
    readU16_ok (show 6 + 2 ≤ P.length by omega), readMac_ok (show 8 + 6 ≤ P.length by omega),
    readU32_ok (show 14 + 4 ≤ P.length by omega), readMac_ok (show 18 + 6 ≤ P.length by omega),
    readU32_ok (show 24 + 4 ≤ P.length by omega), bind, Except.bind, pure, Except.pure]

theorem decodeArp_inv {P : Bytes} {a : ArpView} (h : decodeArp P = .ok a) : 28 ≤ P.length ∧ a = arpOf P := by
  by_cases hl : 28 ≤ P.length
  · rw [decodeArp_ok hl, Except.ok.injEq] at h
    exact ⟨hl, h.symm⟩
  exfalso
  have h1 : ¬ (24 + 4 ≤ P.length) := by omega
  unfold decodeArp at h
  simp only [bind, Except.bind] at h
  iterate 8 (split at h <;> [cases h; skip])
  simp [readU32, h1] at h

theorem decodeIcmp_ok {M : Bytes} (h : 4 ≤ M.length) :
    decodeIcmp M = .ok (icmpOf M) := by
  have h1 : (M.drop 4).take (M.length - 4) = M.drop 4 := List.take_of_length_le (by simp)
  simp [decodeIcmp, icmpOf, readU8_ok (show 0 + 1 ≤ M.length by omega), readU8_ok (show 1 + 1 ≤ M.length by omega),
    readU16_ok (show 2 + 2 ≤ M.length by omega), slice_ok h (Nat.le_refl _), h1, bind, Except.bind, pure, Except.pure]

theorem decodeTcp_ok {T : Bytes} (h : 20 ≤ T.length) :
    decodeTcp T = .ok (tcpOf T) := by
  have h1 : (T.drop 20).take (T.length - 20) = T.drop 20 := List.take_of_length_le (by simp)
  simp [decodeTcp, tcpOf, readU16_ok (show 0 + 2 ≤ T.length by omega), readU16_ok (show 2 + 2 ≤ T.length by omega),
    readU32_ok (show 4 + 4 ≤ T.length by omega), readU32_ok (show 8 + 4 ≤ T.length by omega),
    readU8_ok (show 12 + 1 ≤ T.length by omega), readU8_ok (show 13 + 1 ≤ T.length by omega),
    readU16_ok (show 14 + 2 ≤ T.length by omega), readU16_ok (show 16 + 2 ≤ T.length by omega),
    readU16_ok (show 18 + 2 ≤ T.length by omega), slice_ok h (Nat.le_refl _), h1, bind, Except.bind, pure, Except.pure]

theorem decodeTcp_inv {T : Bytes} {t : TcpView} (h : decodeTcp T = .ok t) : 20 ≤ T.length ∧ t = tcpOf T := by
  by_cases hl : 20 ≤ T.length
  · rw [decodeTcp_ok hl, Except.ok.injEq] at h
    exact ⟨hl, h.symm⟩
  exfalso
  have h1 : ¬ (18 + 2 ≤ T.length) := by omega
  unfold decodeTcp at h
  simp only [bind, Except.bind] at h
  iterate 8 (split at h <;> [cases h; skip])
  simp [readU16, h1] at h

/-- The IPv4 header decoder on a payload that holds the whole header. -/
theorem decodeIpv4_ok {P : Bytes} (h5 : 20 ≤ headerLen P) (h : headerLen P ≤ P.length) :
    decodeIpv4 P = .ok (ipv4Of P) := by
  have hs : slice P 20 (headerBytes (ipIhl (byteAt P 0))) = .ok ((P.drop 20).take (headerLen P - 20)) := slice_ok h5 h
  have h5' : 20 ≤ P.length := Nat.le_trans h5 h
  simp [decodeIpv4, ipv4Of, headerLen, readU8_ok (show 0 + 1 ≤ P.length by omega), readU8_ok (show 1 + 1 ≤ P.length by omega),
    readU16_ok (show 2 + 2 ≤ P.length by omega), readU16_ok (show 4 + 2 ≤ P.length by omega),
    readU16_ok (show 6 + 2 ≤ P.length by omega), readU8_ok (show 8 + 1 ≤ P.length by omega),
    readU8_ok (show 9 + 1 ≤ P.length by omega), readU16_ok (show 10 + 2 ≤ P.length by omega),
    readU32_ok (show 12 + 4 ≤ P.length by omega), readU32_ok (show 16 + 4 ≤ P.length by omega), hs,
    bind, Except.bind, pure, Except.pure]

/-- A decoded IPv4 header has an `IHL` of at least 5, lies inside the payload, and has the fields of R74. -/
theorem decodeIpv4_inv {P : Bytes} {ip : Ipv4View} (h : decodeIpv4 P = .ok ip) :
    20 ≤ headerLen P ∧ headerLen P ≤ P.length ∧ ip = ipv4Of P := by
  have hw := h
  unfold decodeIpv4 at h
  simp only [bind, Except.bind] at h
  split at h
  · cases h
  rename_i b0 hb0
  obtain ⟨-, rfl⟩ := readU8_inv hb0
  iterate 9 (split at h <;> [cases h; skip])
  split at h
  · cases h
  · rename_i hs
    obtain ⟨h1, h2, -⟩ := slice_inv hs
    refine ⟨h1, h2, ?_⟩
    rw [decodeIpv4_ok h1 h2, Except.ok.injEq] at hw
    exact hw.symm

theorem headerLen_le (P : Bytes) : headerLen P ≤ 60 := by
  have h := (ipIhl (byteAt P 0)).isLt
  simp only [headerLen, headerBytes]
  omega

/-- The datagram decoder on a frame that holds a whole datagram. -/
theorem decodeDatagram_ok {F : Bytes} (h : holdsDatagram F) :
    decodeDatagram (ethOf F) = .ok (datagramOf F) := by
  obtain ⟨h1, h2, h3, h4⟩ := h
  have hd : decodeIpv4 (ethOf F).payload = .ok (ipv4Of (F.drop 14)) := decodeIpv4_ok h2 (Nat.le_trans h3 h4)
  have ht : ((ipv4Of (F.drop 14)).totlen).toNat = totalLen (F.drop 14) := rfl
  have hh : headerBytes (ipv4Of (F.drop 14)).ihl = headerLen (F.drop 14) := rfl
  have hs : slice (ethOf F).payload 0 (totalLen (F.drop 14)) = .ok ((F.drop 14).take (totalLen (F.drop 14))) := by
    exact slice_ok (Nat.zero_le _) h4
  have hl : ((F.drop 14).take (totalLen (F.drop 14))).length = totalLen (F.drop 14) := by
    rw [List.length_take]; omega
  have e1 : List.take (headerLen (F.drop 14)) ((F.drop 14).take (totalLen (F.drop 14)))
      = (F.drop 14).take (headerLen (F.drop 14)) := by
    rw [List.take_take, Nat.min_eq_left h3]
  have e2 : List.take (totalLen (F.drop 14) - headerLen (F.drop 14))
      (((F.drop 14).take (totalLen (F.drop 14))).drop (headerLen (F.drop 14)))
      = ((F.drop 14).take (totalLen (F.drop 14))).drop (headerLen (F.drop 14)) :=
    List.take_of_length_le (by rw [List.length_drop, hl])
  simp only [decodeDatagram, hd, bind, Except.bind, ht, hh, hs,
    slice_ok (Nat.zero_le _) (show headerLen (F.drop 14) ≤ _ by rw [hl]; exact h3),
    slice_ok h3 (show totalLen (F.drop 14) ≤ _ by rw [hl]), List.drop_zero, Nat.sub_zero, e1, e2, pure, Except.pure]
  rfl

/-- A decoded datagram is the one the frame holds. -/
theorem decodeDatagram_inv {F : Bytes} {d : Datagram} (hF : 14 ≤ F.length)
    (h : decodeDatagram (ethOf F) = .ok d) : holdsDatagram F ∧ d = datagramOf F := by
  have hw := h
  unfold decodeDatagram at h
  simp only [bind, Except.bind] at h
  split at h
  · cases h
  rename_i ip hip
  obtain ⟨h1, h2, rfl⟩ := decodeIpv4_inv hip
  split at h
  · cases h
  rename_i D hD
  obtain ⟨-, h3, rfl⟩ := slice_inv hD
  split at h
  · cases h
  split at h
  · cases h
  rename_i Q hQ
  obtain ⟨h4, -, -⟩ := slice_inv hQ
  have hh : holdsDatagram F := ⟨hF, h1, h4, h3⟩
  rw [decodeDatagram_ok hh, Except.ok.injEq] at hw
  exact ⟨hh, hw.symm⟩

/-- The lengths of the parts of a datagram. -/
theorem datagramOf_lengths {F : Bytes} (h : holdsDatagram F) :
    (datagramOf F).header.length = headerLen (F.drop 14)
      ∧ (datagramOf F).payload.length = totalLen (F.drop 14) - headerLen (F.drop 14) := by
  obtain ⟨h1, h2, h3, h4⟩ := h
  simp only [datagramOf, List.length_take, List.length_drop] at *
  omega

end Sys2Proof.Laws
end

