-- ==== Sys2Proof/Laws/Checksum.lean ====
section
/-! SUPPORT. Lemmas about the checksum accumulator (40_codec_checksum.md R124 to R130). -/

namespace Sys2Proof.Laws
open Sys2Proof.Machine

/-! ## Folding -/

/-- One pass of the folding loop, in arithmetic. -/
theorem fold_pass (s : Nat) : (s &&& 0xFFFF) + (s >>> 16) = s % 65536 + s / 65536 := by
  rw [show (0xFFFF : Nat) = 2 ^ 16 - 1 from rfl, Nat.and_two_pow_sub_one_eq_mod, Nat.shiftRight_eq_div_pow]

/-- What enough passes leave: 0 for 0, else the representative in 1 to 65535 of the sum modulo 65535. -/
theorem foldPasses_eq (n s : Nat) (h : s ≤ n ∨ s < 65536) :
    foldPasses n s = if s = 0 then 0 else if s % 65535 = 0 then 65535 else s % 65535 := by
  induction n generalizing s with
  | zero => simp only [foldPasses]; split_ifs <;> omega
  | succ n ih =>
    simp only [foldPasses]
    by_cases hs : s < 65536
    · rw [if_pos hs]; split_ifs <;> omega
    · rw [if_neg hs, fold_pass, ih _ (by omega)]
      split_ifs <;> omega

/-- R124: `fold` in closed form. -/
theorem fold_eq (s : Nat) : fold s = if s = 0 then 0 else if s % 65535 = 0 then 65535 else s % 65535 :=
  foldPasses_eq s s (.inl (Nat.le_refl s))

theorem fold_lt (s : Nat) : fold s < 65536 := by rw [fold_eq]; split_ifs <;> omega

/-! ## The checksum as a number -/

theorem checksum_toNat (B : Bytes) (n : Nat) : (checksum B n).toNat = 65535 - fold (sum16 (B.take n)) := by
  have h := fold_lt (sum16 (B.take n))
  simp [checksum, BitVec.toNat_not, Nat.mod_eq_of_lt h]

theorem checksum_full (B : Bytes) (n : Nat) (h : B.length ≤ n) :
    (checksum B n).toNat = 65535 - fold (sum16 B) := by
  rw [checksum_toNat, List.take_of_length_le h]

/-- A region validates exactly when its word sum is a positive multiple of 65535. -/
theorem checksum_eq_zero_iff (B : Bytes) (n : Nat) (h : B.length ≤ n) :
    checksum B n = 0#16 ↔ 0 < sum16 B ∧ sum16 B % 65535 = 0 := by
  have h1 : checksum B n = 0#16 ↔ (checksum B n).toNat = 0 :=
    ⟨fun e => by rw [e]; rfl, fun e => BitVec.eq_of_toNat_eq e⟩
  rw [h1, checksum_full B n h, fold_eq]
  generalize sum16 B = S
  clear h1 h
  split_ifs <;> constructor <;> intro hh <;> first | omega | exact hh.elim

/-! ## Word sums -/

theorem sum16_append (A B : Bytes) (h : A.length % 2 = 0) : sum16 (A ++ B) = sum16 A + sum16 B := by
  induction A using sum16.induct with
  | case1 => simp [sum16]
  | case2 a => simp at h
  | case3 a b rest ih =>
    simp only [List.length_cons] at h
    simp only [List.cons_append, sum16, ih (by omega)]
    omega

@[simp] theorem sum16_u16 (v : Half) : sum16 (u16 v) = v.toNat := by
  simp [u16, sum16, BitVec.extractLsb'_toNat, Nat.shiftRight_eq_div_pow]
  omega

@[simp] theorem sum16_pair (a b : Byte) : sum16 [a, b] = (be16 a b).toNat := by
  simp [sum16, be16_toNat]

/-- The word sum of a string cut at an even offset before a 16-bit field. -/
theorem sum16_split2 (B : Bytes) (off : Nat) (he : off % 2 = 0) (h : off + 2 ≤ B.length) :
    sum16 B = sum16 (B.take off) + (be16 (byteAt B off) (byteAt B (off + 1))).toNat + sum16 (B.drop (off + 2)) := by
  have h1 : B = B.take off ++ ([byteAt B off, byteAt B (off + 1)] ++ B.drop (off + 2)) := by
    have e : B.drop off = byteAt B off :: byteAt B (off + 1) :: B.drop (off + 2) := by
      rw [List.drop_eq_getElem_cons (by omega), List.drop_eq_getElem_cons (by omega)]
      simp [byteAt, List.getD_eq_getElem?_getD, List.getElem?_eq_getElem (show off < B.length by omega),
        List.getElem?_eq_getElem (show off + 1 < B.length by omega)]
    rw [List.cons_append, List.cons_append, List.nil_append, ← e, List.take_append_drop]
  have hl : (B.take off).length = off := by simp; omega
  conv_lhs => rw [h1]
  rw [sum16_append _ _ (by omega), sum16_append _ _ (by simp), sum16_pair]
  omega

/-- Writing a 16-bit field at an even offset exchanges one word of the sum (R123, R124). -/
theorem sum16_writeU16 (B : Bytes) (off : Nat) (v : Half) (he : off % 2 = 0) (h : off + 2 ≤ B.length) :
    sum16 (writeU16 B off v) + (be16 (byteAt B off) (byteAt B (off + 1))).toNat = sum16 B + v.toNat := by
  have hl : (B.take off).length = off := by simp; omega
  rw [sum16_split2 B off he h, writeU16, splice, List.append_assoc, sum16_append _ _ (by omega),
    sum16_append _ _ (by simp), sum16_u16, u16_length]
  omega

/-! ## Bytes of a written string -/

theorem byteAt_append_left (A B : Bytes) (i : Nat) (h : i < A.length) : byteAt (A ++ B) i = byteAt A i := by
  simp [byteAt, List.getD_eq_getElem?_getD, List.getElem?_append_left h]

theorem byteAt_append_right (A B : Bytes) (i : Nat) (h : A.length ≤ i) :
    byteAt (A ++ B) i = byteAt B (i - A.length) := by
  simp [byteAt, List.getD_eq_getElem?_getD, List.getElem?_append_right h]

theorem byteAt_take (B : Bytes) (n i : Nat) (h : i < n) : byteAt (B.take n) i = byteAt B i := by
  simp [byteAt, List.getD_eq_getElem?_getD, h]

theorem byteAt_drop (B : Bytes) (n i : Nat) : byteAt (B.drop n) i = byteAt B (n + i) := by
  simp [byteAt, List.getD_eq_getElem?_getD]

/-- The bytes of a string with a part replaced (R11). -/
theorem byteAt_splice (B : Bytes) (off : Nat) (C : Bytes) (i : Nat) (h : off + C.length ≤ B.length) :
    byteAt (splice B off C) i = if off ≤ i ∧ i < off + C.length then byteAt C (i - off) else byteAt B i := by
  have hl : (B.take off).length = off := by simp; omega
  unfold splice
  by_cases h1 : i < off
  · rw [List.append_assoc, byteAt_append_left _ _ _ (by omega), byteAt_take _ _ _ h1, if_neg (by omega)]
  · rw [List.append_assoc, byteAt_append_right _ _ _ (by omega), hl]
    by_cases h2 : i < off + C.length
    · rw [byteAt_append_left _ _ _ (by omega), if_pos (by omega)]
    · rw [byteAt_append_right _ _ _ (by omega), byteAt_drop, if_neg (by omega)]
      congr 1; omega

/-- A 16-bit field reads back as it was written (R120, R123). -/
theorem be16_writeU16_same (B : Bytes) (off : Nat) (v : Half) (h : off + 2 ≤ B.length) :
    be16 (byteAt (writeU16 B off v) off) (byteAt (writeU16 B off v) (off + 1)) = v := by
  unfold writeU16
  rw [byteAt_splice _ _ _ _ h, byteAt_splice _ _ _ _ h, u16_length, if_pos (by omega), if_pos (by omega)]
  simp [byteAt, u16]

/-- Writing a 16-bit field leaves every other byte as it was (R123). -/
theorem byteAt_writeU16_other (B : Bytes) (off : Nat) (v : Half) (i : Nat) (h : off + 2 ≤ B.length)
    (hi : i < off ∨ off + 2 ≤ i) : byteAt (writeU16 B off v) i = byteAt B i := by
  unfold writeU16
  rw [byteAt_splice _ _ _ _ h, u16_length, if_neg (by omega)]

/-- Writing a 32-bit field leaves every other byte as it was (R123). -/
theorem byteAt_writeU32_other (B : Bytes) (off : Nat) (v : Word) (i : Nat) (h : off + 4 ≤ B.length)
    (hi : i < off ∨ off + 4 ≤ i) : byteAt (writeU32 B off v) i = byteAt B i := by
  unfold writeU32
  rw [byteAt_splice _ _ _ _ h, u32_length, if_neg (by omega)]

/-- A 32-bit field reads back as it was written (R120, R123). -/
theorem be32_writeU32_same (B : Bytes) (off : Nat) (v : Word) (h : off + 4 ≤ B.length) :
    be32 (byteAt (writeU32 B off v) off) (byteAt (writeU32 B off v) (off + 1))
      (byteAt (writeU32 B off v) (off + 2)) (byteAt (writeU32 B off v) (off + 3)) = v := by
  unfold writeU32
  rw [byteAt_splice _ _ _ _ h, byteAt_splice _ _ _ _ h, byteAt_splice _ _ _ _ h, byteAt_splice _ _ _ _ h, u32_length,
    if_pos (by omega), if_pos (by omega), if_pos (by omega), if_pos (by omega)]
  simp [byteAt, u32]

/-! ## A field at an even offset -/

theorem sum16_u32 (v : Word) : sum16 (u32 v) = v.toNat / 65536 + v.toNat % 65536 := by
  simp [u32, sum16, BitVec.extractLsb'_toNat, Nat.shiftRight_eq_div_pow]
  omega

/-- The word sum of a string cut at an even offset before a 32-bit field. -/
theorem sum16_split4 (B : Bytes) (off : Nat) (he : off % 2 = 0) (h : off + 4 ≤ B.length) :
    sum16 B = sum16 (B.take off)
      + sum16 (u32 (be32 (byteAt B off) (byteAt B (off + 1)) (byteAt B (off + 2)) (byteAt B (off + 3))))
      + sum16 (B.drop (off + 4)) := by
  rw [sum16_split2 B off he (by omega)]
  have h2 := sum16_split2 (B.drop (off + 2)) 0 rfl (by simp; omega)
  simp only [byteAt_drop, List.drop_drop, List.take_zero, sum16, Nat.zero_add, Nat.add_zero] at h2
  rw [h2, u32_be32]
  simp only [sum16, be16_toNat, Nat.add_assoc]
  have e : off + (2 + 1) = off + 3 := rfl
  simp only [Nat.reduceAdd]
  omega

/-- Writing a 32-bit field at an even offset exchanges two words of the sum (R123, R124). -/
theorem sum16_writeU32 (B : Bytes) (off : Nat) (v : Word) (he : off % 2 = 0) (h : off + 4 ≤ B.length) :
    sum16 (writeU32 B off v)
        + sum16 (u32 (be32 (byteAt B off) (byteAt B (off + 1)) (byteAt B (off + 2)) (byteAt B (off + 3))))
      = sum16 B + sum16 (u32 v) := by
  have hl : (B.take off).length = off := by simp; omega
  rw [sum16_split4 B off he h, writeU32, splice, List.append_assoc, sum16_append _ _ (by omega),
    sum16_append _ _ (by simp), u32_length]
  omega

end Sys2Proof.Laws
end

