-- ==== Sys2Proof/Laws/State.lean ====
section
/-! SUPPORT. One lemma per field per state update: what each named update of Machine/Ops.lean and Machine/HostPort.lean leaves in
each field. -/

namespace Sys2Proof.Laws
open Sys2Proof.Machine

/-! ## finish -/

@[simp] theorem finish_cfg (r : Reason) (s : State) : (finish r s).cfg = s.cfg := rfl
@[simp] theorem finish_cache (r : Reason) (s : State) : (finish r s).cache = s.cache := rfl
@[simp] theorem finish_cacheCount (r : Reason) (s : State) : (finish r s).cacheCount = s.cacheCount := rfl
@[simp] theorem finish_engine (r : Reason) (s : State) : (finish r s).engine = .idle := rfl
@[simp] theorem finish_halted (r : Reason) (s : State) : (finish r s).halted = s.halted := rfl
@[simp] theorem finish_status (r : Reason) (s : State) : (finish r s).status = statusWord s.halted r := rfl
@[simp] theorem finish_rxLen (r : Reason) (s : State) : (finish r s).rxLen = s.rxLen := rfl
@[simp] theorem finish_txLen (r : Reason) (s : State) : (finish r s).txLen = s.txLen := rfl
@[simp] theorem finish_argIp (r : Reason) (s : State) : (finish r s).argIp = s.argIp := rfl
@[simp] theorem finish_lkInfo (r : Reason) (s : State) : (finish r s).lkInfo = s.lkInfo := rfl
@[simp] theorem finish_lkMacHi (r : Reason) (s : State) : (finish r s).lkMacHi = s.lkMacHi := rfl
@[simp] theorem finish_lkMacLo (r : Reason) (s : State) : (finish r s).lkMacLo = s.lkMacLo := rfl
@[simp] theorem finish_csumResult (r : Reason) (s : State) : (finish r s).csumResult = s.csumResult := rfl
@[simp] theorem finish_mem (r : Reason) (s : State) : (finish r s).mem = s.mem := rfl
@[simp] theorem finish_host (r : Reason) (s : State) : (finish r s).host = s.host := rfl
@[simp] theorem finish_channel (r : Reason) (s : State) : (finish r s).channel = s.channel := rfl
@[simp] theorem finish_sent (r : Reason) (s : State) : (finish r s).sent = s.sent := rfl
@[simp] theorem finish_rdata (r : Reason) (s : State) : (finish r s).rdata = s.rdata := rfl
@[simp] theorem finish_epoch (r : Reason) (s : State) : (finish r s).epoch = s.epoch := rfl
@[simp] theorem finish_draws (r : Reason) (s : State) : (finish r s).draws = s.draws := rfl

/-! ## beginCommand -/

@[simp] theorem beginCommand_cfg (s : State) : (beginCommand s).cfg = s.cfg := rfl
@[simp] theorem beginCommand_cache (s : State) : (beginCommand s).cache = s.cache := rfl
@[simp] theorem beginCommand_cacheCount (s : State) : (beginCommand s).cacheCount = s.cacheCount := rfl
@[simp] theorem beginCommand_engine (s : State) : (beginCommand s).engine = .busy := rfl
@[simp] theorem beginCommand_halted (s : State) : (beginCommand s).halted = s.halted := rfl
@[simp] theorem beginCommand_status (s : State) : (beginCommand s).status = markBusy s.status := rfl
@[simp] theorem beginCommand_rxLen (s : State) : (beginCommand s).rxLen = s.rxLen := rfl
@[simp] theorem beginCommand_txLen (s : State) : (beginCommand s).txLen = s.txLen := rfl
@[simp] theorem beginCommand_argIp (s : State) : (beginCommand s).argIp = s.argIp := rfl
@[simp] theorem beginCommand_lkInfo (s : State) : (beginCommand s).lkInfo = s.lkInfo := rfl
@[simp] theorem beginCommand_lkMacHi (s : State) : (beginCommand s).lkMacHi = s.lkMacHi := rfl
@[simp] theorem beginCommand_lkMacLo (s : State) : (beginCommand s).lkMacLo = s.lkMacLo := rfl
@[simp] theorem beginCommand_csumResult (s : State) : (beginCommand s).csumResult = s.csumResult := rfl
@[simp] theorem beginCommand_mem (s : State) : (beginCommand s).mem = s.mem := rfl
@[simp] theorem beginCommand_host (s : State) : (beginCommand s).host = s.host := rfl
@[simp] theorem beginCommand_channel (s : State) : (beginCommand s).channel = s.channel := rfl
@[simp] theorem beginCommand_sent (s : State) : (beginCommand s).sent = s.sent := rfl
@[simp] theorem beginCommand_rdata (s : State) : (beginCommand s).rdata = s.rdata := rfl
@[simp] theorem beginCommand_epoch (s : State) : (beginCommand s).epoch = s.epoch := rfl
@[simp] theorem beginCommand_draws (s : State) : (beginCommand s).draws = s.draws := rfl

/-! ## enterHalt -/

@[simp] theorem enterHalt_cfg (s : State) : (enterHalt s).cfg = s.cfg := rfl
@[simp] theorem enterHalt_cache (s : State) : (enterHalt s).cache = s.cache := rfl
@[simp] theorem enterHalt_cacheCount (s : State) : (enterHalt s).cacheCount = s.cacheCount := rfl
@[simp] theorem enterHalt_engine (s : State) : (enterHalt s).engine = .idle := rfl
@[simp] theorem enterHalt_halted (s : State) : (enterHalt s).halted = true := rfl
@[simp] theorem enterHalt_status (s : State) : (enterHalt s).status = statusWord true .txFailure := rfl
@[simp] theorem enterHalt_rxLen (s : State) : (enterHalt s).rxLen = s.rxLen := rfl
@[simp] theorem enterHalt_txLen (s : State) : (enterHalt s).txLen = s.txLen := rfl
@[simp] theorem enterHalt_argIp (s : State) : (enterHalt s).argIp = s.argIp := rfl
@[simp] theorem enterHalt_lkInfo (s : State) : (enterHalt s).lkInfo = s.lkInfo := rfl
@[simp] theorem enterHalt_lkMacHi (s : State) : (enterHalt s).lkMacHi = s.lkMacHi := rfl
@[simp] theorem enterHalt_lkMacLo (s : State) : (enterHalt s).lkMacLo = s.lkMacLo := rfl
@[simp] theorem enterHalt_csumResult (s : State) : (enterHalt s).csumResult = s.csumResult := rfl
@[simp] theorem enterHalt_mem (s : State) : (enterHalt s).mem = s.mem := rfl
@[simp] theorem enterHalt_host (s : State) : (enterHalt s).host = s.host := rfl
@[simp] theorem enterHalt_channel (s : State) : (enterHalt s).channel = s.channel := rfl
@[simp] theorem enterHalt_sent (s : State) : (enterHalt s).sent = s.sent := rfl
@[simp] theorem enterHalt_rdata (s : State) : (enterHalt s).rdata = s.rdata := rfl
@[simp] theorem enterHalt_epoch (s : State) : (enterHalt s).epoch = s.epoch := rfl
@[simp] theorem enterHalt_draws (s : State) : (enterHalt s).draws = s.draws := rfl

/-! ## leaveHalt -/

@[simp] theorem leaveHalt_cfg (s : State) : (leaveHalt s).cfg = s.cfg := rfl
@[simp] theorem leaveHalt_cache (s : State) : (leaveHalt s).cache = s.cache := rfl
@[simp] theorem leaveHalt_cacheCount (s : State) : (leaveHalt s).cacheCount = s.cacheCount := rfl
@[simp] theorem leaveHalt_engine (s : State) : (leaveHalt s).engine = .idle := rfl
@[simp] theorem leaveHalt_halted (s : State) : (leaveHalt s).halted = false := rfl
@[simp] theorem leaveHalt_status (s : State) : (leaveHalt s).status = statusWord false .restartDone := rfl
@[simp] theorem leaveHalt_rxLen (s : State) : (leaveHalt s).rxLen = s.rxLen := rfl
@[simp] theorem leaveHalt_txLen (s : State) : (leaveHalt s).txLen = s.txLen := rfl
@[simp] theorem leaveHalt_argIp (s : State) : (leaveHalt s).argIp = s.argIp := rfl
@[simp] theorem leaveHalt_lkInfo (s : State) : (leaveHalt s).lkInfo = s.lkInfo := rfl
@[simp] theorem leaveHalt_lkMacHi (s : State) : (leaveHalt s).lkMacHi = s.lkMacHi := rfl
@[simp] theorem leaveHalt_lkMacLo (s : State) : (leaveHalt s).lkMacLo = s.lkMacLo := rfl
@[simp] theorem leaveHalt_csumResult (s : State) : (leaveHalt s).csumResult = s.csumResult := rfl
@[simp] theorem leaveHalt_mem (s : State) : (leaveHalt s).mem = s.mem := rfl
@[simp] theorem leaveHalt_host (s : State) : (leaveHalt s).host = s.host := rfl
@[simp] theorem leaveHalt_channel (s : State) : (leaveHalt s).channel = s.channel := rfl
@[simp] theorem leaveHalt_sent (s : State) : (leaveHalt s).sent = s.sent := rfl
@[simp] theorem leaveHalt_rdata (s : State) : (leaveHalt s).rdata = s.rdata := rfl
@[simp] theorem leaveHalt_epoch (s : State) : (leaveHalt s).epoch = s.epoch := rfl
@[simp] theorem leaveHalt_draws (s : State) : (leaveHalt s).draws = s.draws := rfl

/-! ## handOver -/

@[simp] theorem handOver_cfg (out : Bytes) (s : State) : (handOver out s).cfg = s.cfg := rfl
@[simp] theorem handOver_cache (out : Bytes) (s : State) : (handOver out s).cache = s.cache := rfl
@[simp] theorem handOver_cacheCount (out : Bytes) (s : State) : (handOver out s).cacheCount = s.cacheCount := rfl
@[simp] theorem handOver_engine (out : Bytes) (s : State) : (handOver out s).engine = s.engine := rfl
@[simp] theorem handOver_halted (out : Bytes) (s : State) : (handOver out s).halted = s.halted := rfl
@[simp] theorem handOver_status (out : Bytes) (s : State) : (handOver out s).status = s.status := rfl
@[simp] theorem handOver_rxLen (out : Bytes) (s : State) : (handOver out s).rxLen = s.rxLen := rfl
@[simp] theorem handOver_txLen (out : Bytes) (s : State) : (handOver out s).txLen = BitVec.ofNat 16 out.length := rfl
@[simp] theorem handOver_argIp (out : Bytes) (s : State) : (handOver out s).argIp = s.argIp := rfl
@[simp] theorem handOver_lkInfo (out : Bytes) (s : State) : (handOver out s).lkInfo = s.lkInfo := rfl
@[simp] theorem handOver_lkMacHi (out : Bytes) (s : State) : (handOver out s).lkMacHi = s.lkMacHi := rfl
@[simp] theorem handOver_lkMacLo (out : Bytes) (s : State) : (handOver out s).lkMacLo = s.lkMacLo := rfl
@[simp] theorem handOver_csumResult (out : Bytes) (s : State) : (handOver out s).csumResult = s.csumResult := rfl
@[simp] theorem handOver_mem (out : Bytes) (s : State) : (handOver out s).mem = memSetBytes s.mem txBase out := rfl
@[simp] theorem handOver_host (out : Bytes) (s : State) : (handOver out s).host = s.host := rfl
@[simp] theorem handOver_channel (out : Bytes) (s : State) : (handOver out s).channel = .ok := rfl
@[simp] theorem handOver_sent (out : Bytes) (s : State) : (handOver out s).sent = s.sent ++ [⟨out, s.channel.accepts out.length⟩] := rfl
@[simp] theorem handOver_rdata (out : Bytes) (s : State) : (handOver out s).rdata = s.rdata := rfl
@[simp] theorem handOver_epoch (out : Bytes) (s : State) : (handOver out s).epoch = s.epoch := rfl
@[simp] theorem handOver_draws (out : Bytes) (s : State) : (handOver out s).draws = s.draws := rfl

/-! ## applyReset -/

@[simp] theorem applyReset_cfg (s : State) : (applyReset s).cfg = s.cfg := rfl
@[simp] theorem applyReset_cache (s : State) : (applyReset s).cache = emptyCache s.cfg := rfl
@[simp] theorem applyReset_cacheCount (s : State) : (applyReset s).cacheCount = 0#32 := rfl
@[simp] theorem applyReset_engine (s : State) : (applyReset s).engine = .idle := rfl
@[simp] theorem applyReset_halted (s : State) : (applyReset s).halted = false := rfl
@[simp] theorem applyReset_status (s : State) : (applyReset s).status = 0#16 := rfl
@[simp] theorem applyReset_rxLen (s : State) : (applyReset s).rxLen = 0#16 := rfl
@[simp] theorem applyReset_txLen (s : State) : (applyReset s).txLen = 0#16 := rfl
@[simp] theorem applyReset_argIp (s : State) : (applyReset s).argIp = 0#32 := rfl
@[simp] theorem applyReset_lkInfo (s : State) : (applyReset s).lkInfo = 0#32 := rfl
@[simp] theorem applyReset_lkMacHi (s : State) : (applyReset s).lkMacHi = 0#16 := rfl
@[simp] theorem applyReset_lkMacLo (s : State) : (applyReset s).lkMacLo = 0#32 := rfl
@[simp] theorem applyReset_csumResult (s : State) : (applyReset s).csumResult = 0#16 := rfl
@[simp] theorem applyReset_mem (s : State) : (applyReset s).mem = [] := rfl
@[simp] theorem applyReset_host (s : State) : (applyReset s).host = s.host := rfl
@[simp] theorem applyReset_channel (s : State) : (applyReset s).channel = s.channel := rfl
@[simp] theorem applyReset_sent (s : State) : (applyReset s).sent = s.sent := rfl
@[simp] theorem applyReset_rdata (s : State) : (applyReset s).rdata = s.rdata := rfl
@[simp] theorem applyReset_epoch (s : State) : (applyReset s).epoch = s.epoch + 1 := rfl
@[simp] theorem applyReset_draws (s : State) : (applyReset s).draws = s.draws := rfl

end Sys2Proof.Laws
end

