-- ==== Sys2Proof/Laws/Memory.lean ====
section
/-! SUPPORT. Laws of the buffer cells: read after write, what a write leaves alone, and the canonical form. -/

namespace Sys2Proof.Laws
open Sys2Proof.Machine

theorem memGet_memSet_same (m : Memory) (a : Nat) (b : Byte) : memGet (memSet m a b) a = some b := by
  induction m with
  | nil => simp [memSet, memGet]
  | cons c m ih =>
    obtain ⟨k, v⟩ := c
    simp only [memSet]
    split_ifs with h1 h2
    · simp [memGet]
    · simp [memGet]
    · simp [memGet, h2, ih]

theorem memGet_memSet_other (m : Memory) (a x : Nat) (b : Byte) (h : x ≠ a) :
    memGet (memSet m a b) x = memGet m x := by
  induction m with
  | nil => simp [memSet, memGet, h]
  | cons c m ih =>
    obtain ⟨k, v⟩ := c
    simp only [memSet]
    split_ifs with h1 h2
    · simp [memGet, h]
    · subst h2; simp [memGet, h]
    · simp only [memGet, ih]

/-- What every cell holds after consecutive cells are written. -/
theorem memGet_memSetBytes (B : Bytes) (m : Memory) (a x : Nat) :
    memGet (memSetBytes m a B) x = if a ≤ x ∧ x < a + B.length then B[x - a]? else memGet m x := by
  induction B generalizing m a with
  | nil => simp [memSetBytes]
  | cons b B ih =>
    simp only [memSetBytes, ih, List.length_cons]
    by_cases h1 : x = a
    · subst h1
      rw [if_neg (by omega), if_pos (by omega), memGet_memSet_same]
      simp
    · by_cases h2 : a + 1 ≤ x ∧ x < a + 1 + B.length
      · rw [if_pos h2, if_pos (by omega), show x - a = (x - (a + 1)) + 1 by omega]
        simp
      · rw [if_neg h2, if_neg (by omega), memGet_memSet_other _ _ _ _ h1]

theorem memGet_memSetBytes_outside (B : Bytes) (m : Memory) (a x : Nat) (h : x < a ∨ a + B.length ≤ x) :
    memGet (memSetBytes m a B) x = memGet m x := by
  rw [memGet_memSetBytes, if_neg (by omega)]

/-- The offsets a write leaves listed. -/
theorem mem_memSet (m : Memory) (a : Nat) (b : Byte) (c : Host.Cell) (h : c ∈ memSet m a b) :
    c = (a, b) ∨ c ∈ m := by
  induction m with
  | nil => simpa [memSet] using h
  | cons d m ih =>
    obtain ⟨k, v⟩ := d
    simp only [memSet] at h
    split_ifs at h with h1 h2
    · simpa using h
    · rcases List.mem_cons.1 h with h | h
      · exact .inl h
      · exact .inr (List.mem_cons_of_mem _ h)
    · rcases List.mem_cons.1 h with h | h
      · exact .inr (by simp [h])
      · rcases ih h with h | h
        · exact .inl h
        · exact .inr (List.mem_cons_of_mem _ h)

/-- Every memory write keeps the canonical form. -/
theorem memSet_wf (m : Memory) (a : Nat) (b : Byte) (h : Memory.wf m) : Memory.wf (memSet m a b) := by
  induction m with
  | nil => simp [memSet, Memory.wf]
  | cons d m ih =>
    obtain ⟨k, v⟩ := d
    simp only [Memory.wf, List.map_cons, List.pairwise_cons, List.mem_map, forall_exists_index, and_imp] at h ih ⊢
    simp only [memSet]
    split_ifs with h1 h2
    · simp only [List.map_cons, List.pairwise_cons, List.mem_cons, List.mem_map]
      refine ⟨?_, ?_, h.2⟩
      · rintro x (rfl | ⟨c, hc, rfl⟩)
        · exact h1
        · exact lt_trans h1 (h.1 _ c hc rfl)
      · rintro x ⟨c, hc, rfl⟩
        exact h.1 _ c hc rfl
    · subst h2
      simp only [List.map_cons, List.pairwise_cons, List.mem_map, forall_exists_index, and_imp]
      exact h
    · simp only [List.map_cons, List.pairwise_cons, List.mem_map]
      refine ⟨?_, ih h.2⟩
      rintro x ⟨c, hc, rfl⟩
      rcases mem_memSet m a b c hc with rfl | hc
      · omega
      · exact h.1 _ c hc rfl

theorem memSetBytes_wf (B : Bytes) (m : Memory) (a : Nat) (h : Memory.wf m) : Memory.wf (memSetBytes m a B) := by
  induction B generalizing m a with
  | nil => exact h
  | cons b B ih => exact ih _ _ (memSet_wf m a b h)

/-- The offsets that consecutive writes leave listed. -/
theorem mem_memSetBytes (B : Bytes) (m : Memory) (a : Nat) (c : Host.Cell) (h : c ∈ memSetBytes m a B) :
    (a ≤ c.1 ∧ c.1 < a + B.length) ∨ c ∈ m := by
  induction B generalizing m a with
  | nil => exact .inr h
  | cons b B ih =>
    rcases ih _ _ h with h | h
    · exact .inl (by simp only [List.length_cons]; omega)
    · rcases mem_memSet m a b c h with rfl | h
      · exact .inl (by simp)
      · exact .inr h

/-- The canonical form of memory at reset. -/
theorem reset_mem_wf (c : Config) : Memory.wf (State.resetOf c).mem := List.Pairwise.nil

/-! ## Buffer bytes -/

@[simp] theorem bufBytes_length (s : State) (base n : Nat) : (bufBytes s base n).length = n := by
  simp [bufBytes]

@[simp] theorem rxFrame_length (s : State) : (rxFrame s).length = s.rxLen.toNat := bufBytes_length _ _ _

@[simp] theorem txFrame_length (s : State) : (txFrame s).length = s.txLen.toNat := bufBytes_length _ _ _

/-- Two states whose cells in a range agree have the same buffer bytes there. -/
theorem bufBytes_congr (s t : State) (base n : Nat) (he : t.epoch = s.epoch)
    (h : ∀ i, i < n → memGet t.mem (base + i) = memGet s.mem (base + i)) :
    bufBytes t base n = bufBytes s base n := by
  simp only [bufBytes, bufByte, he]
  apply List.map_congr_left
  intro i hi
  rw [h i (List.mem_range.1 hi)]

/-- A state with the same cells, `RX_LEN` and buffer draw has the same received frame. -/
theorem rxFrame_congr (s t : State) (hm : t.mem = s.mem) (hr : t.rxLen = s.rxLen) (he : t.epoch = s.epoch) :
    rxFrame t = rxFrame s := by
  unfold rxFrame
  rw [hr]
  exact bufBytes_congr s t _ _ he fun _ _ => by rw [hm]

/-- Handing a frame over leaves `RXBUF` alone. -/
@[simp] theorem rxFrame_handOver (out : Bytes) (s : State) : rxFrame (handOver out s) = rxFrame s := by
  unfold rxFrame
  refine bufBytes_congr _ _ _ _ rfl fun i hi => ?_
  have hlt := s.rxLen.isLt
  simp only [handOver_rxLen] at hi
  rw [handOver_mem, memGet_memSetBytes_outside]
  simp only [rxBase, txBase]
  omega

/-- A frame handed over is the transmitted frame (R148). -/
theorem txFrame_handOver (out : Bytes) (s : State) (h : out.length < 65536) : txFrame (handOver out s) = out := by
  apply List.ext_getElem
  · simp [Nat.mod_eq_of_lt h]
  · intro i h1 h2
    simp only [txFrame, bufBytes, bufByte, handOver_mem, List.getElem_map, List.getElem_range,
      memGet_memSetBytes]
    rw [if_pos (by omega), show txBase + i - txBase = i by omega, List.getElem?_eq_getElem h2]
    rfl

@[simp] theorem rxFrame_finish (r : Reason) (s : State) : rxFrame (finish r s) = rxFrame s :=
  rxFrame_congr _ _ rfl rfl rfl

@[simp] theorem txFrame_finish (r : Reason) (s : State) : txFrame (finish r s) = txFrame s := rfl

@[simp] theorem txFrame_enterHalt (s : State) : txFrame (enterHalt s) = txFrame s := rfl

@[simp] theorem rxFrame_beginCommand (s : State) : rxFrame (beginCommand s) = rxFrame s := rfl

@[simp] theorem rxFrame_withTxLen (s : State) (v : Half) : rxFrame { s with txLen := v } = rxFrame s := rfl

end Sys2Proof.Laws
end

