-- ==== Sys2Proof/Laws/Ops.lean ====
section
/-! SUPPORT. Laws of the shared operations: the operands of the dispatch rows, the learn, transmission, and how a frame's
processing ends. Each says once everything the operation can do. -/

namespace Sys2Proof.Laws
open Sys2Proof.Machine

@[simp] theorem orFault_ok {α : Type} (a : α) (k : α → StepResult) : orFault (.ok a) k = k a := rfl

/-- A result behind a decode is a next state only when the decode succeeded. -/
theorem orFault_next {α : Type} {r : Except Fault α} {k : α → StepResult} {t : State} (h : orFault r k = .next t) :
    ∃ a, r = .ok a ∧ k a = .next t := by
  cases r with
  | ok a => exact ⟨a, rfl, h⟩
  | error f => cases h

/-! ## The operands -/

theorem ethOperand_ok {s : State} (h : 14 ≤ s.rxLen.toNat) : ethOperand s = .ok (ethOf (rxFrame s)) :=
  decodeEth_ok (by simpa using h)

/-- A frame holds an ARP message: an Ethernet header and 28 bytes (R140, R160). -/
theorem arpOperand_ok {s : State} (h : 42 ≤ s.rxLen.toNat) :
    arpOperand s = .ok (ethOf (rxFrame s), arpOf ((rxFrame s).drop 14)) := by
  have h1 : decodeArp (ethOf (rxFrame s)).payload = .ok (arpOf ((rxFrame s).drop 14)) :=
    decodeArp_ok (by simp [ethOf]; omega)
  simp only [arpOperand, ethOperand_ok (show 14 ≤ s.rxLen.toNat by omega), bind, Except.bind, h1, pure, Except.pure]

theorem arpOperand_inv {s : State} {x : EthView × ArpView} (h : arpOperand s = .ok x) :
    42 ≤ s.rxLen.toNat ∧ x = (ethOf (rxFrame s), arpOf ((rxFrame s).drop 14)) := by
  have hw := h
  unfold arpOperand ethOperand at h
  simp only [bind, Except.bind] at h
  split at h
  · cases h
  rename_i e he
  obtain ⟨h1, rfl⟩ := decodeEth_inv he
  split at h
  · cases h
  rename_i a ha
  obtain ⟨h2, -⟩ := decodeArp_inv ha
  have h3 : 42 ≤ s.rxLen.toNat := by
    simp only [ethOf, List.length_drop, rxFrame_length] at h2
    omega
  rw [arpOperand_ok h3, Except.ok.injEq] at hw
  exact ⟨h3, hw.symm⟩

theorem datagramOperand_ok {s : State} (h : holdsDatagram (rxFrame s)) :
    datagramOperand s = .ok (datagramOf (rxFrame s)) := by
  have h1 : 14 ≤ s.rxLen.toNat := by simpa using h.1
  simp only [datagramOperand, ethOperand_ok h1, bind, Except.bind, decodeDatagram_ok h]

theorem datagramOperand_inv {s : State} {d : Datagram} (h : datagramOperand s = .ok d) :
    holdsDatagram (rxFrame s) ∧ d = datagramOf (rxFrame s) := by
  unfold datagramOperand ethOperand at h
  simp only [bind, Except.bind] at h
  split at h
  · cases h
  rename_i e he
  obtain ⟨h1, rfl⟩ := decodeEth_inv he
  exact decodeDatagram_inv h1 h

theorem tcpOperand_ok {s : State} (h : holdsDatagram (rxFrame s))
    (h' : 20 ≤ (datagramOf (rxFrame s)).payload.length) :
    tcpOperand s = .ok (datagramOf (rxFrame s), tcpOf (datagramOf (rxFrame s)).payload) := by
  simp only [tcpOperand, datagramOperand_ok h, bind, Except.bind, decodeTcp_ok h', pure, Except.pure]

theorem tcpOperand_inv {s : State} {x : Datagram × TcpView} (h : tcpOperand s = .ok x) :
    holdsDatagram (rxFrame s) ∧ 20 ≤ (datagramOf (rxFrame s)).payload.length
      ∧ x = (datagramOf (rxFrame s), tcpOf (datagramOf (rxFrame s)).payload) := by
  have hw := h
  unfold tcpOperand at h
  simp only [bind, Except.bind] at h
  split at h
  · cases h
  rename_i d hd
  obtain ⟨h1, rfl⟩ := datagramOperand_inv hd
  split at h
  · cases h
  rename_i t ht
  obtain ⟨h2, -⟩ := decodeTcp_inv ht
  rw [tcpOperand_ok h1 h2, Except.ok.injEq] at hw
  exact ⟨h1, h2, hw.symm⟩

/-! ## The ARP cache -/

/-- What a lookup that finds an index says (R165). -/
theorem lookup_some {cache : List Entry} {ip : Word} {i : Nat} (h : lookup cache ip = some i) :
    i < cache.length ∧ (cache.getD i Entry.empty).state ≠ .free ∧ (cache.getD i Entry.empty).ip = ip := by
  obtain ⟨hi, ha, -⟩ := List.findIdx?_eq_some_iff_getElem.1 h
  refine ⟨hi, ?_⟩
  rw [List.getD_eq_getElem _ _ hi]
  simpa [Entry.answers] using ha

/-- What a lookup that finds nothing says (R165). -/
theorem lookup_none {cache : List Entry} {ip : Word} (h : lookup cache ip = none) :
    ∀ e ∈ cache, e.state ≠ .free → e.ip ≠ ip := by
  intro e he hs hip
  have h1 := List.findIdx?_eq_none_iff.1 h e he
  simp [Entry.answers, hs, hip] at h1

/-- Everything a successful learn can be: a merge (R166, R169), an append under `INF`, or a Resolved entry in the lowest Free
slot (R167). -/
theorem learn_ok {arp : ArpView} {s l : State} (h : learn arp s = .ok l) :
    (∃ i, lookup s.cache arp.sip = some i ∧ (s.cache.getD i Entry.empty).hwtype = arp.hwtype
        ∧ l = { s with cache := s.cache.set i { s.cache.getD i Entry.empty with mac := arp.smac } })
    ∨ (lookup s.cache arp.sip = none ∧ s.cfg.arpCapacity = none
        ∧ l = { s with cache := s.cache ++ [Entry.learned arp.sip arp.hwtype arp.smac],
                       cacheCount := countUp s.cacheCount })
    ∨ (∃ n j, lookup s.cache arp.sip = none ∧ s.cfg.arpCapacity = some n ∧ freeIndex s.cache = some j
        ∧ l = { s with cache := s.cache.set j (Entry.learned arp.sip arp.hwtype arp.smac),
                       cacheCount := countUp s.cacheCount }) := by
  unfold learn at h
  split at h
  · rename_i i hi
    refine .inl ⟨i, hi, ?_⟩
    simp only at h
    split_ifs at h with hw
    exact ⟨hw, (Except.ok.inj h).symm⟩
  · rename_i hn
    refine .inr ?_
    unfold insertEntry at h
    split at h
    · rename_i hc
      exact .inl ⟨hn, hc, (Except.ok.inj h).symm⟩
    · rename_i n hc
      refine .inr ⟨n, ?_⟩
      split at h
      · cases h
      · rename_i j hj
        exact ⟨j, hn, hc, hj, (Except.ok.inj h).symm⟩

/-- Everything a failed learn can be: a conflict (R166) or a full cache (R167). -/
theorem learn_error {arp : ArpView} {s : State} {r : Reason} (h : learn arp s = .error r) :
    (∃ i, lookup s.cache arp.sip = some i ∧ (s.cache.getD i Entry.empty).hwtype ≠ arp.hwtype
        ∧ r = .arpCacheConflict)
    ∨ (∃ n, lookup s.cache arp.sip = none ∧ s.cfg.arpCapacity = some n ∧ freeIndex s.cache = none
        ∧ r = .arpCacheFull) := by
  unfold learn at h
  split at h
  · rename_i i hi
    refine .inl ⟨i, hi, ?_⟩
    simp only at h
    split_ifs at h with hw
    exact ⟨hw, (Except.error.inj h).symm⟩
  · rename_i hn
    refine .inr ?_
    unfold insertEntry at h
    split at h
    · cases h
    · rename_i n hc
      refine ⟨n, hn, hc, ?_⟩
      split at h
      · rename_i hf
        exact ⟨hf, (Except.error.inj h).symm⟩
      · cases h

/-- A learn changes the cache and `CACHE_COUNT` only. -/
theorem learn_frame {arp : ArpView} {s l : State} (h : learn arp s = .ok l) :
    l = { s with cache := l.cache, cacheCount := l.cacheCount } := by
  rcases learn_ok h with ⟨i, -, -, rfl⟩ | ⟨-, -, rfl⟩ | ⟨n, j, -, -, -, rfl⟩ <;> rfl

/-! ## Replies -/

theorem replyFrame_length (c : Config) (eth : EthView) (Q : Bytes) : (replyFrame c eth Q).length = 14 + Q.length := by
  simp [replyFrame, ethEncode]; omega

theorem arpReplyMessage_length (c : Config) (a : ArpView) : (arpReplyMessage c a).length = 28 := by
  simp [arpReplyMessage, arpEncode]

theorem turnaroundHeader_length (d : Datagram) (h : 20 ≤ d.header.length) :
    (turnaroundHeader d).length = d.header.length := by
  have h1 : (writeU32 d.header 12 d.ip.daddr).length = d.header.length := writeU32_length _ _ _ (by omega)
  have h2 : (writeU32 (writeU32 d.header 12 d.ip.daddr) 16 d.ip.saddr).length = d.header.length := by
    rw [writeU32_length _ _ _ (by omega), h1]
  have h3 : (writeU16 (writeU32 (writeU32 d.header 12 d.ip.daddr) 16 d.ip.saddr) 10 0#16).length = d.header.length := by
    rw [writeU16_length _ _ _ (by omega), h2]
  unfold turnaroundHeader
  rw [writeU16_length _ _ _ (by omega), h3]

theorem constructChecksum_length (R : Bytes) (c : Nat) (h : c + 2 ≤ R.length) :
    (constructChecksum R c).length = R.length := by
  have h1 : (writeU16 R c 0#16).length = R.length := writeU16_length _ _ _ h
  unfold constructChecksum
  rw [writeU16_length _ _ _ (by omega), h1]

theorem constructTcpChecksum_length (a b : Word) (p : Byte) (T : Bytes) (h : 18 ≤ T.length) :
    (constructTcpChecksum a b p T).length = T.length := by
  have h1 : (writeU16 T 16 0#16).length = T.length := writeU16_length _ _ _ h
  unfold constructTcpChecksum
  rw [writeU16_length _ _ _ (by omega), h1]

theorem echoReply_length (M : Bytes) (h : 4 ≤ M.length) : (echoReply M).length = M.length := by
  have h1 : (splice M 0 (u8 0#8)).length = M.length := splice_length _ _ _ (by simp; omega)
  unfold echoReply
  rw [constructChecksum_length _ _ (by omega), h1]

theorem swapPorts_length (t : TcpView) (T : Bytes) (h : 4 ≤ T.length) : (swapPorts t T).length = T.length := by
  have h1 : (writeU16 T 0 t.dport).length = T.length := writeU16_length _ _ _ (by omega)
  unfold swapPorts
  rw [writeU16_length _ _ _ (by omega), h1]

theorem echoSegment_length (d : Datagram) (t : TcpView) (h : 20 ≤ d.payload.length) :
    (echoSegment d t).length = d.payload.length := by
  have h1 := swapPorts_length t d.payload (by omega)
  unfold echoSegment
  rw [constructTcpChecksum_length _ _ _ _ (by omega), h1]

theorem synAckSegment_length (c : Config) (d : Datagram) (t : TcpView) (f : Byte) (h : 20 ≤ d.payload.length) :
    (synAckSegment c d t f).length = d.payload.length := by
  have h1 := swapPorts_length t d.payload (by omega)
  have h2 : (writeU32 (swapPorts t d.payload) 4 c.tcpIsn).length = d.payload.length := by
    rw [writeU32_length _ _ _ (by omega), h1]
  have h3 : (writeU32 (writeU32 (swapPorts t d.payload) 4 c.tcpIsn) 8 (t.seq + 1#32)).length = d.payload.length := by
    rw [writeU32_length _ _ _ (by omega), h2]
  have h4 : (splice (writeU32 (writeU32 (swapPorts t d.payload) 4 c.tcpIsn) 8 (t.seq + 1#32)) 13
      (u8 (f ||| ackBit))).length = d.payload.length := by
    rw [splice_length _ _ _ (by simp; omega), h3]
  unfold synAckSegment
  rw [constructTcpChecksum_length _ _ _ _ (by omega), h4]

/-- The frame that a turnaround with a payload of the received length hands over is `14 + totlen` bytes (R199). -/
theorem turnaroundFrame_length {F : Bytes} (c : Config) (h : holdsDatagram F) (Q : Bytes)
    (hQ : Q.length = (datagramOf F).payload.length) :
    (replyFrame c (datagramOf F).eth (turnaroundHeader (datagramOf F) ++ Q)).length = 14 + totalLen (F.drop 14) := by
  obtain ⟨hl, hp⟩ := datagramOf_lengths h
  obtain ⟨h1, h2, h3, h4⟩ := h
  rw [replyFrame_length, List.length_append, turnaroundHeader_length _ (by omega), hQ]
  omega

/-! ## Transmission -/

/-- Everything a transmission can be: the channel accepts the frame (R148), or refuses it and the block halts (R149). -/
theorem transmit_cases (out : Bytes) (r : Reason) (s : State) :
    (s.channel.accepts out.length = true ∧ transmit out r s = .next (finish r (handOver out s)))
    ∨ (s.channel.accepts out.length = false ∧ transmit out r s = .next (enterHalt (handOver out s))) := by
  unfold transmit
  cases s.channel.accepts out.length <;> simp

/-! ## How the processing of a frame ends -/

/-- The state after the ARP step 2, if the frame reaches it (R172): unchanged, or changed by one learn of an Ethernet
sender. -/
def Learned (s l : State) : Prop := l = s ∨ ∃ arp : ArpView, arp.hwtype = 1#16 ∧ learn arp s = .ok l

/-- How the processing of a frame ends: quietly, with a drop (the cache untouched) or a consumption, or with one frame, no
longer than the received one, handed to the channel (R13, R148, R303). -/
inductive FrameEnd (s : State) : StepResult → Prop
  | dropped (r : Reason) (h : reasonKind r = .dropped) : FrameEnd s (.next (finish r s))
  | consumed (l : State) (r : Reason) (hl : Learned s l) (h : reasonKind r = .consumed) : FrameEnd s (.next (finish r l))
  | sent (l : State) (out : Bytes) (r : Reason) (hl : Learned s l) (h : reasonKind r = .replied)
      (hlen : out.length ≤ s.rxLen.toNat) : FrameEnd s (transmit out r l)

theorem Learned.rxLen {s l : State} (h : Learned s l) : l.rxLen = s.rxLen := by
  rcases h with rfl | ⟨arp, -, h⟩
  · rfl
  · rw [learn_frame h]

theorem Learned.rxFrame {s l : State} (h : Learned s l) : rxFrame l = rxFrame s := by
  rcases h with rfl | ⟨arp, -, h⟩
  · rfl
  · rw [learn_frame h]
    rfl

/-- The end of an ARP row, on a frame that holds an ARP message. -/
theorem dispatchArp_end {s l : State} (op : Half) (hl : Learned s l) (h : 42 ≤ s.rxLen.toNat) :
    FrameEnd s (dispatchArp op l) := by
  unfold dispatchArp
  split_ifs
  · unfold execArpRequest
    rw [arpOperand_ok (by rw [hl.rxLen]; exact h)]
    simp only [orFault_ok]
    split_ifs
    · exact .consumed l _ hl rfl
    · refine .sent l _ _ hl rfl ?_
      rw [replyFrame_length, arpReplyMessage_length]
      exact h
  · exact .consumed l _ hl rfl
  · exact .consumed l _ hl rfl

/-- The end of a frame that goes to the ARP Resolver. -/
theorem arpIncoming_end {s : State} (h : 14 ≤ s.rxLen.toNat) : FrameEnd s (arpIncoming ((rxFrame s).drop 14) s) := by
  unfold arpIncoming
  split_ifs with h1
  · exact .dropped _ rfl
  · have h42 : 28 ≤ ((rxFrame s).drop 14).length := by omega
    have hlen : 42 ≤ s.rxLen.toNat := by
      simp only [List.length_drop, rxFrame_length] at h42
      omega
    rw [readU16_ok (by omega), readU16_ok (by omega), decodeArp_ok h42]
    simp only [orFault_ok]
    split_ifs with h2 h3
    · exact .dropped _ rfl
    · exact .dropped _ rfl
    · split
      · rename_i r hr
        rcases learn_error hr with ⟨-, -, -, rfl⟩ | ⟨-, -, -, -, rfl⟩
        · exact .dropped _ rfl
        · exact .dropped _ rfl
      · rename_i l hl
        refine dispatchArp_end _ (.inr ⟨_, ?_, hl⟩) hlen
        simpa [arpOf] using h2

/-- The end of a turnaround. -/
theorem sendOutgoing_end {s : State} (h : holdsDatagram (rxFrame s)) (Q : Bytes) (r : Reason) (hr : reasonKind r = .replied)
    (hQ : Q.length = (datagramOf (rxFrame s)).payload.length) :
    FrameEnd s (sendOutgoing (datagramOf (rxFrame s)) Q r s) := by
  refine .sent s _ r (.inl rfl) hr ?_
  rw [turnaroundFrame_length _ h _ hQ]
  obtain ⟨h1, h2, h3, h4⟩ := h
  simp only [List.length_drop, rxFrame_length] at *
  omega

/-- The end of a datagram that goes to the ICMP Responder. -/
theorem execIpv4Icmp_end {s : State} (h : holdsDatagram (rxFrame s)) : FrameEnd s (execIpv4Icmp s) := by
  unfold execIpv4Icmp icmpIncoming
  rw [datagramOperand_ok h]
  simp only [orFault_ok]
  split_ifs with h1 h2
  · exact .dropped _ rfl
  · exact .dropped _ rfl
  · rw [decodeIcmp_ok (by omega)]
    simp only [orFault_ok]
    unfold dispatchIcmp
    split_ifs
    · unfold execIcmpEchoRequest
      rw [datagramOperand_ok h]
      simp only [orFault_ok]
      split_ifs
      · exact .dropped _ rfl
      · exact sendOutgoing_end h _ _ rfl (echoReply_length _ (by omega))
    · exact .consumed s _ (.inl rfl) rfl

/-- The end of a datagram that goes to the TCP Responder. -/
theorem execIpv4Tcp_end {s : State} (h : holdsDatagram (rxFrame s)) : FrameEnd s (execIpv4Tcp s) := by
  unfold execIpv4Tcp tcpIncoming
  rw [datagramOperand_ok h]
  simp only [orFault_ok]
  split_ifs with h1 h2
  · exact .dropped _ rfl
  · exact .dropped _ rfl
  · rw [decodeTcp_ok (by omega)]
    simp only [orFault_ok]
    unfold dispatchTcp
    split_ifs
    · unfold execTcpSyn
      rw [tcpOperand_ok h (by omega)]
      simp only [orFault_ok]
      exact sendOutgoing_end h _ _ rfl (synAckSegment_length _ _ _ _ (by omega))
    · unfold execTcpNonsyn
      split
      · exact .dropped _ rfl
      · rw [tcpOperand_ok h (by omega)]
        simp only [orFault_ok]
        exact sendOutgoing_end h _ _ rfl (echoSegment_length _ _ (by omega))

/-- The end of an IPv4 row, on a frame that holds a datagram. -/
theorem dispatchIpv4_end {s : State} (p : Byte) (h : holdsDatagram (rxFrame s)) : FrameEnd s (dispatchIpv4 p s) := by
  unfold dispatchIpv4
  split_ifs
  · exact execIpv4Icmp_end h
  · exact execIpv4Tcp_end h
  · exact .dropped _ rfl

/-- An `IHL` that passes R191 gives a header of at least 20 bytes. -/
theorem headerBytes_ge {ihl : BitVec 4} (h : ¬ ihl < 5#4) : 20 ≤ headerBytes ihl := by
  have h1 : ¬ ihl.toNat < 5 := h
  simp only [headerBytes]
  omega

/-- The end of a frame that goes to the IPv4 validator. -/
theorem ipv4Incoming_end {s : State} (h : 14 ≤ s.rxLen.toNat) :
    FrameEnd s (ipv4Incoming ((rxFrame s).drop 14) s) := by
  unfold ipv4Incoming
  split_ifs with h1
  · exact .dropped _ rfl
  · rw [readU8_ok (by omega), readU8_ok (by omega)]
    simp only [orFault_ok]
    split_ifs with h2 h3 h4
    · exact .dropped _ rfl
    · exact .dropped _ rfl
    · exact .dropped _ rfl
    · have h20 := headerBytes_ge h3
      unfold ipv4HeaderChecks
      split_ifs with h5
      · exact .dropped _ rfl
      · rw [slice_ok (Nat.zero_le _) (by omega), readU16_ok (by omega)]
        simp only [orFault_ok]
        split_ifs with h6 h7
        · exact .dropped _ rfl
        · exact .dropped _ rfl
        · have hd : holdsDatagram (rxFrame s) := by
            refine ⟨by simpa using h, h20, ?_, ?_⟩
            · exact Nat.le_of_not_lt fun hc => h7 (.inl hc)
            · exact Nat.le_of_not_lt fun hc => h7 (.inr hc)
          rw [decodeIpv4_ok h20 (Nat.le_of_not_lt h5)]
          simp only [orFault_ok]
          exact dispatchIpv4_end _ hd

/-- How the processing of any received frame ends (R271, R272, R341): never with a fault. -/
theorem frameIncoming_end (s : State) : FrameEnd s (frameIncoming s) := by
  unfold frameIncoming
  rw [rxFrame_length]
  split_ifs with h1
  · exact .dropped _ rfl
  · have h : 14 ≤ s.rxLen.toNat := by omega
    rw [ethOperand_ok h]
    simp only [orFault_ok]
    unfold dispatchEth
    split_ifs
    · unfold execEthArp
      rw [ethOperand_ok h]
      exact arpIncoming_end h
    · unfold execEthIpv4
      rw [ethOperand_ok h]
      exact ipv4Incoming_end h
    · exact .dropped _ rfl

end Sys2Proof.Laws
end

