-- ==== Sys2Proof/Laws/Host.lean ====
section
/-! SUPPORT. What each action of the host can do, said once: if it answers a next state, then it is one of these. -/

namespace Sys2Proof.Laws

open Sys2Proof.Machine

/-! ## What an offset names -/

theorem target_register (s : State) {off : Nat} (h : off < 0x10000) : target s off = .register := by
  unfold target rxBase
  rw [if_pos h]

theorem target_rx (s : State) {k : Nat} (h : k < s.cfg.maxFrame) : target s (0x10000 + k) = .rx := by
  unfold target rxBase
  rw [if_neg (by omega), if_pos (by omega)]

theorem target_tx (s : State) {k : Nat} (h : k < s.cfg.maxFrame) (hm : s.cfg.maxFrame ≤ 0xFFFF) :
    target s (0x20000 + k) = .tx := by
  unfold target rxBase txBase
  rw [if_neg (by omega), if_neg (by omega), if_neg (by omega), if_pos (by omega)]

theorem target_outside (s : State) {off : Nat} (h1 : 0x10000 + s.cfg.maxFrame ≤ off)
    (h2 : off < 0x20000 ∨ 0x20000 + s.cfg.maxFrame ≤ off) : target s off = .outside := by
  unfold target rxBase txBase
  rw [if_neg (by omega), if_neg (by omega)]
  split_ifs <;> first | rfl | omega

/-- The register at an offset has that offset. -/
theorem regAt_offset {off : Nat} {r : Reg} (h : regAt off = some r) : regOffset r = off := by
  unfold regAt at h
  simpa using List.find?_some h

/-! ## The channel's answer -/

@[simp] theorem accepts_ok (len : Nat) : ChannelReport.ok.accepts len = true := rfl
@[simp] theorem accepts_fail (len : Nat) : ChannelReport.fail.accepts len = false := rfl
@[simp] theorem accepts_unconnected (len : Nat) : ChannelReport.unconnected.accepts len = false := rfl
@[simp] theorem accepts_wrote (written len : Nat) : (ChannelReport.wrote written).accepts len = decide (len ≤ written) := rfl

/-! ## The host's actions -/

theorem unlessBusy_idle {off : Nat} {s : State} {k : StepResult} (h : s.engine = .idle) : unlessBusy off s k = k := by
  simp [unlessBusy, h]

theorem unlessBusy_busy {off : Nat} {s : State} {k : StepResult} (h : s.engine = .busy) :
    unlessBusy off s k = .refused (.writeWhileBusy off) := by
  simp [unlessBusy, h]

theorem unlessBusy_next {off : Nat} {s t : State} {k : StepResult} (h : unlessBusy off s k = .next t) :
    s.engine = .idle ∧ k = .next t := by
  cases he : s.engine with
  | idle => exact ⟨rfl, by rwa [unlessBusy_idle he] at h⟩
  | busy => rw [unlessBusy_busy he] at h; cases h

theorem deliverByte_specified {base off : Nat} {len : Half} {s : State} (h : off < base + len.toNat) :
    deliverByte base off len s = .next { s with rdata := (bufByte s off).setWidth 32 } := by
  rw [deliverByte, if_pos h]
  rfl

theorem deliverByte_free {base off : Nat} {len : Half} {s : State} (h : base + len.toNat ≤ off) :
    deliverByte base off len s
      = .next { s with draws := s.draws + 1, rdata := (Config.beyondLen s.draws off).setWidth 32 } := by
  rw [deliverByte, if_neg (by omega)]
  rfl

/-- A read changes nothing but what it delivers and the count of draws. -/
theorem hostRead_next {off : Nat} {size : AccessSize} {s t : State} (h : hostRead off size s = .next t) :
    t = { s with rdata := t.rdata, draws := t.draws } := by
  unfold hostRead deliverByte deliver at h
  split at h
  · split_ifs at h
    split at h <;> cases h <;> rfl
  · split_ifs at h <;> cases h <;> rfl
  · split_ifs at h <;> cases h <;> rfl
  · cases h

/-- A write does nothing, or issues a command, or writes `RX_LEN`, `ARG_IP` or one cell of `RXBUF`, the engine being idle. -/
theorem hostWrite_next {off : Nat} {size : AccessSize} {v : Word} {s t : State} (h : hostWrite off size v s = .next t) :
    t = s ∨ (s.engine = .idle ∧
      ((off = 0x000 ∧ size = .word ∧ exec (decodeCommand v) s = .next t)
        ∨ (off = 0x008 ∧ size = .word ∧ t = { s with rxLen := v.setWidth 16 })
        ∨ (off = 0x010 ∧ size = .word ∧ t = { s with argIp := v })
        ∨ (rxBase ≤ off ∧ off < rxBase + s.cfg.maxFrame ∧ size = .byte
            ∧ t = { s with mem := memSet s.mem off (v.setWidth 8) }))) := by
  unfold hostWrite at h
  split at h
  · split_ifs at h with hsz
    split at h
    · cases h
      exact .inl rfl
    · rename_i r hr
      have ho := regAt_offset hr
      cases r
      case cmd =>
        obtain ⟨hi, h⟩ := unlessBusy_next h
        exact .inr ⟨hi, .inl ⟨ho.symm, hsz.1, h⟩⟩
      case rxLen =>
        obtain ⟨hi, h⟩ := unlessBusy_next h
        cases h
        exact .inr ⟨hi, .inr (.inl ⟨ho.symm, hsz.1, rfl⟩)⟩
      case argIp =>
        obtain ⟨hi, h⟩ := unlessBusy_next h
        cases h
        exact .inr ⟨hi, .inr (.inr (.inl ⟨ho.symm, hsz.1, rfl⟩))⟩
      all_goals
        cases h
        exact .inl rfl
  · rename_i ht
    have hb : rxBase ≤ off ∧ off < rxBase + s.cfg.maxFrame := by
      unfold target at ht
      split_ifs at ht with h1 h2
      exact ⟨by omega, h2⟩
    split_ifs at h with hsz
    obtain ⟨hi, h⟩ := unlessBusy_next h
    cases h
    exact .inr ⟨hi, .inr (.inr (.inr ⟨hb.1, hb.2, hsz, rfl⟩))⟩
  · split_ifs at h
    cases h
    exact .inl rfl
  · cases h

/-- A `wrbuf` writes its bytes to `RXBUF`, which they fit, the engine being idle. -/
theorem hostWriteBuffer_next {off : Nat} {B : Bytes} {s t : State} (h : hostWriteBuffer off B s = .next t) :
    s.engine = .idle ∧ B.length ≤ s.cfg.maxFrame - off ∧ t = { s with mem := memSetBytes s.mem (rxBase + off) B } := by
  unfold hostWriteBuffer at h
  split_ifs at h with hl
  obtain ⟨hi, h⟩ := unlessBusy_next h
  cases h
  exact ⟨hi, hl, rfl⟩

/-- A step waits, or takes the host's next action from the queue and performs it. -/
theorem step_next {s t : State} (h : step s = .next t) :
    (s.host = [] ∧ t = s) ∨ ∃ a rest, s.host = a :: rest ∧ performHost a { s with host := rest } = .next t := by
  unfold step nextAction at h
  split at h
  · rename_i hs
    cases h
    exact .inl ⟨hs, rfl⟩
  · rename_i a rest hs
    exact .inr ⟨a, rest, hs, h⟩

end Sys2Proof.Laws
end

