-- ==== Sys2Proof/Laws/PerInstr.lean ====
section
/-! SUPPORT. The per-instruction family `EncodedLength`: an instruction's encoding is exactly as long as the field of its
level (30_encoding.md R70, R72, R74, R79, R83, R90), one lemma per instruction. -/

namespace Sys2Proof.Laws

/-- The encoding fills the field of the instruction's level. -/
def EncodedLength.Statement (i : Instr) : Prop := (encode i).length = i.level.width

theorem EncodedLength.ethArp : EncodedLength.Statement .ethArp := rfl
theorem EncodedLength.ethIpv4 : EncodedLength.Statement .ethIpv4 := rfl
theorem EncodedLength.ethOther (ethertype : Half) : EncodedLength.Statement (.ethOther ethertype) := rfl
theorem EncodedLength.arpRequest : EncodedLength.Statement .arpRequest := rfl
theorem EncodedLength.arpReply : EncodedLength.Statement .arpReply := rfl
theorem EncodedLength.arpOther (opcode : Half) : EncodedLength.Statement (.arpOther opcode) := rfl
theorem EncodedLength.ipv4Icmp : EncodedLength.Statement .ipv4Icmp := rfl
theorem EncodedLength.ipv4Tcp : EncodedLength.Statement .ipv4Tcp := rfl
theorem EncodedLength.ipv4Other (proto : Byte) : EncodedLength.Statement (.ipv4Other proto) := rfl
theorem EncodedLength.icmpEchoRequest : EncodedLength.Statement .icmpEchoRequest := rfl
theorem EncodedLength.icmpOther (type : Byte) : EncodedLength.Statement (.icmpOther type) := rfl
theorem EncodedLength.tcpSyn (flags : Byte) : EncodedLength.Statement (.tcpSyn flags) := rfl
theorem EncodedLength.tcpNonsyn (flags : Byte) : EncodedLength.Statement (.tcpNonsyn flags) := rfl
theorem EncodedLength.processFrame : EncodedLength.Statement .processFrame := rfl
theorem EncodedLength.cacheLookup : EncodedLength.Statement .cacheLookup := rfl
theorem EncodedLength.checksum : EncodedLength.Statement .checksum := rfl
theorem EncodedLength.restart : EncodedLength.Statement .restart := rfl
theorem EncodedLength.cmdIllegal (value : Word) : EncodedLength.Statement (.cmdIllegal value) := rfl

end Sys2Proof.Laws
end

