-- ==== Sys2Proof/Tests/Slice0.lean ====
section
/-! SUPPORT. Tests: the well-formedness smoke tests, the decoder on words written out from the spec's encodings, vectors of
95_test_vectors.md, `withFetchWord`, and one witness for each obligation that has hypotheses. -/

namespace Sys2Proof.Tests
open Sys2Proof.Machine

/-! ## Helpers -/

/-- The `n` big-endian bytes of a number: a hex string of the spec, read as a number. -/
def bytesOf : Nat → Nat → Bytes
  | 0, _ => []
  | n + 1, v => bytesOf n (v / 256) ++ [BitVec.ofNat 8 v]

/-- A block in a configuration, from reset, with a frame in `RXBUF`. -/
def loaded (c : Config) (F : Bytes) : State :=
  { State.resetOf c with mem := memSetBytes [] rxBase F, rxLen := BitVec.ofNat 16 F.length }

/-- One field of the next state. -/
def nextField {α : Type} (f : State → α) (r : StepResult) : Option α :=
  match r with
  | .next s => some (f s)
  | _ => none

/-- Whether a result is a next state with a property. -/
def nextIs (p : State → Bool) (r : StepResult) : Bool :=
  match r with
  | .next s => p s
  | _ => false

theorem exists_next {r : StepResult} {P : State → Prop} [DecidablePred P] (h : nextIs (fun t => decide (P t)) r = true) :
    ∃ t, r = .next t ∧ P t := by
  cases r with
  | next t => exact ⟨t, rfl, of_decide_eq_true h⟩
  | fault f => cases h
  | refused r => cases h

/-- Whether a decode succeeded with a property. -/
def okIs {ε α : Type} (p : α → Bool) (r : Except ε α) : Bool :=
  match r with
  | .ok a => p a
  | .error _ => false

theorem exists_ok {ε α : Type} {r : Except ε α} {P : α → Prop} [DecidablePred P]
    (h : okIs (fun a => decide (P a)) r = true) : ∃ a, r = .ok a ∧ P a := by
  cases r with
  | ok a => exact ⟨a, rfl, of_decide_eq_true h⟩
  | error e => cases h

/-- Whether a learn failed with a reason. -/
def failsWith (r : Reason) (x : Except Reason State) : Bool :=
  match x with
  | .ok _ => false
  | .error r' => decide (r' = r)

theorem failsWith_eq {r : Reason} {x : Except Reason State} (h : failsWith r x = true) : x = .error r := by
  cases x with
  | ok s => cases h
  | error r' => exact congrArg Except.error (of_decide_eq_true h)

/-- The configuration that answers only Requests for the device's own address (R174). -/
def ownIpOnly : Config := { Config.reference with arpOwnIpOnly := true }

/-- The configuration that drops segments without SYN (R245). -/
def nonsynDropped : Config := { Config.reference with tcpNonSyn := .drop }

/-- A configuration with room for one entry, and for a bare Ethernet header (R8, the smallest of each). -/
def smallest : Config := { Config.reference with arpCapacity := some 1, maxFrame := 14 }

/-- A configuration with room for one entry. -/
def oneEntry : Config := { Config.reference with arpCapacity := some 1 }

/-- The peer of the vectors, learned (ARP-1). -/
def peer : Entry := ⟨.resolved, 0x0A000001#32, 1#16, 0x0A0000000001#48⟩

/-- An entry of another hardware type for the peer's address (ARP-12). -/
def foreign : Entry := ⟨.resolved, 0x0A000001#32, 6#16, 0x0A0000000001#48⟩

/-- Another station, learned. -/
def other : Entry := ⟨.resolved, 0x0A000009#32, 1#16, 0x0A0000000009#48⟩

/-- A block whose cache holds entries. -/
def holding (es : List Entry) (s : State) : State := { s with cache := es, cacheCount := BitVec.ofNat 32 es.length }

/-- A block in the reference configuration with a frame in `RXBUF`. -/
def got (F : Bytes) : State := loaded Config.reference F

/-- The frames of 95_test_vectors.md that the tests use, by their identifiers. -/
def frameEmpty : Bytes := []
def frameARP1 : Bytes :=
  bytesOf 42 0xffffffffffff0a0000000001080600010800060400010a00000000010a0000010000000000000a000002
def frameARP3 : Bytes :=
  bytesOf 42 0xffffffffffff0a0000000001080600010800060400010a00000000010a0000010000000000000a000009
def frameARP3b : Bytes :=
  bytesOf 42 0xffffffffffff0a0000000001080600010800060400010a00000000010a0000010000000000000a000009
def frameARP4 : Bytes :=
  bytesOf 42 0x0200000000010a0000000005080600010800060400020a00000000050a0000050200000000010a000002
def frameARP5 : Bytes :=
  bytesOf 42 0xffffffffffff0a0000000001080600010800060400030a00000000010a0000010000000000000a000002
def frameARP6 : Bytes :=
  bytesOf 41 0xffffffffffff0a0000000001080600010800060400010a00000000010a0000010000000000000a0000
def frameARP7 : Bytes :=
  bytesOf 42 0xffffffffffff0a0000000001080600060800060400010a00000000010a0000010000000000000a000002
def frameARP8 : Bytes :=
  bytesOf 42 0xffffffffffff0a00000000010806000186dd060400010a00000000010a0000010000000000000a000002
def frameARP9 : Bytes :=
  bytesOf 42 0xffffffffffff0a0000000003080600010800060400010a00000000030a0000030000000000000a000002
def frameETH1 : Bytes :=
  bytesOf 13 0x00000000000000000000000000
def frameETH2 : Bytes :=
  bytesOf 14 0xffffffffffff0a00000000010806
def frameETH4 : Bytes :=
  bytesOf 42 0x0200000000010a0000000001060800010800060400010a00000000010a0000010000000000000a000002
def frameETH5 : Bytes :=
  bytesOf 0 0x0
def frameICMP1 : Bytes :=
  bytesOf 46 0x0200000000010a000000000108004500002000004000400126db0a0000010a000002080006fa1234000170696e67
def frameICMP2 : Bytes :=
  bytesOf 42 0x0200000000010a000000000108004500001c00004000400126df0a0000010a0000020800f7ff00000000
def frameICMP3 : Bytes :=
  bytesOf 41 0x0200000000010a000000000108004500001b00004000400126e00a0000010a0000020800f7ff000000
def frameICMP4 : Bytes :=
  bytesOf 37 0x0200000000010a000000000108004500001700004000400126e40a0000010a0000020800f7
def frameICMP5 : Bytes :=
  bytesOf 46 0x0200000000010a000000000108004500002000004000400126db0a0000010a000002080006fa1234000170696e68
def frameICMP6 : Bytes :=
  bytesOf 42 0x0200000000010a000000000108004500001c00004000400126df0a0000010a0000020000edca12340001
def frameICMP7 : Bytes :=
  bytesOf 45 0x0200000000010a000000000108004500001f00004000400126dc0a0000010a0000020805339500010002616263
def frameIP1 : Bytes :=
  bytesOf 33 0x0200000000010a000000000108004500002000004000400126db0a0000010a0000
def frameIP10 : Bytes :=
  bytesOf 42 0x0200000000010a000000000108004500001c00004000401126cf0a0000010a0000020000000000000000
def frameIP12 : Bytes :=
  bytesOf 50 0x0200000000010a000000000108004600002400004000400123d60a0000010a00000201010100080006fa1234000170696e67
def frameIP13 : Bytes :=
  bytesOf 34 0x0200000000010a000000000108004500001400004000400126e70a0000010a000002
def frameIP18 : Bytes :=
  bytesOf 46 0x0200000000010a000000000108004500002026db40004001ffff0a0000010a000002080006fa1234000170696e67
def frameIP2 : Bytes :=
  bytesOf 46 0x0200000000010a000000000108006500002000004000400106db0a0000010a000002080006fa1234000170696e67
def frameIP3 : Bytes :=
  bytesOf 46 0x0200000000010a000000000108004400002000004000400131dd0a0000010a000002080006fa1234000170696e67
def frameIP4 : Bytes :=
  bytesOf 46 0x0200000000010a000000000108004500002000004000000166db0a0000010a000002080006fa1234000170696e67
def frameIP6 : Bytes :=
  bytesOf 34 0x0200000000010a000000000108004600001800004000400125e30a0000010a000002
def frameIP7 : Bytes :=
  bytesOf 46 0x0200000000010a000000000108004500002000004000400127db0a0000010a000002080006fa1234000170696e67
def frameIP8 : Bytes :=
  bytesOf 46 0x0200000000010a000000000108004500006400004000400126970a0000010a000002080006fa1234000170696e67
def frameIP9 : Bytes :=
  bytesOf 46 0x0200000000010a000000000108004500001300004000400126e80a0000010a000002080006fa1234000170696e67
def frameTCP1 : Bytes :=
  bytesOf 54 0x0200000000010a000000000108004500002800004000400626ce0a0000010a0000029c40005000000064000000005002fffffeeb0000
def frameTCP12 : Bytes :=
  bytesOf 54 0x0200000000010a000000000108004500002800004000400626ce0a0000010a0000029c400050000000640000000050fffffffdee0000
def frameTCP2 : Bytes :=
  bytesOf 54 0x0200000000010a000000000108004500002800004000400626ce0a0000010a00000204d2162effffffff000000005003ffff80df0000
def frameTCP3 : Bytes :=
  bytesOf 56 0x0200000000010a000000000108004500002a00004000400626cc0a0000010a0000029c40005000000065000004015010ffff927000006869
def frameTCP4 : Bytes :=
  bytesOf 56 0x0200000000010a000000000108004500002a00004000400626cc0a0000010a0000029c40005000000065000004015010ffff927000006869
def frameTCP5 : Bytes :=
  bytesOf 53 0x0200000000010a000000000108004500002700004000400626cf0a0000010a0000029c40005000000064000000005002fffffeeb00
def frameTCP6 : Bytes :=
  bytesOf 54 0x0200000000010a000000000108004500002800004000400626ce0a0000010a0000029c40005000000064000000005002fffffeea0000

/-! ## Well-formedness: a term that each check refuses -/

theorem test_wf_refuses : (Instr.ethOther 0x0806#16).wf = false ∧ (Instr.ethOther 0x0800#16).wf = false
    ∧ (Instr.arpOther 1#16).wf = false ∧ (Instr.arpOther 2#16).wf = false ∧ (Instr.ipv4Other 1#8).wf = false
    ∧ (Instr.ipv4Other 6#8).wf = false ∧ (Instr.icmpOther 8#8).wf = false ∧ (Instr.tcpSyn 0x10#8).wf = false
    ∧ (Instr.tcpNonsyn 0x02#8).wf = false := by decide

theorem test_wf_refuses_commands : (Instr.cmdIllegal 1#32).wf = false ∧ (Instr.cmdIllegal 2#32).wf = false
    ∧ (Instr.cmdIllegal 3#32).wf = false ∧ (Instr.cmdIllegal 4#32).wf = false := by decide

/-! ## Decoding: words written out from 30_encoding.md R88, R85 and R90 -/

theorem test_decode_ethernet : decode .ethernet [0b00001000, 0b00000110] = .ok (.ethArp, [])
    ∧ decode .ethernet [0b00001000, 0b00000000] = .ok (.ethIpv4, [])
    ∧ decode .ethernet [0x86, 0xDD, 0x60] = .ok (.ethOther 0x86DD#16, [0x60]) := by decide

theorem test_decode_arp : decode .arp [0b00000000, 0b00000001] = .ok (.arpRequest, [])
    ∧ decode .arp [0b00000000, 0b00000010] = .ok (.arpReply, [])
    ∧ decode .arp [0x00, 0x03] = .ok (.arpOther 3#16, []) := by decide

theorem test_decode_ipv4 : decode .ipv4 [0b00000001] = .ok (.ipv4Icmp, []) ∧ decode .ipv4 [0b00000110] = .ok (.ipv4Tcp, [])
    ∧ decode .ipv4 [17] = .ok (.ipv4Other 17#8, []) := by decide

theorem test_decode_icmp : decode .icmp [0b00001000] = .ok (.icmpEchoRequest, [])
    ∧ decode .icmp [0] = .ok (.icmpOther 0#8, []) ∧ decode .icmp [3] = .ok (.icmpOther 3#8, []) := by decide

/-- The eight flags alone and together (95_test_vectors.md W2): only SYN, 0x02, selects. -/
theorem test_decode_tcp : decode .tcp [0b00000010] = .ok (.tcpSyn 2#8, []) ∧ decode .tcp [0b11111111] = .ok (.tcpSyn 255#8, [])
    ∧ decode .tcp [0b00000001] = .ok (.tcpNonsyn 1#8, []) ∧ decode .tcp [0b00000100] = .ok (.tcpNonsyn 4#8, [])
    ∧ decode .tcp [0b00010000] = .ok (.tcpNonsyn 16#8, []) ∧ decode .tcp [0b11111101] = .ok (.tcpNonsyn 0xFD#8, []) := by
  decide

theorem test_decode_command : decode .command [0, 0, 0, 1] = .ok (.processFrame, [])
    ∧ decode .command [0, 0, 0, 2] = .ok (.cacheLookup, []) ∧ decode .command [0, 0, 0, 3] = .ok (.checksum, [])
    ∧ decode .command [0, 0, 0, 4] = .ok (.restart, []) ∧ decode .command [0, 0, 0, 0] = .ok (.cmdIllegal 0#32, [])
    ∧ decode .command [1, 0, 0, 0] = .ok (.cmdIllegal 0x01000000#32, []) := by decide

theorem test_decode_refuses_short : decode .ethernet [0x08] = .error (.shortField .ethernet 1)
    ∧ decode .command [0, 0, 1] = .error (.shortField .command 3) := by decide

/-- The boundary encodings of 95_test_vectors.md W2. -/
theorem test_header_bits : ipVersion 0x45#8 = 4#4 ∧ ipIhl 0x45#8 = 5#4 ∧ ipIhl 0x4F#8 = 15#4
    ∧ ((arpEncode ⟨1#16, 0x0800#16, 6#8, 4#8, 2#16, 0#48, 0#32, 0#48, 0#32⟩).take 8) = [0, 1, 8, 0, 6, 4, 0, 2] := by decide

/-! ## The step runs the placed instruction -/

theorem test_fetch_arp_request :
    nextField (fun t => (t.status, t.txLen)) (step (State.reset.withFetchWord 16 1)) = some (0x0101#16, 42#16) := by
  decide +kernel

theorem test_fetch_tcp_syn :
    nextField (fun t => (t.status, t.txLen)) (step (State.reset.withFetchWord 8 2)) = some (0x0103#16, 54#16) := by
  decide +kernel

theorem test_fetch_restart :
    nextField (fun t => t.status) (step ({ State.reset with halted := true }.withFetchWord 32 4)) = some 0x060A#16 := by
  decide +kernel

/-! ## Vectors -/

/-- 95_test_vectors.md, vector ETH-2: 14 bytes, ethertype ARP, empty payload. -/
theorem test_ETH_2 :
    nextField (fun t => (t.status, txFrame t)) (exec .processFrame (loaded Config.reference frameETH2))
      = some (0x1320#16, []) := by
  decide +kernel

/-- 95_test_vectors.md, vector IP-12: `IHL = 6` with option bytes `01010100` (kept in the reply). -/
theorem test_IP_12 :
    nextField (fun t => (t.status, txFrame t)) (exec .processFrame (loaded Config.reference frameIP12))
      = some (0x0102#16, bytesOf 50
      0x0a000000000102000000000108004600002400004000400123d60a0000020a0000010101010000000efa1234000170696e67) := by
  decide +kernel

/-- 95_test_vectors.md, vector ETH-4: ethertype 0x0608 (byte-swapped ARP) with a valid ARP body. -/
theorem test_ETH_4 :
    nextField (fun t => (t.status, txFrame t)) (exec .processFrame (loaded Config.reference frameETH4))
      = some (0x2311#16, []) := by
  decide +kernel

/-- 95_test_vectors.md, vector ARP-1: Request from 10.0.0.1 for `DEV_IP`, broadcast. -/
theorem test_ARP_1 :
    nextField (fun t => (t.status, txFrame t)) (exec .processFrame (loaded Config.reference frameARP1))
      = some (0x0101#16, bytesOf 42
      0x0a0000000001020000000001080600010800060400020200000000010a0000020a00000000010a000001) := by
  decide +kernel

/-- 95_test_vectors.md, vector ARP-4: Reply from 10.0.0.5 / `0a:00:00:00:00:05` (unsolicited). -/
theorem test_ARP_4 :
    nextField (fun t => (t.status, txFrame t)) (exec .processFrame (loaded Config.reference frameARP4))
      = some (0x0204#16, []) := by
  decide +kernel

/-- 95_test_vectors.md, vector ARP-5: opcode 3. -/
theorem test_ARP_5 :
    nextField (fun t => (t.status, txFrame t)) (exec .processFrame (loaded Config.reference frameARP5))
      = some (0x0205#16, []) := by
  decide +kernel

/-- 95_test_vectors.md, vector ICMP-5: ICMP-1 with the last data byte changed (`67` → `68`). -/
theorem test_ICMP_5 :
    nextField (fun t => (t.status, txFrame t)) (exec .processFrame (loaded Config.reference frameICMP5))
      = some (0x3341#16, []) := by
  decide +kernel

/-- 95_test_vectors.md, vector TCP-6: checksum computed for destination 10.0.0.3. -/
theorem test_TCP_6 :
    nextField (fun t => (t.status, txFrame t)) (exec .processFrame (loaded Config.reference frameTCP6))
      = some (0x3351#16, []) := by
  decide +kernel

/-- 95_test_vectors.md, vector IP-10: protocol 17 (UDP). -/
theorem test_IP_10 :
    nextField (fun t => (t.status, txFrame t)) (exec .processFrame (loaded Config.reference frameIP10))
      = some (0x2337#16, []) := by
  decide +kernel

/-- 95_test_vectors.md, vector ICMP-7: type 8, code 5, odd `L = 11` (data "abc"). -/
theorem test_ICMP_7 :
    nextField (fun t => (t.status, txFrame t)) (exec .processFrame (loaded Config.reference frameICMP7))
      = some (0x0102#16, bytesOf 45
      0x0a000000000102000000000108004500001f00004000400126dc0a0000020a00000100053b9500010002616263) := by
  decide +kernel

/-- 95_test_vectors.md, vector IP-18: `id = 0x26DB`, `hcsum = 0xFFFF` (also validates; reply has `0x0000`). -/
theorem test_IP_18 :
    nextField (fun t => (t.status, txFrame t)) (exec .processFrame (loaded Config.reference frameIP18))
      = some (0x0102#16, bytesOf 46
      0x0a000000000102000000000108004500002026db4000400100000a0000020a00000100000efa1234000170696e67) := by
  decide +kernel

/-- 95_test_vectors.md, vector ICMP-6: type 0 (Echo Reply), valid checksum. -/
theorem test_ICMP_6 :
    nextField (fun t => (t.status, txFrame t)) (exec .processFrame (loaded Config.reference frameICMP6))
      = some (0x0207#16, []) := by
  decide +kernel

/-- 95_test_vectors.md, vector TCP-2: SYN\FIN, seq `0xFFFFFFFF`, 1234 → 5678. -/
theorem test_TCP_2 :
    nextField (fun t => (t.status, txFrame t)) (exec .processFrame (loaded Config.reference frameTCP2))
      = some (0x0103#16, bytesOf 54
      0x0a000000000102000000000108004500002800004000400626ce0a0000020a000001162e04d200000400000000005013ffff7ccf0000) := by
  decide +kernel

/-- 95_test_vectors.md, vector TCP-12: all eight flags set (SYN among them). -/
theorem test_TCP_12 :
    nextField (fun t => (t.status, txFrame t)) (exec .processFrame (loaded Config.reference frameTCP12))
      = some (0x0103#16, bytesOf 54
      0x0a000000000102000000000108004500002800004000400626ce0a0000020a00000100509c40000004000000006550fffffff9ed0000) := by
  decide +kernel

/-- 95_test_vectors.md, vector TCP-3: ACK with data "hi" (echoed, ports swapped). -/
theorem test_TCP_3 :
    nextField (fun t => (t.status, txFrame t)) (exec .processFrame (loaded Config.reference frameTCP3))
      = some (0x0103#16, bytesOf 56
      0x0a000000000102000000000108004500002a00004000400626cc0a0000020a00000100509c4000000065000004015010ffff927000006869) := by
  decide +kernel

/-- 95_test_vectors.md, vector ETH-5: `RX_LEN = 0`. -/
theorem test_ETH_5 :
    nextField (fun t => (t.status, txFrame t)) (exec .processFrame (loaded Config.reference frameETH5))
      = some (0x1310#16, []) := by
  decide +kernel

/-- 95_test_vectors.md, vector ARP-3b: same as ARP-3. -/
theorem test_ARP_3b :
    nextField (fun t => (t.status, txFrame t)) (exec .processFrame (loaded ownIpOnly frameARP3b))
      = some (0x0206#16, []) := by
  decide +kernel

/-- 95_test_vectors.md, vector TCP-4: same as TCP-3. -/
theorem test_TCP_4 :
    nextField (fun t => (t.status, txFrame t)) (exec .processFrame (loaded nonsynDropped frameTCP4))
      = some (0x2352#16, []) := by
  decide +kernel

/-- 95_test_vectors.md, vector ARP-13: ARP-1's frame, `tx fail`. -/
theorem test_ARP_13 :
    nextField (fun t => (t.status, txFrame t)) (exec .processFrame ({ loaded Config.reference frameARP1 with channel := .fail }))
      = some (0xD460#16, bytesOf 42
      0x0a0000000001020000000001080600010800060400020200000000010a0000020a00000000010a000001) := by
  decide +kernel

/-- 95_test_vectors.md, vectors CMD-6 and CMD-10: a miss, and a hit on the learned peer. -/
theorem test_CMD_10 : nextField (fun t => (t.status, t.lkInfo, t.lkMacHi, t.lkMacLo))
      (exec .cacheLookup { holding [peer] State.reset with argIp := 0x0A000001#32, halted := true })
        = some (0x8608#16, 0x00010005#32, 0x0A00#16, 0x00000001#32)
    ∧ nextField (fun t => (t.status, t.lkInfo)) (exec .cacheLookup { State.reset with lkInfo := 5#32, argIp := 0x0A000007#32 })
        = some (0x0608#16, 0#32) := by decide +kernel

/-- 95_test_vectors.md, vectors CMD-4 and CMD-5. -/
theorem test_CMD_4 : nextField (fun t => (t.status, t.csumResult)) (exec .checksum (got (bytesOf 8 0x0001f203f4f5f6f7)))
      = some (0x0609#16, 0x220D#16)
    ∧ nextField (fun t => (t.status, t.csumResult)) (exec .checksum State.reset) = some (0x0609#16, 0xFFFF#16) := by
  decide +kernel

/-- 95_test_vectors.md, vectors CMD-9 and CMD-13: a halted block rejects a frame, and RESTART lets it go on. -/
theorem test_CMD_13 : nextField (fun t => t.status) (exec .processFrame { got frameARP1 with halted := true }) = some 0xE571#16
    ∧ nextField (fun t => (t.status, t.halted)) (exec .restart { State.reset with halted := true })
        = some (0x060A#16, false) := by decide +kernel

/-- 95_test_vectors.md, vectors CMD-2 and CMD-12. -/
theorem test_CMD_2 : nextField (fun t => t.status) (exec (.cmdIllegal 0#32) State.reset) = some 0x6570#16
    ∧ nextField (fun t => t.status) (exec (.cmdIllegal 9#32) { State.reset with halted := true }) = some 0xE570#16 := by
  decide +kernel

/-- 95_test_vectors.md W1, rows 6, 7 and 8. -/
theorem test_W1 : checksum (bytesOf 8 0x0001f203f4f5f6f7) 8 = 0x220D#16
    ∧ checksum (bytesOf 20 0x450000730000400040110000c0a80001c0a800c7) 20 = 0xB861#16
    ∧ checksum (bytesOf 20 0x45000073000040004011b861c0a80001c0a800c7) 20 = 0#16 := by decide +kernel

/-! ## Witnesses: states and operands that meet each obligation's hypotheses -/

/-- A block with one entry, halted, with a RESTART pending. -/
def haltedBlock : State :=
  { holding [peer] State.reset with halted := true, status := 0xD460#16, host := [cmdLine 4#32] }

theorem witness_ResetEstablishesStatedValues :
    ∃ (s : State) (rest : List HostAction), s.halted = true ∧ s.host = .reset :: rest :=
  ⟨{ haltedBlock with host := [.reset] }, [], rfl, rfl⟩

theorem witness_ResetMeetsTheInvariant : Config.reference.wf = true ∧ smallest.wf = true
    ∧ ({ smallest with maxFrame := 65535 } : Config).wf = true := by decide

/-- The invariant holds of a state with a learned entry that is halted. -/
theorem witness_Inv : Inv haltedBlock where
  config := by decide
  memory := by decide
  buffers := by decide
  idle := rfl
  status := ⟨.txFailure, by decide⟩
  cacheSize := by
    show ∀ e ∈ [peer], e.state ≠ .free
    decide
  entries := by
    intro e he
    exact .inr (by revert e he; decide)
  keys := List.pairwise_singleton _ _
  count := by decide
  txFits := by decide
  lookupReserved := by decide

theorem witness_StepKeepsTheInvariant : ∃ s t, Inv s ∧ step s = .next t ∧ t.halted = false := by
  obtain ⟨t, h, ht⟩ := exists_next (r := step haltedBlock) (P := fun t => t.halted = false) (by decide +kernel)
  exact ⟨_, t, witness_Inv, h, ht⟩

/-- Each window is one byte too short, and a count of 6 against a window of 5. -/
theorem witness_NoStepFaults : ([] : Bytes).length < 0 + 1 ∧ ([8] : Bytes).length < 0 + 2 ∧ ([8, 6, 0] : Bytes).length < 0 + 4
    ∧ ([1, 2, 3, 4, 5] : Bytes).length < 0 + 6 := by decide

theorem witness_DecodeOfEncodeIsTheInstruction : (Instr.ethOther 0x0805#16).wf = true ∧ (Instr.arpOther 0#16).wf = true
    ∧ (Instr.ipv4Other 0xFF#8).wf = true ∧ (Instr.tcpSyn 0xFF#8).wf = true ∧ (Instr.tcpNonsyn 0xFD#8).wf = true
    ∧ (Instr.cmdIllegal 5#32).wf = true ∧ (Instr.cmdIllegal 0xFFFFFFFF#32).wf = true := by decide

theorem witness_EncodeOfDecodeIsTheBytes : decode .ethernet [0xFF, 0xFF] = .ok (.ethOther 0xFFFF#16, [])
    ∧ Level.width .command ≤ ([0, 0, 0, 4] : Bytes).length := by decide

theorem witness_StepRunsTheDecodedCommand : ∃ (s : State) (v : Word) (rest : List HostAction) (i : Instr),
    s.host = .write 0x000 .word v :: rest ∧ s.engine = .idle ∧ decode .command (u32 v) = .ok (i, []) :=
  ⟨haltedBlock, 4#32, [], .restart, rfl, rfl, by decide⟩

theorem witness_ProcessFrameRunsTheEthernetRow : ∃ (s : State) (i : Instr) (rest : Bytes), s.halted = false
    ∧ s.rxLen.toNat ≤ s.cfg.maxFrame ∧ decode .ethernet ((rxFrame s).drop 12) = .ok (i, rest) :=
  ⟨got frameETH2, .ethArp, [], by decide +kernel⟩

theorem witness_EthArpLearnsAndRunsTheArpRow : ∃ (s l : State) (eth : EthView) (arp : ArpView) (i : Instr) (rest : Bytes),
    arpOperand s = .ok (eth, arp) ∧ arp.hwtype = 1#16 ∧ arp.protype = 0x0800#16 ∧ learn arp s = .ok l
      ∧ decode .arp ((rxFrame s).drop 20) = .ok (i, rest) := by
  obtain ⟨⟨eth, arp⟩, h, h1, h2, h3⟩ := exists_ok (r := arpOperand (got frameARP1))
    (P := fun x => x.2.hwtype = 1#16 ∧ x.2.protype = 0x0800#16
      ∧ okIs (fun _ => true) (learn x.2 (got frameARP1)) = true) (by decide +kernel)
  obtain ⟨l, hl, -⟩ := exists_ok (P := fun _ => True) (r := learn arp (got frameARP1)) (by
    cases hr : learn arp (got frameARP1) with
    | ok l => rfl
    | error e => rw [hr] at h3; cases h3)
  exact ⟨_, l, eth, arp, .arpRequest, (rxFrame (got frameARP1)).drop 22, h, h1, h2, hl, by decide +kernel⟩

theorem witness_EthIpv4RunsTheIpv4Row : ∃ (s : State) (i : Instr) (rest : Bytes), 14 ≤ s.rxLen.toNat
    ∧ ipVersion (byteAt (rxPayload s) 0) = 4#4 ∧ 5 ≤ (ipIhl (byteAt (rxPayload s) 0)).toNat ∧ byteAt (rxPayload s) 8 ≠ 0#8
    ∧ rxHeaderLen s ≤ (rxPayload s).length ∧ checksum (rxPayload s) (rxHeaderLen s) = 0#16 ∧ rxHeaderLen s ≤ rxTotalLen s
    ∧ rxTotalLen s ≤ (rxPayload s).length ∧ decode .ipv4 ((rxPayload s).drop 9) = .ok (i, rest) :=
  ⟨got frameIP13, .ipv4Icmp, (rxPayload (got frameIP13)).drop 10, by decide +kernel⟩

theorem witness_Ipv4RowsRunTheResponderRow :
    (∃ (s : State) (d : Datagram), datagramOperand s = .ok d ∧ 4 ≤ d.payload.length
        ∧ checksum d.payload d.payload.length = 0#16 ∧ decode .icmp d.payload = .ok (.icmpEchoRequest, d.payload.drop 1))
      ∧ ∃ (s : State) (d : Datagram), datagramOperand s = .ok d ∧ 20 ≤ d.payload.length
          ∧ tcpChecksum d.ip.saddr d.ip.daddr d.ip.proto d.payload = 0#16
          ∧ decode .tcp (d.payload.drop 13) = .ok (.tcpSyn 2#8, d.payload.drop 14) :=
  ⟨⟨got frameICMP2, exists_ok (by decide +kernel)⟩, got frameTCP1, exists_ok (by decide +kernel)⟩

theorem witness_FieldReadsAreBigEndianAndBounded : 0 + 6 ≤ ([1, 2, 3, 4, 5, 6] : Bytes).length
    ∧ 0 + 2 ≤ ([8, 6] : Bytes).length ∧ 4 + 4 ≤ ([0, 0, 0, 0, 1, 2, 3, 4] : Bytes).length := by decide

theorem witness_FieldWritesReadBackAndTouchNothingElse : 0 + 2 ≤ ([8, 6] : Bytes).length
    ∧ 4 + 4 ≤ ([0, 0, 0, 0, 1, 2, 3, 4] : Bytes).length := by decide

theorem witness_SumAndFoldAsTheSpecWritesThem : 2 ^ 16 ≤ 65536 ∧ fold 65536 = 1 := by decide

theorem witness_ConstructedChecksumValidates : 2 % 2 = 0 ∧ 2 + 2 ≤ ([0, 0, 0, 0] : Bytes).length
    ∧ 18 ≤ (List.replicate 18 (0#8)).length := by decide

theorem witness_SingleBitFlipIsDetected : 1 < ([0xFF, 0xFF] : Bytes).length ∧ 7 < 8
    ∧ checksum [0xFF, 0xFF] ([0xFF, 0xFF] : Bytes).length = 0#16 := by decide

theorem witness_ChecksumIgnoresWordOrderAndHasTwoZeros : [1#16, 2#16].Perm [2#16, 1#16] ∧ 2 % 2 = 0
    ∧ 2 + 2 ≤ ([0xFF, 0xFF, 0, 0] : Bytes).length ∧ readU16 (constructChecksum [0xFF, 0xFF, 0, 0] 2) 2 = .ok 0#16
    ∧ checksum (writeU16 [0xFF, 0xFF, 0, 0] 2 0#16) ([0xFF, 0xFF, 0, 0] : Bytes).length = 0#16 := by decide

/-- A header with the given `IHL` and zero options. -/
def headerOf (ihl : BitVec 4) : Ipv4View :=
  ⟨4#4, ihl, 0#8, 20#16, 0#16, 2#3, 0#13, 255#8, 1#8, 0#16, 0#32, 0#32, List.replicate (4 * ihl.toNat - 20) 1#8⟩

theorem witness_Ipv4HeaderRoundTrip : (5 ≤ (headerOf 5#4).ihl.toNat
      ∧ (headerOf 5#4).options.length = 4 * (headerOf 5#4).ihl.toNat - 20)
    ∧ 5 ≤ (headerOf 15#4).ihl.toNat ∧ (headerOf 15#4).options.length = 4 * (headerOf 15#4).ihl.toNat - 20 := by decide

/-- The shortest and the longest frame; a count one below the length and one equal to it; a `tx fail` line. -/
theorem witness_ReplyStoresOnlyItsFrame : ([] : Bytes).length ≤ 0xFFFF ∧ (List.replicate 0xFFFF (0#8)).length ≤ 0xFFFF
    ∧ 41 < 42 ∧ 42 ≤ 42 ∧ ({ State.reset with host := [.tx .fail] } : State).host = .tx .fail :: [] :=
  ⟨by decide, (List.length_replicate).le, by decide, le_rfl, rfl⟩

theorem witness_ShortFrameIsDropped : (got []).halted = false ∧ (got []).rxLen.toNat ≤ (got []).cfg.maxFrame
    ∧ (got []).rxLen.toNat < 14 ∧ (got frameETH1).rxLen.toNat ≤ (got frameETH1).cfg.maxFrame ∧ (got frameETH1).rxLen.toNat < 14 := by
  decide +kernel

theorem witness_QuietRowsWriteOnlyStatus : (got frameARP4).halted = false := by decide

theorem witness_ArpChecksInOrder :
    (14 ≤ (got frameARP6).rxLen.toNat ∧ (rxPayload (got frameARP6)).length < 28)
      ∧ (28 ≤ (rxPayload (got frameARP7)).length ∧ be16 (byteAt (rxPayload (got frameARP7)) 0) (byteAt (rxPayload (got frameARP7)) 1) ≠ 1#16)
      ∧ (be16 (byteAt (rxPayload (got frameARP8)) 0) (byteAt (rxPayload (got frameARP8)) 1) = 1#16
          ∧ be16 (byteAt (rxPayload (got frameARP8)) 2) (byteAt (rxPayload (got frameARP8)) 3) ≠ 0x0800#16) := by decide +kernel

/-- Both ways a learn fails: another hardware type for the key (ARP-12), and a full cache (ARP-9). -/
theorem witness_ArpChecksInOrder_learn :
    (∃ (s : State) (eth : EthView) (arp : ArpView), arpOperand s = .ok (eth, arp) ∧ arp.hwtype = 1#16
        ∧ arp.protype = 0x0800#16 ∧ learn arp s = .error .arpCacheConflict)
      ∧ ∃ (s : State) (eth : EthView) (arp : ArpView), arpOperand s = .ok (eth, arp) ∧ arp.hwtype = 1#16
          ∧ arp.protype = 0x0800#16 ∧ learn arp s = .error .arpCacheFull := by
  constructor
  · obtain ⟨⟨eth, arp⟩, h, h1, h2, h3⟩ := exists_ok (r := arpOperand (holding [foreign] (got frameARP1)))
      (P := fun x => x.2.hwtype = 1#16 ∧ x.2.protype = 0x0800#16
        ∧ failsWith .arpCacheConflict (learn x.2 (holding [foreign] (got frameARP1))) = true) (by decide +kernel)
    exact ⟨_, eth, arp, h, h1, h2, failsWith_eq h3⟩
  · obtain ⟨⟨eth, arp⟩, h, h1, h2, h3⟩ := exists_ok (r := arpOperand (holding [other] (loaded oneEntry frameARP1)))
      (P := fun x => x.2.hwtype = 1#16 ∧ x.2.protype = 0x0800#16
        ∧ failsWith .arpCacheFull (learn x.2 (holding [other] (loaded oneEntry frameARP1))) = true) (by decide +kernel)
    exact ⟨_, eth, arp, h, h1, h2, failsWith_eq h3⟩

theorem witness_LookupFindsTheUniqueEntry : UniqueKeys [peer, Entry.empty, other] := by
  simp [UniqueKeys, peer, other, Entry.empty]

/-- The ARP message of ARP-1. -/
def peerMessage : ArpView := ⟨1#16, 0x0800#16, 6#8, 4#8, 1#16, 0x0A0000000001#48, 0x0A000001#32, 0#48, 0x0A000002#32⟩

/-- A merge, a conflict, an append, an insert in the lowest Free slot, and a full cache. -/
theorem witness_LearnMergesInsertsOrRejects :
    (lookup [other, peer] peerMessage.sip = some 1 ∧ [other, peer][1]? = some peer ∧ peer.hwtype = peerMessage.hwtype)
      ∧ (lookup [foreign] peerMessage.sip = some 0 ∧ foreign.hwtype ≠ peerMessage.hwtype)
      ∧ (lookup [other] peerMessage.sip = none ∧ Config.reference.arpCapacity = none)
      ∧ (smallest.arpCapacity = some 1 ∧ lookup [Entry.empty] peerMessage.sip = none
          ∧ (∃ e, [Entry.empty][0]? = some e ∧ e.state = .free))
      ∧ ∀ e ∈ [other], e.state ≠ .free := by
  refine ⟨by decide, by decide, by decide, ⟨by decide, by decide, Entry.empty, by decide, by decide⟩, by decide⟩

theorem witness_LearnedSenderIsFoundAndOthersStay : ∃ (s l : State) (arp : ArpView), learn arp s = .ok l
    ∧ (0x0A000009#32 : Word) ≠ arp.sip := by
  obtain ⟨l, h, -⟩ := exists_ok (r := learn peerMessage (holding [other] State.reset)) (P := fun _ => True)
    (by decide +kernel)
  exact ⟨_, l, peerMessage, h, by decide⟩

theorem witness_ConflictIsNeverReported : ∃ s t, Inv s ∧ exec .processFrame s = .next t := by
  obtain ⟨t, h, -⟩ := exists_next (r := exec .processFrame haltedBlock) (P := fun _ => True) (by decide +kernel)
  exact ⟨_, t, witness_Inv, h⟩

/-- For us and accepted; for us and refused by the channel; not for us. -/
theorem witness_ArpRequestIsAnswered :
    (42 ≤ (got frameARP1).rxLen.toNat ∧ (got frameARP1).halted = false ∧ (got frameARP1).cfg.arpOwnIpOnly = false
        ∧ (got frameARP1).channel.accepts 42 = true)
      ∧ (((rxFrame (loaded ownIpOnly frameARP1)).drop 38).take 4 = u32 ownIpOnly.devIp ∧ ChannelReport.accepts (.wrote 41) 42 = false)
      ∧ ¬ ((rxFrame (loaded ownIpOnly frameARP3)).drop 38).take 4 = u32 ownIpOnly.devIp := by decide +kernel

/-- The payloads of IP-1, IP-2, IP-3, IP-4, IP-6, IP-7, IP-9 and IP-8: each fails one check and passes those before it. -/
theorem witness_Ipv4ChecksInOrder :
    (14 ≤ (got frameIP1).rxLen.toNat ∧ (rxPayload (got frameIP1)).length < 20)
      ∧ (20 ≤ (rxPayload (got frameIP6)).length ∧ ipVersion (byteAt (rxPayload (got frameIP2)) 0) ≠ 4#4)
      ∧ (ipVersion (byteAt (rxPayload (got frameIP3)) 0) = 4#4 ∧ (ipIhl (byteAt (rxPayload (got frameIP3)) 0)).toNat < 5)
      ∧ (5 ≤ (ipIhl (byteAt (rxPayload (got frameIP4)) 0)).toNat ∧ byteAt (rxPayload (got frameIP4)) 8 = 0#8)
      ∧ (byteAt (rxPayload (got frameIP6)) 8 ≠ 0#8 ∧ (rxPayload (got frameIP6)).length < rxHeaderLen (got frameIP6))
      ∧ (rxHeaderLen (got frameIP7) ≤ (rxPayload (got frameIP7)).length
          ∧ checksum (rxPayload (got frameIP7)) (rxHeaderLen (got frameIP7)) ≠ 0#16)
      ∧ (checksum (rxPayload (got frameIP9)) (rxHeaderLen (got frameIP9)) = 0#16
          ∧ rxTotalLen (got frameIP9) < rxHeaderLen (got frameIP9))
      ∧ (checksum (rxPayload (got frameIP8)) (rxHeaderLen (got frameIP8)) = 0#16
          ∧ (rxPayload (got frameIP8)).length < rxTotalLen (got frameIP8)) := by decide +kernel

/-- A datagram with options (IP-12). -/
theorem witness_TurnaroundHeaderSwapsAddresses : ∃ (s : State) (d : Datagram), datagramOperand s = .ok d ∧ d.header.length = 24 :=
  ⟨got frameIP12, exists_ok (by decide +kernel)⟩

/-- A received checksum of 0xFFFF (IP-18), and another (IP-13). -/
theorem witness_RecomputedHeaderChecksumIsTheReceivedOne :
    (∃ (s : State) (d : Datagram), datagramOperand s = .ok d ∧ checksum d.header d.header.length = 0#16 ∧ d.ip.hcsum = 0xFFFF#16)
      ∧ ∃ (s : State) (d : Datagram), datagramOperand s = .ok d ∧ checksum d.header d.header.length = 0#16
          ∧ d.ip.hcsum ≠ 0xFFFF#16 :=
  ⟨⟨got frameIP18, exists_ok (by decide +kernel)⟩, got frameIP13, exists_ok (by decide +kernel)⟩

theorem witness_IcmpChecksInOrder :
    (∃ (s : State) (d : Datagram), datagramOperand s = .ok d ∧ s.halted = false ∧ d.payload.length = 3)
      ∧ (∃ (s : State) (d : Datagram), datagramOperand s = .ok d ∧ s.halted = false ∧ 4 ≤ d.payload.length
          ∧ checksum d.payload d.payload.length ≠ 0#16)
      ∧ ∃ (s : State) (d : Datagram), datagramOperand s = .ok d ∧ s.halted = false ∧ d.payload.length = 7 :=
  ⟨⟨got frameICMP4, exists_ok (by decide +kernel)⟩, ⟨got frameICMP5, exists_ok (by decide +kernel)⟩,
    got frameICMP3, exists_ok (by decide +kernel)⟩

/-- An echo request of eight bytes, and a channel that accepts a frame of its reply's length but no longer one. -/
theorem witness_IcmpEchoRequestIsAnswered : ∃ (s : State) (d : Datagram), datagramOperand s = .ok d
    ∧ s.halted = false ∧ d.payload.length = 8 ∧ ChannelReport.accepts (.wrote 42) (14 + d.ip.totlen.toNat) = true
    ∧ ChannelReport.accepts (.wrote 41) (14 + d.ip.totlen.toNat) = false :=
  ⟨got frameICMP2, exists_ok (by decide +kernel)⟩

/-- The three cases of R224's last property: an ordinary message, the all-zero one (ICMP-2), and one whose sum folds to 0xFFFF
with other bytes not 0. -/
theorem witness_EchoReplyDiffersInTypeAndChecksumOnly :
    (8 ≤ (bytesOf 8 0x080006fe00f100f0).length ∧ checksum (bytesOf 8 0x0800f000000007ff) 8 = 0#16
        ∧ byteAt (bytesOf 8 0x0800f000000007ff) 0 = 8#8 ∧ fold (0xF000 + 0x0800) ≠ 0xFFFF)
      ∧ (checksum (bytesOf 8 0x0800f7ff00000000) 8 = 0#16 ∧ fold (0xF7FF + 0x0800) = 0xFFFF
          ∧ readU16 (bytesOf 8 0x0800f7ff00000000) 2 = .ok 0xF7FF#16)
      ∧ checksum (bytesOf 8 0x0800f7ffffff0000) 8 = 0#16 ∧ byteAt (bytesOf 8 0x0800f7ffffff0000) 4 ≠ 0#8 := by decide +kernel

theorem witness_TcpChecksInOrder :
    (∃ (s : State) (d : Datagram), datagramOperand s = .ok d ∧ s.halted = false ∧ d.payload.length = 19)
      ∧ ∃ (s : State) (d : Datagram), datagramOperand s = .ok d ∧ s.halted = false ∧ d.payload.length = 20
          ∧ tcpChecksum d.ip.saddr d.ip.daddr d.ip.proto d.payload ≠ 0#16 :=
  ⟨⟨got frameTCP5, exists_ok (by decide +kernel)⟩, got frameTCP6, exists_ok (by decide +kernel)⟩

/-- A SYN whose sequence number is the greatest (TCP-2), and a channel that accepts the reply, or refuses it. -/
theorem witness_TcpSynIsAnswered : ∃ (s : State) (d : Datagram) (tcp : TcpView), tcpOperand s = .ok (d, tcp)
    ∧ s.halted = false ∧ tcp.seq = 0xFFFFFFFF#32 ∧ s.channel.accepts (14 + d.ip.totlen.toNat) = true
    ∧ ChannelReport.accepts .fail (14 + d.ip.totlen.toNat) = false := by
  obtain ⟨⟨d, tcp⟩, h, h1⟩ := exists_ok (r := tcpOperand (got frameTCP2)) (P := fun x => (got frameTCP2).halted = false
    ∧ x.2.seq = 0xFFFFFFFF#32 ∧ (got frameTCP2).channel.accepts (14 + x.1.ip.totlen.toNat) = true
    ∧ ChannelReport.accepts .fail (14 + x.1.ip.totlen.toNat) = false) (by decide +kernel)
  exact ⟨_, d, tcp, h, h1⟩

theorem witness_TcpNonsynIsEchoedOrDropped :
    ((loaded nonsynDropped frameTCP3).halted = false ∧ (loaded nonsynDropped frameTCP3).cfg.tcpNonSyn = .drop)
      ∧ ∃ (s : State) (d : Datagram) (tcp : TcpView), tcpOperand s = .ok (d, tcp) ∧ s.halted = false
          ∧ s.cfg.tcpNonSyn = .echo ∧ s.channel.accepts (14 + d.ip.totlen.toNat) = true := by
  refine ⟨by decide, ?_⟩
  obtain ⟨⟨d, tcp⟩, h, h1⟩ := exists_ok (r := tcpOperand (got frameTCP3)) (P := fun x => (got frameTCP3).halted = false
    ∧ (got frameTCP3).cfg.tcpNonSyn = .echo ∧ (got frameTCP3).channel.accepts (14 + x.1.ip.totlen.toNat) = true)
    (by decide +kernel)
  exact ⟨_, d, tcp, h, h1⟩

theorem witness_TcpChecksumIgnoresAddressOrder : ∃ (s : State) (d : Datagram) (tcp : TcpView), tcpOperand s = .ok (d, tcp)
    ∧ tcpChecksum d.ip.saddr d.ip.daddr d.ip.proto d.payload = 0#16 := by
  obtain ⟨⟨d, tcp⟩, h, h1⟩ := exists_ok (r := tcpOperand (got frameTCP3))
    (P := fun x => tcpChecksum x.1.ip.saddr x.1.ip.daddr x.1.ip.proto x.1.payload = 0#16) (by decide +kernel)
  exact ⟨_, d, tcp, h, h1⟩

/-- Two blocks that differ in their caches and registers, and hold one frame. -/
theorem witness_TcpRepliesKeepNoConnectionState : ∃ s1 s2 t1 t2 : State, s1.cache ≠ s2.cache ∧ s1.argIp ≠ s2.argIp
    ∧ s1.cfg = s2.cfg ∧ rxFrame s1 = rxFrame s2 ∧ s1.channel = s2.channel ∧ s1.halted = s2.halted
    ∧ exec (.tcpSyn 2#8) s1 = .next t1 ∧ exec (.tcpSyn 2#8) s2 = .next t2 := by
  obtain ⟨t1, h1, -⟩ := exists_next (r := exec (.tcpSyn 2#8) (got frameTCP1)) (P := fun _ => True) (by decide +kernel)
  obtain ⟨t2, h2, -⟩ := exists_next (r := exec (.tcpSyn 2#8) { holding [peer] (got frameTCP1) with argIp := 7#32 })
    (P := fun _ => True) (by decide +kernel)
  exact ⟨got frameTCP1, { holding [peer] (got frameTCP1) with argIp := 7#32 }, t1, t2, by decide +kernel, by decide +kernel,
    rfl, by decide +kernel, rfl, rfl, h1, h2⟩

theorem witness_ProcessFrameRejections : haltedBlock.halted = true ∧ ({ State.reset with rxLen := 1515#16 } : State).halted = false
    ∧ ({ State.reset with rxLen := 1515#16 } : State).cfg.maxFrame < ({ State.reset with rxLen := 1515#16 } : State).rxLen.toNat := by
  decide

/-- The shortest frame and the longest: `RX_LEN` 0, and `RX_LEN` equal to `P_MAX_FRAME`. -/
theorem witness_ProcessFrameReachesOneOutcome : State.reset.halted = false ∧ State.reset.rxLen.toNat ≤ State.reset.cfg.maxFrame
    ∧ (loaded smallest frameETH2).halted = false ∧ (loaded smallest frameETH2).rxLen.toNat = (loaded smallest frameETH2).cfg.maxFrame
    ∧ be16 (byteAt (rxFrame (got frameIP1)) 12) (byteAt (rxFrame (got frameIP1)) 13) ≠ 0x0806#16 := by decide +kernel

theorem witness_DroppedFrameLeavesTheCache : ∃ s t : State, exec .processFrame s = .next t ∧ statusKind t.status = 3#3 :=
  ⟨holding [peer] (got frameARP7), exists_next (by decide +kernel)⟩

theorem witness_CacheLookupShowsTheEntry : ∃ s : State, lookup s.cache s.argIp = some 0 ∧ s.cache[0]? = some peer
    ∧ lookup s.cache 0#32 = none ∧ lookup State.reset.cache State.reset.argIp = none :=
  ⟨{ haltedBlock with argIp := 0x0A000001#32 }, by decide⟩

/-- `RX_LEN` equal to `P_MAX_FRAME`, and one more. -/
theorem witness_ChecksumCommandSumsTheBuffer : ({ State.reset with rxLen := 1514#16 } : State).rxLen.toNat ≤ State.reset.cfg.maxFrame
    ∧ State.reset.cfg.maxFrame < ({ State.reset with rxLen := 1515#16 } : State).rxLen.toNat := by decide

theorem witness_LookupChecksumRestartAreIdempotent : (∃ t, exec .cacheLookup haltedBlock = .next t ∧ t.status = 0x8608#16)
    ∧ (∃ t, exec .checksum haltedBlock = .next t ∧ t.status = 0x8609#16)
    ∧ ∃ t, exec .restart haltedBlock = .next t ∧ t.status = 0x060A#16 :=
  ⟨exists_next (by decide +kernel), exists_next (by decide +kernel), exists_next (by decide +kernel)⟩

theorem witness_NoInstructionWritesWhatTheHostWrites : ∃ t, exec .ethIpv4 (got frameICMP1) = .next t ∧ t.txLen = 46#16
    ∧ (got frameICMP1).rxLen.toNat ≤ (got frameICMP1).cfg.maxFrame ∧ Instr.ethIpv4 ≠ .cacheLookup ∧ Instr.ethIpv4 ≠ .checksum :=
  exists_next (by decide +kernel)

/-- A block with an entry, processing a Request from another sender (ARP-9's frame). -/
def busyDay : State := { holding [peer] (got frameARP9) with host := [cmdLine 1#32] }

theorem witness_EntriesAreNeverEvicted : ∃ s t : State, step s = .next t ∧ s.host.head? ≠ some .reset
    ∧ s.cache[0]? = some peer ∧ peer.state ≠ .free := by
  obtain ⟨t, h, -⟩ := exists_next (r := step busyDay) (P := fun t => t.cacheCount = 2#32) (by decide +kernel)
  exact ⟨_, t, h, by decide, rfl, by decide⟩

theorem witness_HaltedIsSetByFailureAndClearedByRestart :
    (∃ s t : State, step s = .next t ∧ s.halted = false ∧ t.halted = true)
      ∧ ∃ s t : State, step s = .next t ∧ s.halted = true ∧ t.halted = false :=
  ⟨⟨{ busyDay with channel := .fail }, exists_next (by decide +kernel)⟩, haltedBlock, exists_next (by decide +kernel)⟩

theorem witness_OnlyProcessFrameTransmits : ∃ s t : State, step s = .next t ∧ t.sent.length = s.sent.length + 1 :=
  ⟨busyDay, exists_next (by decide +kernel)⟩

/-- A block with a write or a read pending. -/
def pending (a : HostAction) (s : State) : State := { s with host := [a] }

/-- A block with the smallest buffers, two received and two transmitted bytes, and one action pending. -/
def twoBytes (a : HostAction) : State := pending a { loaded smallest [] with rxLen := 2#16, txLen := 2#16 }

/-- The first and the last offset of each range, the bytes on both sides of each length, and accesses of another width or
alignment. -/
theorem witness_HostAccessesFollowTheMap :
    ((pending (.read 0xFFFC .word) State.reset).host = .read 0xFFFC .word :: [] ∧ 0xFFFC < 0x10000 ∧ 0xFFFC % 4 = 0)
      ∧ ((pending (.write 0x034 .word 7#32) State.reset).host = .write 0x034 .word 7#32 :: [] ∧ regAt 0x034 ≠ some .cmd
          ∧ regAt 0x004 ≠ some .cmd ∧ regAt 0x030 ≠ some .rxLen ∧ regAt 0x030 ≠ some .argIp)
      ∧ ((pending (.write 0x008 .word 0x1FFFF#32) State.reset).host = .write 0x008 .word 0x1FFFF#32 :: []
          ∧ (pending (.write 0x010 .word 7#32) State.reset).host = .write 0x010 .word 7#32 :: [] ∧ State.reset.engine = .idle)
      ∧ (13 < smallest.maxFrame ∧ smallest.maxFrame ≤ 0xFFFF ∧ (twoBytes .reset).cfg = smallest
          ∧ (twoBytes .reset).engine = .idle ∧ 1 < (twoBytes .reset).rxLen.toNat ∧ (twoBytes .reset).rxLen.toNat ≤ 2
          ∧ 1 < (twoBytes .reset).txLen.toNat)
      ∧ (twoBytes (.read (0x10000 + 1) .byte)).host = .read (0x10000 + 1) .byte :: []
      ∧ (twoBytes (.read (0x10000 + 2) .byte)).host = .read (0x10000 + 2) .byte :: []
      ∧ (twoBytes (.read (0x20000 + 1) .byte)).host = .read (0x20000 + 1) .byte :: []
      ∧ (twoBytes (.write (0x10000 + 13) .byte 7#32)).host = .write (0x10000 + 13) .byte 7#32 :: []
      ∧ (twoBytes (.write (0x20000 + 13) .byte 7#32)).host = .write (0x20000 + 13) .byte 7#32 :: []
      ∧ ((pending (.read 0x004 .byte) State.reset).host = .read 0x004 .byte :: [] ∧ AccessSize.byte ≠ .word
          ∧ (pending (.write 0xFFFF .word 7#32) State.reset).host = .write 0xFFFF .word 7#32 :: [] ∧ 0xFFFF % 4 ≠ 0)
      ∧ ((twoBytes (.read (0x10000 + 13) .word)).host = .read (0x10000 + 13) .word :: [] ∧ AccessSize.word ≠ .byte
          ∧ (twoBytes (.write (0x20000 + 13) .half 7#32)).host = .write (0x20000 + 13) .half 7#32 :: [])
      ∧ (twoBytes (.read 0x1000E .byte)).host = .read 0x1000E .byte :: [] ∧ 0x10000 + smallest.maxFrame ≤ 0x1000E
      ∧ (twoBytes (.write 0x2000E .byte 7#32)).host = .write 0x2000E .byte 7#32 :: []
      ∧ 0x20000 + smallest.maxFrame ≤ 0x2000E := by decide

/-- The offset after the last register, the last offset of the range, and one inside a register. -/
theorem witness_RegisterMap : ∀ off ∈ [0x034, 0xFFFF, 0x001], off < 0x10000
    ∧ off ∉ [0x000, 0x004, 0x008, 0x00C, 0x010, 0x014, 0x018, 0x01C, 0x020, 0x024, 0x028, 0x02C, 0x030] := by decide

theorem witness_FrameLineDeliversItsBytes :
    ({ loaded smallest [] with host := frameLines frameETH2 ++ [] } : State).host = frameLines frameETH2 ++ []
      ∧ (loaded smallest []).engine = .idle ∧ frameETH2.length ≤ smallest.maxFrame ∧ ([] : Bytes).length ≤ smallest.maxFrame
      ∧ smallest.maxFrame ≤ 0xFFFF := by decide +kernel

/-- The last byte of `RXBUF`; a `wrbuf` that ends there, and one that reaches one byte beyond. -/
theorem witness_WritesWhileBusyAreRefused :
    ({ twoBytes (wrLine .rxLen 7#32) with engine := .busy } : State).host = wrLine .rxLen 7#32 :: []
      ∧ ({ twoBytes (wrLine .rxLen 7#32) with engine := .busy } : State).engine = .busy
      ∧ (13 < smallest.maxFrame ∧ smallest.maxFrame ≤ 0xFFFF
          ∧ (twoBytes (.write (0x10000 + 13) .byte 7#32)).host = .write (0x10000 + 13) .byte 7#32 :: [])
      ∧ (13 + [7#8].length ≤ smallest.maxFrame ∧ (twoBytes (.wrbuf 13 [7#8])).host = .wrbuf 13 [7#8] :: [])
      ∧ ¬ 14 + [7#8].length ≤ smallest.maxFrame ∧ (twoBytes (.wrbuf 14 [7#8])).host = .wrbuf 14 [7#8] :: [] := by decide

/-- The byte at `TX_LEN`, and the last one. -/
theorem witness_TxBytesBeyondTxLenReadFreely : (State.reset.txLen.toNat ≤ 0 ∧ 0 < State.reset.cfg.maxFrame)
    ∧ (State.reset.txLen.toNat ≤ 1513 ∧ 1513 < State.reset.cfg.maxFrame ∧ State.reset.cfg.maxFrame ≤ 0xFFFF)
    ∧ (pending (.read (0x20000 + 1513) .byte) State.reset).host = .read (0x20000 + 1513) .byte :: [] := by decide

end Sys2Proof.Tests
end

section
/-! Which steps hand a frame to the transmit channel (20_memory.md R67; 46_host_commands.md R270 to R272). -/

namespace Sys2Proof.Proofs
open Sys2Proof.Machine Sys2Proof.Laws

/-- From `s` to `t` at most one frame is handed to the channel (R67). -/
def SendsAtMostOne (s t : State) : Prop := t.sent = s.sent ∨ ∃ x, t.sent = s.sent ++ [x]

/-! ## The processing of a frame -/

theorem learned_sent {s l : State} (h : Learned s l) : l.sent = s.sent := by
  rcases h with rfl | ⟨arp, -, h⟩
  · rfl
  · rw [learn_frame h]

/-- Accepted or refused by the channel, the one frame is recorded as sent (R148, R149). -/
theorem transmit_sent {out : Bytes} {r : Reason} {s t : State} (h : transmit out r s = .next t) :
    t.sent = s.sent ++ [⟨out, s.channel.accepts out.length⟩] := by
  rcases transmit_cases out r s with ⟨-, ht⟩ | ⟨-, ht⟩
  · obtain rfl : finish r (handOver out s) = t := by simpa [ht] using h
    rw [finish_sent, handOver_sent]
  · obtain rfl : enterHalt (handOver out s) = t := by simpa [ht] using h
    rw [enterHalt_sent, handOver_sent]

theorem frameEnd_sendsAtMostOne {s t : State} {x : StepResult} (hx : FrameEnd s x) (h : x = .next t) :
    SendsAtMostOne s t := by
  cases hx with
  | dropped r _ =>
    cases h
    exact .inl (finish_sent r s)
  | consumed l r hl _ =>
    cases h
    exact .inl (by rw [finish_sent, learned_sent hl])
  | sent l out r hl _ _ =>
    exact .inr ⟨_, by rw [transmit_sent h, learned_sent hl]⟩

/-! ## The commands -/

theorem execProcessFrame_sendsAtMostOne {s t : State} (h : execProcessFrame s = .next t) : SendsAtMostOne s t := by
  simp only [execProcessFrame, reject] at h
  split_ifs at h
  · cases h
    exact .inl (by simp)
  · cases h
    exact .inl (by simp)
  · have hsent : SendsAtMostOne { beginCommand s with txLen := 0#16 } t :=
      frameEnd_sendsAtMostOne (frameIncoming_end _) h
    exact hsent

theorem execCacheLookup_sent {s t : State} (h : execCacheLookup s = .next t) : t.sent = s.sent := by
  simp only [execCacheLookup] at h
  split at h <;> cases h <;> simp

theorem execChecksum_sent {s t : State} (h : execChecksum s = .next t) : t.sent = s.sent := by
  simp only [execChecksum, reject] at h
  split_ifs at h <;> cases h <;> simp

theorem execRestart_sent {s t : State} (h : execRestart s = .next t) : t.sent = s.sent := by
  cases h
  simp

theorem execCmdIllegal_sent {v : Word} {s t : State} (h : execCmdIllegal v s = .next t) : t.sent = s.sent := by
  cases h
  simp

/-- A value of `CMD` hands over nothing, or it is PROCESS_FRAME's and hands over at most one frame (R90). -/
theorem exec_decodeCommand_sent {v : Word} {s t : State} (h : exec (decodeCommand v) s = .next t) :
    t.sent = s.sent ∨ (v = 1#32 ∧ ∃ x, t.sent = s.sent ++ [x]) := by
  unfold decodeCommand at h
  split_ifs at h with h1
  · exact (execProcessFrame_sendsAtMostOne h).imp_right fun hx => ⟨h1, hx⟩
  · exact .inl (execCacheLookup_sent h)
  · exact .inl (execChecksum_sent h)
  · exact .inl (execRestart_sent h)
  · exact .inl (execCmdIllegal_sent (v := v) h)

/-! ## The host's actions -/

/-- The only write that hands over a frame is the word write of 1 to `CMD`. -/
theorem hostWrite_sent {off : Nat} {size : AccessSize} {v : Word} {s t : State} (h : hostWrite off size v s = .next t) :
    t.sent = s.sent ∨ ((off = 0x000 ∧ size = .word ∧ v = 1#32) ∧ ∃ x, t.sent = s.sent ++ [x]) := by
  rcases hostWrite_next h with
    rfl | ⟨-, ⟨hoff, hsize, hexec⟩ | ⟨-, -, rfl⟩ | ⟨-, -, rfl⟩ | ⟨-, -, -, rfl⟩⟩
  · exact .inl rfl
  · exact (exec_decodeCommand_sent hexec).imp_right fun ⟨hv, hx⟩ => ⟨⟨hoff, hsize, hv⟩, hx⟩
  · exact .inl rfl
  · exact .inl rfl
  · exact .inl rfl

/-- The only action that hands over a frame is the word write of 1 to `CMD`. -/
theorem performHost_sent {a : HostAction} {s t : State} (h : performHost a s = .next t) :
    t.sent = s.sent ∨ (a = .write 0x000 .word 1#32 ∧ ∃ x, t.sent = s.sent ++ [x]) := by
  cases a with
  | read off size =>
    rw [hostRead_next h]
    exact .inl rfl
  | write off size v =>
    refine (hostWrite_sent h).imp_right ?_
    rintro ⟨⟨rfl, rfl, rfl⟩, hx⟩
    exact ⟨rfl, hx⟩
  | wrbuf off B =>
    obtain ⟨-, -, rfl⟩ := hostWriteBuffer_next h
    exact .inl rfl
  | tx report =>
    cases h
    exact .inl rfl
  | reset =>
    cases h
    exact .inl (applyReset_sent s)

/-- Settles O54: a step performs at most one action of the host, and of those only PROCESS_FRAME's issue transmits. -/
theorem onlyProcessFrameTransmits : Obligations.OnlyProcessFrameTransmits := by
  intro s t h
  rcases step_next h with ⟨-, rfl⟩ | ⟨a, rest, hs, ha⟩
  · exact .inl rfl
  · refine (performHost_sent ha).imp_right ?_
    rintro ⟨rfl, hx⟩
    exact ⟨by rw [hs]; rfl, hx⟩

end Sys2Proof.Proofs
end

section
/-! The layout of `STATUS` (R30, R92): the word as a sum, and each field read back from it. -/

namespace Sys2Proof.Proofs
open Sys2Proof.Machine Sys2Proof.Laws

/-- R92's sum: the fields do not overlap, so laying them side by side adds them at their places. -/
theorem packStatus_toNat (halted : Bool) (cls : BitVec 3) (busy : Bool) (kind : BitVec 3) (reason : Byte) :
    (packStatus halted cls busy kind reason).toNat
      = halted.toNat * 0x8000 + cls.toNat * 0x1000 + busy.toNat * 0x0800 + kind.toNat * 0x0100 + reason.toNat := by
  have hsum : (packStatus halted cls busy kind reason).toNat
      = (((halted.toNat * 2 ^ 3 + cls.toNat) * 2 ^ 1 + busy.toNat) * 2 ^ 3 + kind.toNat) * 2 ^ 8 + reason.toNat := by
    simp only [packStatus, append_toNat, BitVec.toNat_ofBool]
  rw [hsum]
  ring

section
variable (halted : Bool) (cls : BitVec 3) (busy : Bool) (kind : BitVec 3) (reason : Byte)

@[simp] theorem statusReason_packStatus : statusReason (packStatus halted cls busy kind reason) = reason :=
  BitVec.extractLsb'_append_eq_right

@[simp] theorem statusKind_packStatus : statusKind (packStatus halted cls busy kind reason) = kind := by
  apply BitVec.eq_of_toNat_eq
  simp only [statusKind, BitVec.extractLsb'_toNat, Nat.shiftRight_eq_div_pow, packStatus_toNat]
  omega

@[simp] theorem statusClass_packStatus : statusClass (packStatus halted cls busy kind reason) = cls := by
  have hbusy := busy.toNat_lt
  apply BitVec.eq_of_toNat_eq
  simp only [statusClass, BitVec.extractLsb'_toNat, Nat.shiftRight_eq_div_pow, packStatus_toNat]
  omega

@[simp] theorem statusHalted_packStatus : statusHalted (packStatus halted cls busy kind reason) = halted := by
  have hbit : (packStatus halted cls busy kind reason).toNat / 2 ^ 15 % 2 = halted.toNat := by
    have hhalted := halted.toNat_lt
    have hbusy := busy.toNat_lt
    rw [packStatus_toNat]
    omega
  simp only [statusHalted, BitVec.getLsbD, Nat.testBit_eq_decide_div_mod_eq, hbit, Bool.toNat_eq_one, Bool.decide_eq_true]

@[simp] theorem statusBusy_packStatus : statusBusy (packStatus halted cls busy kind reason) = busy := by
  have hbit : (packStatus halted cls busy kind reason).toNat / 2 ^ 11 % 2 = busy.toNat := by
    have hbusy := busy.toNat_lt
    rw [packStatus_toNat]
    omega
  simp only [statusBusy, BitVec.getLsbD, Nat.testBit_eq_decide_div_mod_eq, hbit, Bool.toNat_eq_one, Bool.decide_eq_true]

end

/-- Settles O59: `statusWord` packs the codes of the reason's class and kind with `BUSY` 0, so the laws of `packStatus`
give the sum and each field. -/
theorem statusWordIsTheSpecsSum : Obligations.StatusWordIsTheSpecsSum := by
  intro h r
  have hsum := packStatus_toNat h (classCode (reasonClass r)) false (kindCode (reasonKind r)) (reasonCode r)
  have hhalted : h.toNat = if h then 1 else 0 := by cases h <;> rfl
  rw [hhalted] at hsum
  exact ⟨hsum, statusReason_packStatus .., statusKind_packStatus .., statusClass_packStatus ..,
    statusHalted_packStatus .., statusBusy_packStatus ..⟩

end Sys2Proof.Proofs
end

section
/-! The field reads (40_codec_checksum.md R120, R121): the number a read answers inside its window, and the fault it raises
outside it. -/

namespace Sys2Proof.Proofs
open Sys2Proof.Machine Sys2Proof.Laws

/-! ## Outside the window -/

theorem readU8_truncated {B : Bytes} {off : Nat} (h : B.length < off + 1) :
    readU8 B off = .error (.truncated .u8 off B.length) := if_neg h.not_ge

theorem readU16_truncated {B : Bytes} {off : Nat} (h : B.length < off + 2) :
    readU16 B off = .error (.truncated .u16 off B.length) := if_neg h.not_ge

theorem readU32_truncated {B : Bytes} {off : Nat} (h : B.length < off + 4) :
    readU32 B off = .error (.truncated .u32 off B.length) := if_neg h.not_ge

theorem readBytes_truncated {B : Bytes} {off n : Nat} (h : B.length < off + n) :
    readBytes B off n = .error (.truncated (.bytes n) off B.length) := if_neg h.not_ge

/-! ## Inside the window -/

theorem readU16_toNat {B : Bytes} {off : Nat} (h : off + 2 ≤ B.length) :
    ∃ v, readU16 B off = .ok v ∧ v.toNat = (byteAt B off).toNat * 2 ^ 8 + (byteAt B (off + 1)).toNat :=
  ⟨_, readU16_ok h, be16_toNat _ _⟩

theorem readU32_toNat {B : Bytes} {off : Nat} (h : off + 4 ≤ B.length) :
    ∃ v, readU32 B off = .ok v ∧ v.toNat = (byteAt B off).toNat * 2 ^ 24 + (byteAt B (off + 1)).toNat * 2 ^ 16
      + (byteAt B (off + 2)).toNat * 2 ^ 8 + (byteAt B (off + 3)).toNat := by
  refine ⟨_, readU32_ok h, ?_⟩
  rw [be32_toNat]
  ring

/-- A byte of a window cut out of a string is the string's byte at the window's offset. -/
theorem byteAt_window (B : Bytes) (off : Nat) {n i : Nat} (h : i < n) :
    byteAt ((B.drop off).take n) i = byteAt B (off + i) := by
  rw [byteAt_take _ _ _ h, byteAt_drop]

theorem readMac_toNat {B : Bytes} {off : Nat} (h : off + 6 ≤ B.length) :
    ∃ v, readMac B off = .ok v
      ∧ v.toNat = (byteAt B off).toNat * 2 ^ 40 + (byteAt B (off + 1)).toNat * 2 ^ 32
          + (byteAt B (off + 2)).toNat * 2 ^ 24 + (byteAt B (off + 3)).toNat * 2 ^ 16
          + (byteAt B (off + 4)).toNat * 2 ^ 8 + (byteAt B (off + 5)).toNat := by
  refine ⟨_, readMac_ok h, ?_⟩
  rw [macOfBytes, mac_toNat]
  simp only [byteAt_window B off (n := 6), Nat.reduceLT, Nat.add_zero]
  ring

/-- Settles O13: each read has one law inside its window and one outside it. -/
theorem fieldReadsAreBigEndianAndBounded : Obligations.FieldReadsAreBigEndianAndBounded := by
  refine ⟨fun B off => ?_, fun B off => ?_, fun B off => ?_, fun B off n => ?_, fun B off => readMac_toNat⟩
  · split_ifs with h
    · exact readU8_ok h
    · exact readU8_truncated (Nat.lt_of_not_ge h)
  · split_ifs with h
    · exact readU16_toNat h
    · exact readU16_truncated (Nat.lt_of_not_ge h)
  · split_ifs with h
    · exact readU32_toNat h
    · exact readU32_truncated (Nat.lt_of_not_ge h)
  · split_ifs with h
    · exact readBytes_ok h
    · exact readBytes_truncated (Nat.lt_of_not_ge h)

end Sys2Proof.Proofs
end

section
/-! No step faults (40_codec_checksum.md R121): every read of a command stands behind its unit's length check, and the host's
own accesses read no field of a frame. -/

namespace Sys2Proof.Proofs
open Sys2Proof.Machine Sys2Proof.Laws

/-- A result that is no fault: a next state or a refusal. -/
def NoFault (x : StepResult) : Prop := ∀ f, x ≠ .fault f

@[simp] theorem noFault_next (t : State) : NoFault (.next t) := fun _ h => nomatch h

@[simp] theorem noFault_refused (r : Refusal) : NoFault (.refused r) := fun _ h => nomatch h

theorem noFault_ite {p : Prop} [Decidable p] {x y : StepResult} (hx : NoFault x) (hy : NoFault y) :
    NoFault (if p then x else y) := by
  split_ifs
  · exact hx
  · exact hy

/-! ## The commands -/

theorem transmit_noFault (out : Bytes) (r : Reason) (s : State) : NoFault (transmit out r s) :=
  noFault_ite (noFault_next _) (noFault_next _)

/-- However the processing of a frame ends, it ends with no fault. -/
theorem frameEnd_noFault {s : State} {x : StepResult} (h : FrameEnd s x) : NoFault x := by
  cases h with
  | dropped r _ => exact noFault_next _
  | consumed l r _ _ => exact noFault_next _
  | sent l out r _ _ _ => exact transmit_noFault out r l

theorem execProcessFrame_noFault (s : State) : NoFault (execProcessFrame s) :=
  noFault_ite (noFault_next _) (noFault_ite (noFault_next _) (frameEnd_noFault (frameIncoming_end _)))

theorem execCacheLookup_noFault (s : State) : NoFault (execCacheLookup s) := by
  simp only [execCacheLookup]
  split
  · exact noFault_next _
  · exact noFault_next _

theorem execChecksum_noFault (s : State) : NoFault (execChecksum s) :=
  noFault_ite (noFault_next _) (noFault_next _)

/-- Every value of `CMD` runs a command that does not fault (R90, R91). -/
theorem exec_decodeCommand_noFault (v : Word) (s : State) : NoFault (exec (decodeCommand v) s) := by
  unfold decodeCommand
  split_ifs
  · exact execProcessFrame_noFault s
  · exact execCacheLookup_noFault s
  · exact execChecksum_noFault s
  · exact noFault_next _
  · exact noFault_next _

/-! ## The host's actions -/

theorem unlessBusy_noFault {off : Nat} {s : State} {k : StepResult} (h : NoFault k) : NoFault (unlessBusy off s k) :=
  noFault_ite (noFault_refused _) h

theorem hostRead_noFault (off : Nat) (size : AccessSize) (s : State) : NoFault (hostRead off size s) := by
  have hbyte (base : Nat) (len : Half) : NoFault (deliverByte base off len s) :=
    noFault_ite (noFault_next _) (noFault_next _)
  unfold hostRead
  cases target s off with
  | register =>
    refine noFault_ite ?_ (noFault_refused _)
    cases regAt off with
    | none => exact noFault_next _
    | some r => exact noFault_next _
  | rx => exact noFault_ite (hbyte _ _) (noFault_refused _)
  | tx => exact noFault_ite (hbyte _ _) (noFault_refused _)
  | outside => exact noFault_refused _

theorem writeReg_noFault (r : Reg) (v : Word) (s : State) : NoFault (writeReg r v s) := by
  cases r
  case cmd => exact unlessBusy_noFault (exec_decodeCommand_noFault v s)
  case rxLen => exact unlessBusy_noFault (noFault_next _)
  case argIp => exact unlessBusy_noFault (noFault_next _)
  all_goals exact noFault_next _

theorem hostWrite_noFault (off : Nat) (size : AccessSize) (v : Word) (s : State) :
    NoFault (hostWrite off size v s) := by
  unfold hostWrite
  cases target s off with
  | register =>
    refine noFault_ite ?_ (noFault_refused _)
    cases regAt off with
    | none => exact noFault_next _
    | some r => exact writeReg_noFault r v s
  | rx => exact noFault_ite (unlessBusy_noFault (noFault_next _)) (noFault_refused _)
  | tx => exact noFault_ite (noFault_next _) (noFault_refused _)
  | outside => exact noFault_refused _

theorem performHost_noFault (a : HostAction) (s : State) : NoFault (performHost a s) := by
  cases a with
  | read off size => exact hostRead_noFault off size s
  | write off size v => exact hostWrite_noFault off size v s
  | wrbuf off B => exact noFault_ite (unlessBusy_noFault (noFault_next _)) (noFault_refused _)
  | tx report => exact noFault_next _
  | reset => exact noFault_next _

theorem step_noFault (s : State) : NoFault (step s) := by
  unfold step nextAction
  split
  · exact noFault_next _
  · exact performHost_noFault _ _

/-! ## The fault that names the read -/

@[simp] theorem orFault_error {α : Type} (f : Fault) (k : α → StepResult) : orFault (.error f) k = .fault f := rfl

/-- Settles O4: a truncated read stops with its own fault, and a step performs one action of the host, none of which
faults. -/
theorem noStepFaults : Obligations.NoStepFaults := by
  refine ⟨step_noFault, fun B off k h => ?_, fun B off k h => ?_, fun B off k h => ?_, fun B off n k h => ?_⟩
  · rw [readU8_truncated h, orFault_error]
  · rw [readU16_truncated h, orFault_error]
  · rw [readU32_truncated h, orFault_error]
  · rw [readBytes_truncated h, orFault_error]

end Sys2Proof.Proofs
end

section
/-! The checksum accumulator (40_codec_checksum.md R124): the sum over the words, and the loop that folds it. -/

namespace Sys2Proof.Proofs
open Sys2Proof.Machine Sys2Proof.Laws

/-! ## The words of a byte string -/

@[simp] theorem wordsOf_nil : wordsOf [] = [] := rfl

@[simp] theorem wordsOf_singleton (a : Byte) : wordsOf [a] = [a.toNat * 2 ^ 8] := by
  simp [wordsOf, wordAt, byteAt]

/-- Past the first two bytes the words are those of the rest. -/
theorem wordAt_cons_cons_succ (a b : Byte) (rest : Bytes) (k : Nat) :
    wordAt (a :: b :: rest) (k + 1) = wordAt rest k := by
  have hhigh : byteAt (a :: b :: rest) (2 * (k + 1)) = byteAt rest (2 * k) := rfl
  have hlow : byteAt (a :: b :: rest) (2 * (k + 1) + 1) = byteAt rest (2 * k + 1) := rfl
  have hlen : 2 * (k + 1) + 1 < (a :: b :: rest).length ↔ 2 * k + 1 < rest.length := by
    simp only [List.length_cons]
    omega
  simp only [wordAt, hhigh, hlow, hlen]

@[simp] theorem wordsOf_cons_cons (a b : Byte) (rest : Bytes) :
    wordsOf (a :: b :: rest) = (a.toNat * 2 ^ 8 + b.toNat) :: wordsOf rest := by
  have hcount : ((a :: b :: rest).length + 1) / 2 = (rest.length + 1) / 2 + 1 := by
    simp only [List.length_cons]
    omega
  have hfirst : wordAt (a :: b :: rest) 0 = a.toNat * 2 ^ 8 + b.toNat := by
    simp [wordAt, byteAt]
  have htail : wordAt (a :: b :: rest) ∘ Nat.succ = wordAt rest := funext (wordAt_cons_cons_succ a b rest)
  rw [wordsOf, hcount, List.range_succ_eq_map, List.map_cons, List.map_map, hfirst, htail, wordsOf]

theorem sum16_eq_sum_wordsOf (B : Bytes) : sum16 B = (wordsOf B).sum := by
  induction B using sum16.induct with
  | case1 => rfl
  | case2 a => simp [sum16]
  | case3 a b rest ih => simp [sum16, ih]

/-! ## The loop -/

/-- A pass of the loop makes a sum that needs one strictly smaller. -/
theorem fold_pass_lt {s : Nat} (h : 2 ^ 16 ≤ s) : (s &&& 0xFFFF) + (s >>> 16) < s := by
  rw [fold_pass]
  omega

theorem fold_of_lt {s : Nat} (h : s < 2 ^ 16) : fold s = s := by
  rw [fold_eq]
  split_ifs <;> omega

/-- A pass of the loop changes nothing that `fold` answers: 2^16 is 1 modulo 0xFFFF, and no positive sum becomes 0. -/
theorem fold_fold_pass (s : Nat) : fold ((s &&& 0xFFFF) + (s >>> 16)) = fold s := by
  have hmod : (s % 65536 + s / 65536) % 65535 = s % 65535 := by omega
  have hzero : s % 65536 + s / 65536 = 0 ↔ s = 0 := by omega
  simp only [fold_pass, fold_eq, hmod, hzero]

theorem fold_eq_loop (s : Nat) : fold s = if 2 ^ 16 ≤ s then fold ((s &&& 0xFFFF) + (s >>> 16)) else s := by
  split_ifs with h
  · exact (fold_fold_pass s).symm
  · exact fold_of_lt (Nat.lt_of_not_ge h)

theorem fold_eq_zero_iff (s : Nat) : fold s = 0 ↔ s = 0 := by
  rw [fold_eq]
  split_ifs with hzero hmultiple
  · exact iff_of_true rfl hzero
  · exact iff_of_false (by decide) hzero
  · exact iff_of_false hmultiple hzero

theorem fold_mod (s : Nat) : fold s % 0xFFFF = s % 0xFFFF := by
  rw [fold_eq]
  split_ifs <;> omega

/-- Settles O15: the words are summed pair by pair, and the closed form of `fold` is left alone by a pass of the loop. -/
theorem sumAndFoldAsTheSpecWritesThem : Obligations.SumAndFoldAsTheSpecWritesThem :=
  ⟨sum16_eq_sum_wordsOf, fold_eq_loop, fun _ => fold_pass_lt,
    fun s => ⟨fold_eq_zero_iff s, Nat.le_of_lt_succ (fold_lt s), fold_mod s⟩⟩

end Sys2Proof.Proofs
end

section
/-! The Ethernet codec (41_ethernet.md R141, R144, R145): the decoder undoes the encoder. -/

namespace Sys2Proof.Proofs
open Sys2Proof.Machine Sys2Proof.Laws

@[simp] theorem ethEncode_length (dst src : Mac) (ethertype : Half) (payload : Bytes) :
    (ethEncode dst src ethertype payload).length = 14 + payload.length := by
  simp only [ethEncode, List.length_append, u48_length, u16_length]

/-- Each field of the view is read from the window (R70) that the encoder filled with that field's own bytes. -/
@[simp] theorem ethOf_ethEncode (dst src : Mac) (ethertype : Half) (payload : Bytes) :
    ethOf (ethEncode dst src ethertype payload) = ⟨dst, src, ethertype, payload⟩ := by
  rw [ethOf, EthView.mk.injEq]
  exact ⟨macOfBytes_u48 dst, macOfBytes_u48 src, be16_u16 ethertype, rfl⟩

/-- Settles O20: an encoded frame holds a whole header, so it decodes to its view, whose fields are the encoded ones. -/
theorem ethernetRoundTrip : Obligations.EthernetRoundTrip := by
  intro dst src ethertype payload
  have hlength := ethEncode_length dst src ethertype payload
  have hheader : 14 ≤ (ethEncode dst src ethertype payload).length := hlength ▸ Nat.le_add_right 14 _
  exact ⟨by rw [decodeEth_ok hheader, ethOf_ethEncode], hlength⟩

end Sys2Proof.Proofs
end

section
/-! The ARP cache's lookup (42_arp.md R165): unique keys (10_state.md R24) make the answered index the only one. -/

namespace Sys2Proof.Proofs
open Sys2Proof.Machine Sys2Proof.Laws

/-- Two places of a cache with unique keys that hold entries in use with one key are the same place (R24). -/
theorem uniqueKeys_index_eq {cache : List Entry} (hkeys : UniqueKeys cache) {i j : Nat} {a b : Entry}
    (ha : cache[i]? = some a) (hb : cache[j]? = some b) (hafree : a.state ≠ .free) (hbfree : b.state ≠ .free)
    (hip : a.ip = b.ip) : i = j := by
  obtain ⟨hi, rfl⟩ := List.getElem?_eq_some_iff.1 ha
  obtain ⟨hj, rfl⟩ := List.getElem?_eq_some_iff.1 hb
  have hpairs := List.pairwise_iff_getElem.1 hkeys
  rcases Nat.lt_trichotomy i j with hlt | heq | hgt
  · exact absurd hip (hpairs i j hi hj hlt hafree hbfree)
  · exact heq
  · exact absurd hip.symm (hpairs j i hj hi hgt hbfree hafree)

/-- The answered index holds an entry in use with the key. -/
theorem lookup_some_getElem? {cache : List Entry} {ip : Word} {i : Nat} (h : lookup cache ip = some i) :
    ∃ e, cache[i]? = some e ∧ e.state ≠ .free ∧ e.ip = ip := by
  obtain ⟨hi, hfree, hip⟩ := lookup_some h
  rw [List.getD_eq_getElem _ _ hi] at hfree hip
  exact ⟨cache[i], List.getElem?_eq_getElem hi, hfree, hip⟩

/-- Where an entry in use holds the key, the lookup answers its index, since no other index qualifies. -/
theorem lookup_eq_some_of_uniqueKeys {cache : List Entry} (hkeys : UniqueKeys cache) {ip : Word} {i : Nat} {e : Entry}
    (he : cache[i]? = some e) (hfree : e.state ≠ .free) (hip : e.ip = ip) : lookup cache ip = some i := by
  cases hl : lookup cache ip with
  | none => exact absurd hip (lookup_none hl e (List.mem_of_getElem? he) hfree)
  | some j =>
    obtain ⟨e', he', hfree', hip'⟩ := lookup_some_getElem? hl
    rw [uniqueKeys_index_eq hkeys he he' hfree hfree' (hip.trans hip'.symm)]

/-- Without an entry in use that holds the key, the lookup answers nothing. -/
theorem lookup_eq_none {cache : List Entry} {ip : Word} (h : ∀ e ∈ cache, e.state ≠ .free → e.ip ≠ ip) :
    lookup cache ip = none := by
  cases hl : lookup cache ip with
  | none => rfl
  | some j =>
    obtain ⟨e, he, hfree, hip⟩ := lookup_some_getElem? hl
    exact absurd hip (h e (List.mem_of_getElem? he) hfree)

/-- Settles O27: the answered entry qualifies in any cache, and unique keys leave no second one that does. -/
theorem lookupFindsTheUniqueEntry : Obligations.LookupFindsTheUniqueEntry := by
  intro cache ip hkeys
  refine ⟨fun i => ⟨lookup_some_getElem?, ?_⟩, lookup_none, lookup_eq_none⟩
  rintro ⟨e, he, hfree, hip⟩
  exact lookup_eq_some_of_uniqueKeys hkeys he hfree hip

end Sys2Proof.Proofs
end

section
/-! No eviction (42_arp.md R177): only a learn writes the cache, and it writes a Free slot, a new place, or the MAC of an entry
it found. -/

namespace Sys2Proof.Proofs
open Sys2Proof.Machine Sys2Proof.Laws

/-- One entry stands for the other: only the MAC may differ. -/
def SameButMac (e e' : Entry) : Prop := e'.state = e.state ∧ e'.ip = e.ip ∧ e'.hwtype = e.hwtype

/-- Every entry in use keeps its place, and all of it but the MAC (R25, R177). -/
def KeepsEntries (old cur : List Entry) : Prop :=
  ∀ (j : Nat) (e : Entry), old[j]? = some e → e.state ≠ .free → ∃ e', cur[j]? = some e' ∧ SameButMac e e'

theorem keepsEntries_refl (cache : List Entry) : KeepsEntries cache cache :=
  fun _ e he _ => ⟨e, he, rfl, rfl, rfl⟩

theorem keepsEntries_of_eq {old cur : List Entry} (h : cur = old) : KeepsEntries old cur :=
  h ▸ keepsEntries_refl old

/-! ## The learn -/

theorem keepsEntries_append (cache new : List Entry) : KeepsEntries cache (cache ++ new) := by
  intro j e he _
  obtain ⟨hj, -⟩ := List.getElem?_eq_some_iff.1 he
  exact ⟨e, by rw [List.getElem?_append_left hj, he], rfl, rfl, rfl⟩

/-- An overwritten place keeps every entry when what stood there was Free, or differs from the new entry in the MAC only. -/
theorem keepsEntries_set {cache : List Entry} {i : Nat} {new : Entry}
    (h : ∀ e, cache[i]? = some e → e.state ≠ .free → SameButMac e new) : KeepsEntries cache (cache.set i new) := by
  intro j e he hfree
  obtain ⟨hj, -⟩ := List.getElem?_eq_some_iff.1 he
  rcases eq_or_ne i j with rfl | hne
  · exact ⟨new, List.getElem?_set_self hj, h e he hfree⟩
  · exact ⟨e, by rw [List.getElem?_set_ne hne, he], rfl, rfl, rfl⟩

/-- The slot an insert takes is Free (R167). -/
theorem freeIndex_some {cache : List Entry} {j : Nat} {e : Entry} (h : freeIndex cache = some j)
    (he : cache[j]? = some e) : e.state = .free := by
  obtain ⟨hj, hfree, -⟩ := List.findIdx?_eq_some_iff_getElem.1 h
  obtain ⟨-, rfl⟩ := List.getElem?_eq_some_iff.1 he
  exact of_decide_eq_true hfree

theorem learn_keepsEntries {arp : ArpView} {s l : State} (h : learn arp s = .ok l) : KeepsEntries s.cache l.cache := by
  rcases learn_ok h with ⟨i, -, -, rfl⟩ | ⟨-, -, rfl⟩ | ⟨n, j, -, -, hj, rfl⟩
  · refine keepsEntries_set fun e he _ => ?_
    rw [List.getD_eq_getElem?_getD, he]
    exact ⟨rfl, rfl, rfl⟩
  · exact keepsEntries_append _ _
  · exact keepsEntries_set fun e he hfree => absurd (freeIndex_some hj he) hfree

theorem learned_keepsEntries {s l : State} (h : Learned s l) : KeepsEntries s.cache l.cache := by
  rcases h with rfl | ⟨arp, -, h⟩
  · exact keepsEntries_refl _
  · exact learn_keepsEntries h

/-! ## The commands -/

/-- Accepted or refused by the channel, a frame does not touch the cache. -/
theorem transmit_cache {out : Bytes} {r : Reason} {s t : State} (h : transmit out r s = .next t) :
    t.cache = s.cache := by
  rcases transmit_cases out r s with ⟨-, ht⟩ | ⟨-, ht⟩
  · obtain rfl : finish r (handOver out s) = t := by simpa [ht] using h
    rw [finish_cache, handOver_cache]
  · obtain rfl : enterHalt (handOver out s) = t := by simpa [ht] using h
    rw [enterHalt_cache, handOver_cache]

theorem frameEnd_keepsEntries {s t : State} {x : StepResult} (hx : FrameEnd s x) (h : x = .next t) :
    KeepsEntries s.cache t.cache := by
  cases hx with
  | dropped r _ =>
    cases h
    exact keepsEntries_of_eq (finish_cache r s)
  | consumed l r hl _ =>
    cases h
    rw [finish_cache]
    exact learned_keepsEntries hl
  | sent l out r hl _ _ =>
    rw [transmit_cache h]
    exact learned_keepsEntries hl

theorem execProcessFrame_keepsEntries {s t : State} (h : execProcessFrame s = .next t) :
    KeepsEntries s.cache t.cache := by
  simp only [execProcessFrame, reject] at h
  split_ifs at h
  · cases h
    exact keepsEntries_of_eq (by simp)
  · cases h
    exact keepsEntries_of_eq (by simp)
  · have hkeeps : KeepsEntries ({ beginCommand s with txLen := 0#16 } : State).cache t.cache :=
      frameEnd_keepsEntries (frameIncoming_end _) h
    exact hkeeps

theorem execCacheLookup_cache {s t : State} (h : execCacheLookup s = .next t) : t.cache = s.cache := by
  simp only [execCacheLookup] at h
  split at h <;> cases h <;> simp

theorem execChecksum_cache {s t : State} (h : execChecksum s = .next t) : t.cache = s.cache := by
  simp only [execChecksum, reject] at h
  split_ifs at h <;> cases h <;> simp

theorem execRestart_cache {s t : State} (h : execRestart s = .next t) : t.cache = s.cache := by
  cases h
  simp

theorem execCmdIllegal_cache {v : Word} {s t : State} (h : execCmdIllegal v s = .next t) : t.cache = s.cache := by
  cases h
  simp

/-- No value of `CMD` removes an entry (R90, R177). -/
theorem exec_decodeCommand_keepsEntries {v : Word} {s t : State} (h : exec (decodeCommand v) s = .next t) :
    KeepsEntries s.cache t.cache := by
  unfold decodeCommand at h
  split_ifs at h
  · exact execProcessFrame_keepsEntries h
  · exact keepsEntries_of_eq (execCacheLookup_cache h)
  · exact keepsEntries_of_eq (execChecksum_cache h)
  · exact keepsEntries_of_eq (execRestart_cache h)
  · exact keepsEntries_of_eq (execCmdIllegal_cache (v := v) h)

/-! ## The host's actions -/

theorem hostWrite_keepsEntries {off : Nat} {size : AccessSize} {v : Word} {s t : State}
    (h : hostWrite off size v s = .next t) : KeepsEntries s.cache t.cache := by
  rcases hostWrite_next h with
    rfl | ⟨-, ⟨-, -, hexec⟩ | ⟨-, -, rfl⟩ | ⟨-, -, rfl⟩ | ⟨-, -, -, rfl⟩⟩
  · exact keepsEntries_refl _
  · exact exec_decodeCommand_keepsEntries hexec
  · exact keepsEntries_refl _
  · exact keepsEntries_refl _
  · exact keepsEntries_refl _

/-- Of the host's actions only the reset event removes entries (R177, R332). -/
theorem performHost_keepsEntries {a : HostAction} {s t : State} (hreset : a ≠ .reset)
    (h : performHost a s = .next t) : KeepsEntries s.cache t.cache := by
  cases a with
  | read off size =>
    rw [hostRead_next h]
    exact keepsEntries_refl _
  | write off size v => exact hostWrite_keepsEntries h
  | wrbuf off B =>
    obtain ⟨-, -, rfl⟩ := hostWriteBuffer_next h
    exact keepsEntries_refl _
  | tx report =>
    cases h
    exact keepsEntries_refl _
  | reset => exact absurd rfl hreset

/-- Settles O52: a step waits or performs one action of the host, and none of those but reset removes an entry. -/
theorem entriesAreNeverEvicted : Obligations.EntriesAreNeverEvicted := by
  intro s t j e h hreset he hfree
  rcases step_next h with ⟨-, rfl⟩ | ⟨a, rest, hs, ha⟩
  · exact keepsEntries_refl _ j e he hfree
  · have ha' : a ≠ .reset := by
      rintro rfl
      exact hreset (by rw [hs]; rfl)
    exact performHost_keepsEntries ha' ha j e he hfree

end Sys2Proof.Proofs
end

section
/-! The IPv4 header codec (43_ipv4.md R195, R201; 30_encoding.md R74 to R76): the decoder undoes the encoder. -/

namespace Sys2Proof.Proofs
open Sys2Proof.Machine Sys2Proof.Laws

@[simp] theorem ipv4Encode_length (h : Ipv4View) : (ipv4Encode h).length = 20 + h.options.length := by
  simp only [ipv4Encode, List.length_append, u8_length, u16_length, u32_length]

/-! ## The packed fields (R75, R76) -/

@[simp] theorem ipVersion_append (version ihl : BitVec 4) : ipVersion (version ++ ihl) = version :=
  BitVec.extractLsb'_append_eq_left

@[simp] theorem ipIhl_append (version ihl : BitVec 4) : ipIhl (version ++ ihl) = ihl :=
  BitVec.extractLsb'_append_eq_right

/-! ## The whole header -/

@[simp] theorem headerLen_ipv4Encode (h : Ipv4View) (rest : Bytes) :
    headerLen (ipv4Encode h ++ rest) = 4 * h.ihl.toNat :=
  congrArg headerBytes (ipIhl_append h.version h.ihl)

/-- Each field of the view is read from the window (R74) that the encoder filled with that field's own bytes, and the
options are what `IHL` says they are. -/
theorem ipv4Of_ipv4Encode {h : Ipv4View} (rest : Bytes) (hoptions : h.options.length = 4 * h.ihl.toNat - 20) :
    ipv4Of (ipv4Encode h ++ rest) = h := by
  have hword : be16 (byteAt (ipv4Encode h ++ rest) 6) (byteAt (ipv4Encode h ++ rest) 7) = h.flags ++ h.fragoff :=
    be16_u16 (h.flags ++ h.fragoff)
  rw [ipv4Of, hword, headerLen_ipv4Encode, ← hoptions]
  cases h
  rw [Ipv4View.mk.injEq]
  exact ⟨ipVersion_append _ _, ipIhl_append _ _, rfl, be16_u16 _, be16_u16 _, BitVec.extractLsb'_append_eq_left,
    BitVec.extractLsb'_append_eq_right, rfl, rfl, be16_u16 _, be32_u32 _, be32_u32 _, List.take_left⟩

/-- Settles O21: an encoded header whose options fill its `IHL` is a whole header, so it decodes to its view. -/
theorem ipv4HeaderRoundTrip : Obligations.Ipv4HeaderRoundTrip := by
  intro h rest hihl hoptions
  have hlength : (ipv4Encode h).length = 4 * h.ihl.toNat := by
    rw [ipv4Encode_length, hoptions]
    omega
  have hminimum : 20 ≤ headerLen (ipv4Encode h ++ rest) := by
    rw [headerLen_ipv4Encode]
    omega
  have hwhole : headerLen (ipv4Encode h ++ rest) ≤ (ipv4Encode h ++ rest).length := by
    rw [headerLen_ipv4Encode, List.length_append, hlength]
    exact Nat.le_add_right _ _
  exact ⟨by rw [decodeIpv4_ok hminimum hwhole, ipv4Of_ipv4Encode rest hoptions], hlength⟩

end Sys2Proof.Proofs
end

section
/-! The header checksum of the turnaround (43_ipv4.md R199, R200): the swapped addresses leave the word sum alone
(40_codec_checksum.md R130 law 3), so the construction finds the received checksum again. -/

namespace Sys2Proof.Proofs
open Sys2Proof.Machine Sys2Proof.Laws

/-! ## Constructing the checksum of a region that validates -/

/-- In a region that validates, with a word other than the field that is not zero, the checksum over the zeroed field is the
field's own value, except that of the two zeros only 0x0000 is constructed (R127, R130 law 4). -/
theorem checksum_zeroed_field {R : Bytes} {c : Nat} (heven : c % 2 = 0) (hfield : c + 2 ≤ R.length)
    (hvalid : checksum R R.length = 0#16) (hrest : 0 < sum16 (writeU16 R c 0#16)) :
    checksum (writeU16 R c 0#16) R.length
      = if be16 (byteAt R c) (byteAt R (c + 1)) = 0xFFFF#16 then 0x0000#16 else be16 (byteAt R c) (byteAt R (c + 1)) := by
  obtain ⟨-, hmod⟩ := (checksum_eq_zero_iff R R.length (Nat.le_refl _)).mp hvalid
  have hsum := sum16_writeU16 R c 0#16 heven hfield
  have hlength := writeU16_length R c 0#16 hfield
  generalize be16 (byteAt R c) (byteAt R (c + 1)) = v at hsum ⊢
  have hv := v.isLt
  have hallOnes : v = 0xFFFF#16 ↔ v.toNat = 65535 := BitVec.toNat_inj.symm
  rw [BitVec.toNat_ofNat, Nat.zero_mod, Nat.add_zero] at hsum
  apply BitVec.eq_of_toNat_eq
  rw [checksum_full _ _ (Nat.le_of_eq hlength), fold_eq, if_neg (Nat.ne_of_gt hrest)]
  simp only [hallOnes, apply_ite BitVec.toNat, BitVec.toNat_ofNat]
  split_ifs <;> omega

/-! ## The received header -/

/-- The header bytes of a datagram and its decoded view are about the same header (R195, R198). -/
structure HeaderOfView (d : Datagram) : Prop where
  minimum : 20 ≤ d.header.length
  length : d.header.length = headerBytes d.ip.ihl
  ihl : ipIhl (byteAt d.header 0) = d.ip.ihl
  hcsum : be16 (byteAt d.header 10) (byteAt d.header 11) = d.ip.hcsum
  saddr : be32 (byteAt d.header 12) (byteAt d.header 13) (byteAt d.header 14) (byteAt d.header 15) = d.ip.saddr
  daddr : be32 (byteAt d.header 16) (byteAt d.header 17) (byteAt d.header 18) (byteAt d.header 19) = d.ip.daddr

theorem headerOfView_datagramOf {F : Bytes} (hF : holdsDatagram F) : HeaderOfView (datagramOf F) := by
  obtain ⟨hlength, -⟩ := datagramOf_lengths hF
  obtain ⟨-, hminimum, -, -⟩ := hF
  have hbyte (i : Nat) (hi : i < 20) : byteAt (datagramOf F).header i = byteAt (F.drop 14) i :=
    byteAt_take _ _ _ (Nat.lt_of_lt_of_le hi hminimum)
  constructor
  case minimum => rwa [hlength]
  case length => exact hlength
  all_goals
    simp only [hbyte, Nat.reduceLT]
    rfl

theorem headerOfView_of_operand {s : State} {d : Datagram} (h : datagramOperand s = .ok d) : HeaderOfView d := by
  obtain ⟨hF, rfl⟩ := datagramOperand_inv h
  exact headerOfView_datagramOf hF

/-- The first byte is not zero, because its `IHL` is not. -/
theorem HeaderOfView.firstByte_pos {d : Datagram} (h : HeaderOfView d) : 0 < (byteAt d.header 0).toNat := by
  refine Nat.pos_of_ne_zero fun hzero => ?_
  have hbyte : byteAt d.header 0 = 0#8 := BitVec.eq_of_toNat_eq hzero
  have hihl : headerBytes d.ip.ihl = 0 := by
    rw [← h.ihl, hbyte]
    rfl
  have hminimum := h.minimum
  rw [h.length, hihl] at hminimum
  exact absurd hminimum (by decide)

theorem sum16_pos_of_firstByte {B : Bytes} (hlength : 2 ≤ B.length) (hfirst : 0 < (byteAt B 0).toNat) : 0 < sum16 B := by
  have hsplit := sum16_split2 B 0 rfl hlength
  rw [be16_toNat] at hsplit
  omega

/-! ## The header with its addresses swapped -/

/-- The header whose addresses traded places, before the checksum is constructed anew (R199). -/
def swappedHeader (d : Datagram) : Bytes := writeU32 (writeU32 d.header 12 d.ip.daddr) 16 d.ip.saddr

/-- The turnaround constructs the checksum at offset 10 of the swapped header. -/
theorem turnaroundHeader_eq (d : Datagram) :
    turnaroundHeader d = writeU16 (writeU16 (swappedHeader d) 10 0#16) 10
      (checksum (writeU16 (swappedHeader d) 10 0#16) (headerBytes d.ip.ihl)) := rfl

section
variable {d : Datagram} (h : HeaderOfView d)
include h

theorem writeDaddr_length : (writeU32 d.header 12 d.ip.daddr).length = d.header.length :=
  writeU32_length _ _ _ (Nat.le_trans (by decide) h.minimum)

theorem swappedHeader_length : (swappedHeader d).length = d.header.length := by
  have hfirst := writeDaddr_length h
  rw [swappedHeader, writeU32_length _ _ _ (hfirst ▸ h.minimum), hfirst]

theorem swappedHeader_holds_hcsum : 10 + 2 ≤ (swappedHeader d).length :=
  swappedHeader_length h ▸ Nat.le_trans (by decide) h.minimum

/-- The swap leaves every byte before the addresses as it was. -/
theorem byteAt_swappedHeader {i : Nat} (hi : i < 12) : byteAt (swappedHeader d) i = byteAt d.header i := by
  have hminimum := h.minimum
  have hfirst := writeDaddr_length h
  rw [swappedHeader, byteAt_writeU32_other _ _ _ _ (by omega) (by omega),
    byteAt_writeU32_other _ _ _ _ (by omega) (by omega)]

/-- Each write exchanges one address for the other at an even offset, so together they keep the sum (R130 law 3). -/
theorem sum16_swappedHeader : sum16 (swappedHeader d) = sum16 d.header := by
  have hminimum := h.minimum
  have hlength := writeDaddr_length h
  have hfirst := sum16_writeU32 d.header 12 d.ip.daddr rfl (by omega)
  have hsecond := sum16_writeU32 (writeU32 d.header 12 d.ip.daddr) 16 d.ip.saddr rfl (by omega)
  have hdaddr (i : Nat) (hi : 16 ≤ i) : byteAt (writeU32 d.header 12 d.ip.daddr) i = byteAt d.header i :=
    byteAt_writeU32_other _ _ _ _ (by omega) (.inr hi)
  simp only [hdaddr, Nat.reduceAdd, Nat.reduceLeDiff, h.daddr] at hsecond
  rw [h.saddr] at hfirst
  rw [swappedHeader]
  omega

theorem checksum_swappedHeader (hvalid : checksum d.header d.header.length = 0#16) :
    checksum (swappedHeader d) (swappedHeader d).length = 0#16 := by
  rw [checksum_eq_zero_iff _ _ (Nat.le_refl _)] at hvalid ⊢
  rwa [sum16_swappedHeader h]

/-- A word besides the checksum is not zero: the first one holds `IHL`. -/
theorem sum16_zeroedSwappedHeader_pos : 0 < sum16 (writeU16 (swappedHeader d) 10 0#16) := by
  have hholds := swappedHeader_holds_hcsum h
  have hlength := writeU16_length (swappedHeader d) 10 0#16 hholds
  have hbyte : byteAt (writeU16 (swappedHeader d) 10 0#16) 0 = byteAt d.header 0 := by
    rw [byteAt_writeU16_other _ _ _ _ hholds (.inl (by decide)), byteAt_swappedHeader h (by decide)]
  exact sum16_pos_of_firstByte (by omega) (hbyte ▸ h.firstByte_pos)

/-- The checksum field of the turnaround's header holds the checksum constructed over the swapped header. -/
theorem readU16_turnaroundHeader :
    readU16 (turnaroundHeader d) 10
      = .ok (checksum (writeU16 (swappedHeader d) 10 0#16) (swappedHeader d).length) := by
  have hholds := swappedHeader_holds_hcsum h
  have hzeroed : 10 + 2 ≤ (writeU16 (swappedHeader d) 10 0#16).length :=
    (writeU16_length _ _ 0#16 hholds).symm ▸ hholds
  rw [turnaroundHeader_eq, ← h.length, ← swappedHeader_length h,
    readU16_ok ((writeU16_length _ _ _ hzeroed).symm ▸ hzeroed), be16_writeU16_same _ _ _ hzeroed]

end

/-- Settles O34: the swapped header validates as the received one does, so the construction over its zeroed field answers the
received checksum, of the two zeros always 0x0000. -/
theorem recomputedHeaderChecksumIsTheReceivedOne : Obligations.RecomputedHeaderChecksumIsTheReceivedOne := by
  intro s d hd hvalid
  have h := headerOfView_of_operand hd
  have hfield : be16 (byteAt (swappedHeader d) 10) (byteAt (swappedHeader d) 11) = d.ip.hcsum := by
    rw [byteAt_swappedHeader h (by decide), byteAt_swappedHeader h (by decide), h.hcsum]
  have hconstructed := checksum_zeroed_field rfl (swappedHeader_holds_hcsum h) (checksum_swappedHeader h hvalid)
    (sum16_zeroedSwappedHeader_pos h)
  rw [readU16_turnaroundHeader h, hconstructed, hfield]

end Sys2Proof.Proofs
end

section
/-! The checksum of the echo reply (44_icmp.md R224): the reply is the request with its first word changed and the checksum
constructed anew (40_codec_checksum.md R127), so the new checksum follows from the old one by ones'-complement arithmetic. -/

namespace Sys2Proof.Proofs
open Sys2Proof.Machine Sys2Proof.Laws

/-! ## Word sums that are zero -/

/-- No word can cancel another, so a sum of zero is a string of zero bytes. -/
theorem sum16_eq_zero_iff (B : Bytes) : sum16 B = 0 ↔ ∀ i, byteAt B i = 0#8 := by
  induction B using sum16.induct with
  | case1 => simp [sum16, byteAt]
  | case2 a =>
    have ha : a.toNat = 0 ↔ a = 0#8 := BitVec.toNat_inj (y := 0#8)
    simp only [sum16, Nat.mul_eq_zero, ha]
    refine ⟨?_, fun h => .inl (h 0)⟩
    rintro (rfl | h) i
    · cases i <;> rfl
    · exact absurd h (by decide)
  | case3 a b rest ih =>
    have ha : a.toNat = 0 ↔ a = 0#8 := BitVec.toNat_inj (y := 0#8)
    have hb : b.toNat = 0 ↔ b = 0#8 := BitVec.toNat_inj (y := 0#8)
    simp only [sum16, Nat.add_eq_zero_iff, Nat.mul_eq_zero, ha, hb, ih]
    refine ⟨?_, fun h => ⟨⟨.inl (h 0), h 1⟩, fun i => h (i + 2)⟩⟩
    rintro ⟨⟨rfl | h, rfl⟩, hrest⟩ i
    · match i with
      | 0 => rfl
      | 1 => rfl
      | i + 2 => exact hrest i
    · exact absurd h (by decide)

/-- A zeroed field holds zero bytes and every other byte is as it was (R127). -/
theorem byteAt_zeroedField {B : Bytes} {off : Nat} (h : off + 2 ≤ B.length) (i : Nat) :
    byteAt (writeU16 B off 0#16) i = if off ≤ i ∧ i < off + 2 then 0#8 else byteAt B i := by
  rw [writeU16, byteAt_splice _ _ _ _ h, u16_length, (sum16_eq_zero_iff (u16 0#16)).mp (sum16_u16 0#16)]

/-! ## Ones'-complement arithmetic -/

/-- When a sum and a positive number are complementary, the complement of the folded sum is the folded number, except that
of the two zeros 0x0000 is answered, or 0xFFFF for the sum 0. -/
theorem complement_fold_eq {sum x : Nat} (hx : 0 < x) (hmod : (sum + x) % 65535 = 0) :
    65535 - fold sum = if fold x = 65535 then if sum = 0 then 65535 else 0 else fold x := by
  rw [fold_eq sum, fold_eq x, if_neg (Nat.ne_of_gt hx)]
  split_ifs <;> omega

/-! ## Checksum construction (R127) -/

section
variable {R : Bytes} {c : Nat} (h : c + 2 ≤ R.length)
include h

theorem zeroedField_holds_field : c + 2 ≤ (writeU16 R c 0#16).length :=
  (writeU16_length R c 0#16 h).symm ▸ h

/-- The construction leaves every byte outside the field as it was. -/
theorem byteAt_constructChecksum_other {i : Nat} (hi : i < c ∨ c + 2 ≤ i) :
    byteAt (constructChecksum R c) i = byteAt R i := by
  rw [constructChecksum, byteAt_writeU16_other _ _ _ _ (zeroedField_holds_field h) hi,
    byteAt_writeU16_other _ _ _ _ h hi]

theorem readU16_constructChecksum :
    readU16 (constructChecksum R c) c = .ok (checksum (writeU16 R c 0#16) R.length) := by
  rw [readU16_ok ((constructChecksum_length R c h).symm ▸ h), constructChecksum,
    be16_writeU16_same _ _ _ (zeroedField_holds_field h), writeU16_length _ _ _ h]

/-- The complement of the folded sum over the zeroed field. -/
theorem checksum_zeroed_toNat :
    (checksum (writeU16 R c 0#16) R.length).toNat = 65535 - fold (sum16 (writeU16 R c 0#16)) :=
  checksum_full _ _ (Nat.le_of_eq (writeU16_length R c 0#16 h))

theorem sum16_constructChecksum (heven : c % 2 = 0) :
    sum16 (constructChecksum R c)
      = sum16 (writeU16 R c 0#16) + (65535 - fold (sum16 (writeU16 R c 0#16))) := by
  have hsum := sum16_writeU16 (writeU16 R c 0#16) c (checksum (writeU16 R c 0#16) R.length) heven
    (zeroedField_holds_field h)
  rw [be16_writeU16_same _ _ _ h, checksum_zeroed_toNat h, BitVec.toNat_ofNat, Nat.zero_mod, Nat.add_zero] at hsum
  rw [constructChecksum, writeU16_length _ _ _ h, hsum]

/-- A region whose checksum was constructed at an even offset validates (R130 law 1). -/
theorem checksum_constructChecksum (heven : c % 2 = 0) : checksum (constructChecksum R c) R.length = 0#16 := by
  rw [checksum_eq_zero_iff _ _ (Nat.le_of_eq (constructChecksum_length R c h)), sum16_constructChecksum h heven, fold_eq]
  split_ifs <;> omega

end

/-! ## The echo reply -/

/-- The request with its type 0, before the checksum is constructed anew (R223). -/
def retypedRequest (M : Bytes) : Bytes := splice M 0 (u8 0#8)

theorem echoReply_eq (M : Bytes) : echoReply M = constructChecksum (retypedRequest M) 2 := rfl

section
variable {M : Bytes} (hlength : 8 ≤ M.length)
include hlength

theorem retypedRequest_length : (retypedRequest M).length = M.length :=
  splice_length _ _ _ (Nat.le_trans (by decide) hlength)

theorem retypedRequest_holds_csum : 2 + 2 ≤ (retypedRequest M).length :=
  retypedRequest_length hlength ▸ Nat.le_trans (by decide) hlength

theorem byteAt_retypedRequest (i : Nat) : byteAt (retypedRequest M) i = if i = 0 then 0#8 else byteAt M i := by
  rw [retypedRequest, byteAt_splice _ _ _ _ (Nat.le_trans (by decide) hlength), u8_length]
  cases i with
  | zero => rfl
  | succ i => rw [if_neg (by omega), if_neg (Nat.succ_ne_zero i)]

/-- The type is the high byte of the first word. -/
theorem retypedRequest_eq_writeU16 : retypedRequest M = writeU16 M 0 (be16 0#8 (byteAt M 1)) := by
  match M, hlength with
  | _ :: _ :: _, _ => simp [retypedRequest, writeU16, splice, byteAt, u8]

/-- The type of an Echo Request, 8, is the high byte of the word that the reply loses from its sum. -/
theorem sum16_retypedRequest (htype : byteAt M 0 = 8#8) : sum16 (retypedRequest M) + 0x0800 = sum16 M := by
  have hsum := sum16_writeU16 M 0 (be16 0#8 (byteAt M 1)) rfl (Nat.le_trans (by decide) hlength)
  rw [Nat.zero_add, htype, be16_toNat, be16_toNat, BitVec.toNat_ofNat, BitVec.toNat_ofNat] at hsum
  rw [retypedRequest_eq_writeU16 hlength]
  omega

/-- The sum over the reply's zeroed field lacks the request's type and its checksum. -/
theorem sum16_zeroedReply (htype : byteAt M 0 = 8#8) {csum : Half} (hcsum : readU16 M 2 = .ok csum) :
    sum16 (writeU16 (retypedRequest M) 2 0#16) + (csum.toNat + 0x0800) = sum16 M := by
  obtain ⟨-, hfield⟩ := readU16_inv hcsum
  have hsum := sum16_writeU16 (retypedRequest M) 2 0#16 rfl (retypedRequest_holds_csum hlength)
  have hretyped := sum16_retypedRequest hlength htype
  rw [byteAt_retypedRequest hlength, byteAt_retypedRequest hlength, if_neg (by decide), if_neg (by decide),
    ← hfield, BitVec.toNat_ofNat, Nat.zero_mod, Nat.add_zero] at hsum
  rw [← hretyped, ← hsum, Nat.add_assoc]

/-- The sum over the reply's zeroed field is 0 exactly when every byte but the type and the checksum is. -/
theorem sum16_zeroedReply_eq_zero_iff :
    sum16 (writeU16 (retypedRequest M) 2 0#16) = 0 ↔ ∀ i, i = 1 ∨ 4 ≤ i → byteAt M i = 0#8 := by
  have hbyte (i : Nat) : byteAt (writeU16 (retypedRequest M) 2 0#16) i
      = if i = 1 ∨ 4 ≤ i then byteAt M i else 0#8 := by
    rw [byteAt_zeroedField (retypedRequest_holds_csum hlength), byteAt_retypedRequest hlength]
    by_cases hi : i = 1 ∨ 4 ≤ i
    · rw [if_pos hi, if_neg (by omega), if_neg (by omega)]
    · rw [if_neg hi]
      split_ifs with hfield htype
      · rfl
      · rfl
      · omega
  simp only [sum16_eq_zero_iff, hbyte, ite_eq_right_iff]

theorem byteAt_echoReply_type : byteAt (echoReply M) 0 = 0#8 := by
  rw [echoReply_eq, byteAt_constructChecksum_other (retypedRequest_holds_csum hlength) (.inl (by decide)),
    byteAt_retypedRequest hlength, if_pos rfl]

/-- The reply has the request's bytes but for the type and the checksum. -/
theorem byteAt_echoReply_other {i : Nat} (hi : i = 1 ∨ 4 ≤ i) : byteAt (echoReply M) i = byteAt M i := by
  rw [echoReply_eq, byteAt_constructChecksum_other (retypedRequest_holds_csum hlength) (by omega),
    byteAt_retypedRequest hlength, if_neg (by omega)]

theorem checksum_echoReply : checksum (echoReply M) M.length = 0#16 := by
  rw [echoReply_eq, ← retypedRequest_length hlength]
  exact checksum_constructChecksum (retypedRequest_holds_csum hlength) rfl

/-- The reply's checksum is the folded sum of the request's and 0x0800, of the two zeros 0x0000, or 0xFFFF when no other byte
of the reply is set (R224). -/
theorem echoReply_csum_toNat (hvalid : checksum M M.length = 0#16) (htype : byteAt M 0 = 8#8) {csum csum' : Half}
    (hcsum : readU16 M 2 = .ok csum) (hcsum' : readU16 (echoReply M) 2 = .ok csum') :
    csum'.toNat = if fold (csum.toNat + 0x0800) = 65535
      then if sum16 (writeU16 (retypedRequest M) 2 0#16) = 0 then 65535 else 0
      else fold (csum.toNat + 0x0800) := by
  have hholds := retypedRequest_holds_csum hlength
  obtain ⟨-, hmod⟩ := (checksum_eq_zero_iff M M.length (Nat.le_refl _)).mp hvalid
  rw [← sum16_zeroedReply hlength htype hcsum] at hmod
  rw [echoReply_eq, readU16_constructChecksum hholds, Except.ok.injEq] at hcsum'
  rw [← hcsum', checksum_zeroed_toNat hholds, complement_fold_eq (Nat.succ_pos _) hmod]

end

/-- Settles O37: the laws of the echo reply's bytes and of its constructed checksum, with the sum of the other bytes deciding
which of the two zeros is constructed. -/
theorem echoReplyDiffersInTypeAndChecksumOnly : Obligations.EchoReplyDiffersInTypeAndChecksumOnly := by
  intro M hlength hvalid htype
  refine ⟨echoReply_length M (Nat.le_trans (by decide) hlength), byteAt_echoReply_type hlength,
    fun i => byteAt_echoReply_other hlength, checksum_echoReply hlength, fun csum csum' hcsum hcsum' => ?_⟩
  have hnew := echoReply_csum_toNat hlength hvalid htype hcsum hcsum'
  have hrest := sum16_zeroedReply_eq_zero_iff hlength
  refine ⟨?_, fun hfold => ?_, fun hfold => ⟨fun hzero => ?_, fun ⟨i, hi, hset⟩ => ?_⟩⟩
  · rw [hnew, ← fold_mod (csum.toNat + 0x0800)]
    split_ifs <;> omega
  · rw [hnew, if_neg hfold]
  · rw [if_pos hfold, if_pos (hrest.mpr hzero)] at hnew
    exact BitVec.eq_of_toNat_eq hnew
  · rw [if_pos hfold, if_neg fun hsum => hset (hrest.mp hsum i hi)] at hnew
    exact BitVec.eq_of_toNat_eq hnew

end Sys2Proof.Proofs
end

section
/-! The commands' effects (46_host_commands.md R276 to R284): what each command answers in each of its cases, as the state with
only the named registers written. -/

namespace Sys2Proof.Proofs
open Sys2Proof.Machine Sys2Proof.Laws

/-! ## The `STATUS` word at the end of a command (R273) -/

/-- Of a reason there are two words, one for each value of `HALTED`. -/
theorem statusWord_eq_ite (halted : Bool) (r : Reason) :
    statusWord halted r = if halted then statusWord true r else statusWord false r := by
  cases halted with
  | false => rfl
  | true => rfl

/-- A rejected command leaves no trace of its issue: `STATUS` is written anew and the engine is idle again (R270). -/
theorem reject_beginCommand (r : Reason) (s : State) :
    reject r (beginCommand s) = .next (statusOnly (statusWord s.halted r) s) := rfl

/-! ## PROCESS_FRAME (R276 to R278) -/

theorem exec_processFrame_of_halted {s : State} (h : s.halted = true) :
    exec .processFrame s = .next (statusOnly (statusWord true .cmdHalted) s) := by
  have hreject : exec .processFrame s = reject .cmdHalted (beginCommand s) := if_pos h
  rw [hreject, reject_beginCommand, h]

theorem exec_processFrame_of_tooLong {s : State} (hrunning : s.halted = false) (hlong : s.cfg.maxFrame < s.rxLen.toNat) :
    exec .processFrame s = .next (statusOnly (statusWord false .frameTooLong) s) := by
  have hreject : exec .processFrame s = reject .frameTooLong (beginCommand s) :=
    (if_neg (Bool.eq_false_iff.mp hrunning)).trans (if_pos hlong)
  rw [hreject, reject_beginCommand, hrunning]

/-- Settles O43: `HALTED` is checked first, then the length, and each rejection writes the word of its reason. -/
theorem processFrameRejections : Obligations.ProcessFrameRejections := by
  refine ⟨fun s hhalted => ?_, fun s hrunning hlong => ?_⟩
  · rw [exec_processFrame_of_halted hhalted]
    rfl
  · rw [exec_processFrame_of_tooLong hrunning hlong]
    rfl

/-! ## CACHE_LOOKUP (R280) -/

/-- The fields of `LK_INFO` do not overlap, so laying them side by side adds them at their places (R34). -/
theorem lookupInfo_toNat (e : Entry) :
    (lookupInfo e).toNat = e.hwtype.toNat * 2 ^ 16 + (entryStateCode e.state).toNat * 2 + 1 := by
  have hsum : (lookupInfo e).toNat
      = ((e.hwtype.toNat * 2 ^ 13 + 0) * 2 ^ 2 + (entryStateCode e.state).toNat) * 2 ^ 1 + 1 := by
    simp only [lookupInfo, append_toNat, BitVec.toNat_ofNat, Nat.zero_mod, Nat.one_mod]
  rw [hsum]
  ring

/-- The two lookup registers of a MAC hold all of it: the upper 16 bits and the lower 32 (R34). -/
theorem mac_hi_lo_toNat (mac : Mac) :
    (mac.extractLsb' 32 16).toNat * 2 ^ 32 + (mac.extractLsb' 0 32).toNat = mac.toNat := by
  have hmac := mac.isLt
  simp only [BitVec.extractLsb'_toNat, Nat.shiftRight_eq_div_pow]
  omega

theorem exec_cacheLookup_of_hit {s : State} {i : Nat} {e : Entry} (hl : lookup s.cache s.argIp = some i)
    (he : s.cache[i]? = some e) :
    exec .cacheLookup s = .next (statusOnly (statusWord s.halted .lookupDone)
      { s with lkInfo := lookupInfo e, lkMacHi := e.mac.extractLsb' 32 16, lkMacLo := e.mac.extractLsb' 0 32 }) := by
  have hentry : s.cache.getD i Entry.empty = e := by rw [List.getD_eq_getElem?_getD, he, Option.getD_some]
  simp only [exec, execCacheLookup, beginCommand_cache, beginCommand_argIp, hl, hentry]
  rfl

theorem exec_cacheLookup_of_miss {s : State} (hl : lookup s.cache s.argIp = none) :
    exec .cacheLookup s = .next (statusOnly (statusWord s.halted .lookupDone)
      { s with lkInfo := 0#32, lkMacHi := 0#16, lkMacLo := 0#32 }) := by
  simp only [exec, execCacheLookup, beginCommand_cache, beginCommand_argIp, hl]
  rfl

/-- Settles O46: a hit writes the entry's `LK_INFO` and the two parts of its MAC, which read back as the entry's fields; a
miss writes zeros. -/
theorem cacheLookupShowsTheEntry : Obligations.CacheLookupShowsTheEntry := by
  refine ⟨fun s i e hl he => ⟨lookupInfo e, _, _, ?_, lookupInfo_toNat e, mac_hi_lo_toNat e.mac⟩, fun s hl => ?_⟩
  · rw [exec_cacheLookup_of_hit hl he, statusWord_eq_ite]
    rfl
  · rw [exec_cacheLookup_of_miss hl, statusWord_eq_ite]
    rfl

/-! ## CHECKSUM (R282) -/

theorem exec_checksum_of_fits {s : State} (h : s.rxLen.toNat ≤ s.cfg.maxFrame) :
    exec .checksum s = .next (statusOnly (statusWord s.halted .checksumDone)
      { s with csumResult := checksum (rxFrame s) s.rxLen.toNat }) :=
  if_neg h.not_gt

theorem exec_checksum_of_tooLong {s : State} (h : s.cfg.maxFrame < s.rxLen.toNat) :
    exec .checksum s = .next (statusOnly (statusWord s.halted .frameTooLong) s) :=
  (if_pos h).trans (reject_beginCommand .frameTooLong s)

/-- Settles O47: the length decides between the sum and the rejection, and `HALTED` only shows in `STATUS`. -/
theorem checksumCommandSumsTheBuffer : Obligations.ChecksumCommandSumsTheBuffer := by
  refine fun s => ⟨fun hfits => ?_, fun hlong => ?_⟩
  · rw [exec_checksum_of_fits hfits, statusWord_eq_ite]
    rfl
  · rw [exec_checksum_of_tooLong hlong, statusWord_eq_ite]
    rfl

/-! ## RESTART and the illegal values of `CMD` (R283, R284) -/

/-- The return from the fatal event leaves no trace of the command's issue either (R270, R309). -/
theorem leaveHalt_beginCommand (s : State) :
    leaveHalt (beginCommand s) = statusOnly (statusWord false .restartDone) { s with halted := false } := rfl

/-- RESTART is the return from the fatal event, whether the block is halted or not. -/
theorem exec_restart (s : State) :
    exec .restart s = .next (statusOnly (statusWord false .restartDone) { s with halted := false }) :=
  congrArg Host.Outcome.next (leaveHalt_beginCommand s)

/-- Settles O48: the return from the fatal event clears `HALTED`, so its word is RESTART_DONE's with the flag 0. -/
theorem restartClearsOnlyHalted : Obligations.RestartClearsOnlyHalted := by
  intro s
  rw [exec_restart]
  rfl

theorem exec_cmdIllegal (v : Word) (s : State) :
    exec (.cmdIllegal v) s = .next (statusOnly (statusWord s.halted .cmdIllegal) s) :=
  reject_beginCommand .cmdIllegal s

/-- Settles O49: the value is rejected whatever `HALTED` is, with the word of CMD_ILLEGAL for that flag. -/
theorem illegalCommandWritesOnlyStatus : Obligations.IllegalCommandWritesOnlyStatus := by
  intro s v
  rw [exec_cmdIllegal, statusWord_eq_ite]
  rfl

end Sys2Proof.Proofs
end

section
/-! What reset establishes (70_reset_and_hazards.md R330), and the reset event as a step of its own (R332). -/

namespace Sys2Proof.Proofs
open Sys2Proof.Machine Sys2Proof.Laws

/-! ## The cache at reset (R23, R330) -/

theorem emptyCache_of_inf {c : Config} (h : c.arpCapacity = none) : emptyCache c = [] := by
  rw [emptyCache, h]

theorem emptyCache_of_capacity {c : Config} {n : Nat} (h : c.arpCapacity = some n) :
    emptyCache c = List.replicate n ⟨.free, 0#32, 0#16, 0#48⟩ := by
  rw [emptyCache, h]
  rfl

/-! ## The reset states -/

/-- Every register stands at R330's value by definition; the cache is the one that needs the two kinds of capacity. -/
theorem resetValues_resetOf (c : Config) : ResetValues c (State.resetOf c) := by
  have hcache : (State.resetOf c).cache = emptyCache c := rfl
  refine ⟨rfl, ?_, rfl, rfl, rfl, rfl, rfl, rfl, rfl, rfl, rfl, rfl, rfl⟩
  cases hcap : c.arpCapacity with
  | none => rw [hcache, emptyCache_of_inf hcap]
  | some n => rw [hcache, emptyCache_of_capacity hcap]

/-- The reset event keeps only fields that R330 does not speak of: the model's own ones, and the configuration (R332). -/
theorem resetValues_applyReset (s : State) : ResetValues s.cfg (applyReset s) :=
  resetValues_resetOf s.cfg

/-! ## The reset event -/

/-- With an action of the host pending, the step performs it, taken from the queue (R342). -/
theorem step_of_host_cons {s : State} {a : HostAction} {rest : List HostAction} (h : s.host = a :: rest) :
    step s = performHost a { s with host := rest } := by
  rw [step, nextAction, h]

theorem step_of_reset {s : State} {rest : List HostAction} (h : s.host = .reset :: rest) :
    step s = .next (applyReset { s with host := rest }) :=
  step_of_host_cons h

/-- Settles O1: the reset event's next state shares every field R330 names with the reset state of the same configuration. -/
theorem resetEstablishesStatedValues : Obligations.ResetEstablishesStatedValues :=
  ⟨resetValues_resetOf, resetValues_resetOf Config.reference,
    fun s rest h => ⟨_, step_of_reset h, resetValues_applyReset { s with host := rest }⟩⟩

end Sys2Proof.Proofs
end

section
/-! The dispatch map's codec (30_encoding.md R87 to R91): the decoder and the encoder of the rows undo each other, and only a
field that is not whole is refused. -/

namespace Sys2Proof.Proofs
open Sys2Proof.Machine Sys2Proof.Laws

/-! ## What each level's decoder answers on its field -/

theorem decode_ethernet (a b : Byte) (rest : Bytes) :
    decode .ethernet (a :: b :: rest) = .ok (decodeEthertype (be16 a b), rest) := rfl

theorem decode_arp (a b : Byte) (rest : Bytes) :
    decode .arp (a :: b :: rest) = .ok (decodeArpOpcode (be16 a b), rest) := rfl

theorem decode_ipv4 (a : Byte) (rest : Bytes) : decode .ipv4 (a :: rest) = .ok (decodeIpv4Proto a, rest) := rfl

theorem decode_icmp (a : Byte) (rest : Bytes) : decode .icmp (a :: rest) = .ok (decodeIcmpType a, rest) := rfl

theorem decode_tcp (a : Byte) (rest : Bytes) : decode .tcp (a :: rest) = .ok (decodeTcpFlags a, rest) := rfl

theorem decode_command (a b c d : Byte) (rest : Bytes) :
    decode .command (a :: b :: c :: d :: rest) = .ok (decodeCommand (be32 a b c d), rest) := rfl

theorem decode_ethernet_u16 (t : Half) (rest : Bytes) :
    decode .ethernet (u16 t ++ rest) = .ok (decodeEthertype t, rest) :=
  (decode_ethernet _ _ rest).trans (by rw [be16_u16])

theorem decode_arp_u16 (op : Half) (rest : Bytes) : decode .arp (u16 op ++ rest) = .ok (decodeArpOpcode op, rest) :=
  (decode_arp _ _ rest).trans (by rw [be16_u16])

theorem decode_command_u32 (v : Word) (rest : Bytes) : decode .command (u32 v ++ rest) = .ok (decodeCommand v, rest) :=
  (decode_command _ _ _ _ rest).trans (by rw [be32_u32])

/-- SYN is bit 1 (R85). -/
theorem synSet_eq_getLsbD (f : Byte) : synSet f = f.getLsbD 1 := by
  have hmask : f &&& 0x02#8 = if f.getLsbD 1 then BitVec.twoPow 8 1 else 0#8 := BitVec.and_twoPow f 1
  rw [synSet, hmask]
  cases f.getLsbD 1 <;> rfl

/-- Settles O5: a row without an operand has the value that selects it, and a catch-all row's well-formedness says that no
earlier row of its level matches (R88, R91). -/
theorem decodeOfEncodeIsTheInstruction : Obligations.DecodeOfEncodeIsTheInstruction := by
  intro i rest hwf
  cases i with
  | ethArp => exact decode_ethernet_u16 _ rest
  | ethIpv4 => exact decode_ethernet_u16 _ rest
  | ethOther t =>
    have hrow : t ≠ 0x0806#16 ∧ t ≠ 0x0800#16 := by simpa [Instr.wf] using hwf
    refine (decode_ethernet_u16 t rest).trans ?_
    rw [decodeEthertype, if_neg hrow.1, if_neg hrow.2]
  | arpRequest => exact decode_arp_u16 _ rest
  | arpReply => exact decode_arp_u16 _ rest
  | arpOther op =>
    have hrow : op ≠ 1#16 ∧ op ≠ 2#16 := by simpa [Instr.wf] using hwf
    refine (decode_arp_u16 op rest).trans ?_
    rw [decodeArpOpcode, if_neg hrow.1, if_neg hrow.2]
  | ipv4Icmp => exact decode_ipv4 _ rest
  | ipv4Tcp => exact decode_ipv4 _ rest
  | ipv4Other p =>
    have hrow : p ≠ 1#8 ∧ p ≠ 6#8 := by simpa [Instr.wf] using hwf
    refine (decode_ipv4 p rest).trans ?_
    rw [decodeIpv4Proto, if_neg hrow.1, if_neg hrow.2]
  | icmpEchoRequest => exact decode_icmp _ rest
  | icmpOther t =>
    have hrow : t ≠ 8#8 := by simpa [Instr.wf] using hwf
    refine (decode_icmp t rest).trans ?_
    rw [decodeIcmpType, if_neg hrow]
  | tcpSyn f =>
    have hrow : f.getLsbD 1 = true := hwf
    refine (decode_tcp f rest).trans ?_
    rw [decodeTcpFlags, synSet_eq_getLsbD, if_pos hrow]
  | tcpNonsyn f =>
    have hrow : f.getLsbD 1 = false := by simpa [Instr.wf] using hwf
    refine (decode_tcp f rest).trans ?_
    rw [decodeTcpFlags, synSet_eq_getLsbD, if_neg (by rw [hrow]; decide)]
  | processFrame => exact decode_command_u32 _ rest
  | cacheLookup => exact decode_command_u32 _ rest
  | checksum => exact decode_command_u32 _ rest
  | restart => exact decode_command_u32 _ rest
  | cmdIllegal v =>
    have hrow : ((v ≠ 1#32 ∧ v ≠ 2#32) ∧ v ≠ 3#32) ∧ v ≠ 4#32 := by simpa [Instr.wf] using hwf
    obtain ⟨⟨⟨h1, h2⟩, h3⟩, h4⟩ := hrow
    refine (decode_command_u32 v rest).trans ?_
    rw [decodeCommand, if_neg h1, if_neg h2, if_neg h3, if_neg h4]

/-! ## The row a field's value selects -/

/-- The row that a field with the given bytes selects at a level: well formed, of the level, and encoded as those bytes. -/
def RowOf (l : Level) (field : Bytes) (i : Instr) : Prop := i.wf = true ∧ i.level = l ∧ encode i = field

theorem rowOf_decodeEthertype (t : Half) : RowOf .ethernet (u16 t) (decodeEthertype t) := by
  unfold decodeEthertype
  split_ifs with h1 h2
  · exact ⟨rfl, rfl, by rw [h1]; rfl⟩
  · exact ⟨rfl, rfl, by rw [h2]; rfl⟩
  · exact ⟨by simp [Instr.wf, h1, h2], rfl, rfl⟩

theorem rowOf_decodeArpOpcode (op : Half) : RowOf .arp (u16 op) (decodeArpOpcode op) := by
  unfold decodeArpOpcode
  split_ifs with h1 h2
  · exact ⟨rfl, rfl, by rw [h1]; rfl⟩
  · exact ⟨rfl, rfl, by rw [h2]; rfl⟩
  · exact ⟨by simp [Instr.wf, h1, h2], rfl, rfl⟩

theorem rowOf_decodeIpv4Proto (p : Byte) : RowOf .ipv4 (u8 p) (decodeIpv4Proto p) := by
  unfold decodeIpv4Proto
  split_ifs with h1 h2
  · exact ⟨rfl, rfl, by rw [h1]; rfl⟩
  · exact ⟨rfl, rfl, by rw [h2]; rfl⟩
  · exact ⟨by simp [Instr.wf, h1, h2], rfl, rfl⟩

theorem rowOf_decodeIcmpType (t : Byte) : RowOf .icmp (u8 t) (decodeIcmpType t) := by
  unfold decodeIcmpType
  split_ifs with h
  · exact ⟨rfl, rfl, by rw [h]; rfl⟩
  · exact ⟨by simp [Instr.wf, h], rfl, rfl⟩

theorem rowOf_decodeTcpFlags (f : Byte) : RowOf .tcp (u8 f) (decodeTcpFlags f) := by
  unfold decodeTcpFlags
  split_ifs with h <;> rw [synSet_eq_getLsbD] at h
  · exact ⟨h, rfl, rfl⟩
  · exact ⟨by rw [Instr.wf, Bool.eq_false_iff.mpr h]; rfl, rfl, rfl⟩

theorem rowOf_decodeCommand (v : Word) : RowOf .command (u32 v) (decodeCommand v) := by
  unfold decodeCommand
  split_ifs with h1 h2 h3 h4
  · exact ⟨rfl, rfl, by rw [h1]; rfl⟩
  · exact ⟨rfl, rfl, by rw [h2]; rfl⟩
  · exact ⟨rfl, rfl, by rw [h3]; rfl⟩
  · exact ⟨rfl, rfl, by rw [h4]; rfl⟩
  · exact ⟨by simp [Instr.wf, h1, h2, h3, h4], rfl, rfl⟩

/-- A string that holds its level's whole field decodes to the row of that field, and the bytes after it are the rest. -/
theorem decode_rowOf {l : Level} {B : Bytes} (h : l.width ≤ B.length) :
    ∃ i field rest, decode l B = .ok (i, rest) ∧ RowOf l field i ∧ field ++ rest = B := by
  match l, B, h with
  | .ethernet, a :: b :: rest, _ =>
    exact ⟨_, _, rest, decode_ethernet a b rest, rowOf_decodeEthertype _, by rw [u16_be16]; rfl⟩
  | .arp, a :: b :: rest, _ => exact ⟨_, _, rest, decode_arp a b rest, rowOf_decodeArpOpcode _, by rw [u16_be16]; rfl⟩
  | .ipv4, a :: rest, _ => exact ⟨_, _, rest, decode_ipv4 a rest, rowOf_decodeIpv4Proto a, rfl⟩
  | .icmp, a :: rest, _ => exact ⟨_, _, rest, decode_icmp a rest, rowOf_decodeIcmpType a, rfl⟩
  | .tcp, a :: rest, _ => exact ⟨_, _, rest, decode_tcp a rest, rowOf_decodeTcpFlags a, rfl⟩
  | .command, a :: b :: c :: d :: rest, _ =>
    exact ⟨_, _, rest, decode_command a b c d rest, rowOf_decodeCommand _, by rw [u32_be32]; rfl⟩

/-- A string shorter than its level's field is refused. -/
theorem decode_short {l : Level} {B : Bytes} (h : B.length < l.width) : decode l B = .error (.shortField l B.length) := by
  match l, B, h with
  | .ethernet, [], _ => rfl
  | .ethernet, [_], _ => rfl
  | .arp, [], _ => rfl
  | .arp, [_], _ => rfl
  | .ipv4, [], _ => rfl
  | .icmp, [], _ => rfl
  | .tcp, [], _ => rfl
  | .command, [], _ => rfl
  | .command, [_], _ => rfl
  | .command, [_, _], _ => rfl
  | .command, [_, _, _], _ => rfl
  | .command, _ :: _ :: _ :: _ :: _, h =>
    simp only [List.length_cons, Level.width] at h
    omega

theorem decode_isOk_iff (l : Level) (B : Bytes) : (∃ x, decode l B = .ok x) ↔ l.width ≤ B.length := by
  refine ⟨fun ⟨x, hx⟩ => ?_, fun h => ?_⟩
  · refine Nat.le_of_not_lt fun hshort => ?_
    rw [decode_short hshort] at hx
    cases hx
  · obtain ⟨i, -, rest, hdecode, -⟩ := decode_rowOf h
    exact ⟨(i, rest), hdecode⟩

/-- Settles O6: what decodes holds a whole field, so it is the row of that field. -/
theorem encodeOfDecodeIsTheBytes : Obligations.EncodeOfDecodeIsTheBytes := by
  refine ⟨fun l B i rest h => ?_, decode_isOk_iff⟩
  obtain ⟨j, field, rest', hdecode, ⟨hwf, hlevel, hencode⟩, hbytes⟩ := decode_rowOf ((decode_isOk_iff l B).1 ⟨_, h⟩)
  rw [h, Except.ok.injEq, Prod.mk.injEq] at hdecode
  obtain ⟨rfl, rfl⟩ := hdecode
  exact ⟨hwf, hlevel, hencode ▸ hbytes⟩

/-- Settles O7: each word is the field of its row, the catch-all rows with the value as their operand. -/
theorem specWordsDecodeToTheirRows : Obligations.SpecWordsDecodeToTheirRows := by
  refine ⟨decode_ethernet _ _ _, decode_ethernet _ _ _, decode_arp _ _ _, decode_ipv4 _ _, decode_icmp _ _,
    decode_tcp _ _, decode_tcp _ _, decode_command _ _ _ _ _, decode_command _ _ _ _ _⟩

end Sys2Proof.Proofs
end

section
/-! The invariant of the block (Sys2Proof/Safety.lean): it holds at reset, and every step keeps it. Between the issue of a command
and its end the engine is busy, so what a command's parts keep is that the invariant holds once the command ends. -/

namespace Sys2Proof.Proofs
open Sys2Proof.Machine Sys2Proof.Laws

/-! ## Reset (R330) -/

theorem mem_emptyCache {c : Config} {e : Entry} (h : e ∈ emptyCache c) : e = Entry.empty := by
  unfold emptyCache at h
  split at h
  · cases h
  · exact (List.mem_replicate.1 h).2

/-- Under `INF` the cache holds only entries in use (R22). -/
theorem cacheSize_of_inf {c : Config} (hcap : c.arpCapacity = none) (cache : List Entry) :
    CacheSize c cache ↔ ∀ e ∈ cache, e.state ≠ .free := by
  rw [CacheSize, hcap]

theorem cacheSize_of_capacity {c : Config} {n : Nat} (hcap : c.arpCapacity = some n) (cache : List Entry) :
    CacheSize c cache ↔ cache.length = n := by
  rw [CacheSize, hcap]

theorem emptyCache_size (c : Config) : CacheSize c (emptyCache c) := by
  cases hcap : c.arpCapacity with
  | none =>
    rw [cacheSize_of_inf hcap, emptyCache_of_inf hcap]
    exact fun e he => nomatch he
  | some n => rw [cacheSize_of_capacity hcap, emptyCache_of_capacity hcap, List.length_replicate]

/-- Among Free entries no two hold a key. -/
theorem uniqueKeys_emptyCache (c : Config) : UniqueKeys (emptyCache c) :=
  List.pairwise_iff_getElem.2 fun _ _ hi _ _ hfree _ => absurd (by rw [mem_emptyCache (List.getElem_mem hi)]; rfl) hfree

theorem liveEntries_emptyCache (c : Config) : liveEntries (emptyCache c) = 0 :=
  List.countP_eq_zero.2 fun e he => by rw [mem_emptyCache he]; decide

/-- The reserved bits of `LK_INFO` at reset, and after a lookup that misses (R34). -/
theorem zero_reserved : (0#32).extractLsb' 3 13 = 0#13 := by decide

/-- Settles O2: at reset every entry is Free, no buffer byte is written, and the registers are 0. -/
theorem resetMeetsTheInvariant : Obligations.ResetMeetsTheInvariant := fun c hc =>
  { config := hc
    memory := reset_mem_wf c
    buffers := fun _ h => nomatch h
    idle := rfl
    status := ⟨.none, (by decide : 0#16 = statusWord false .none)⟩
    cacheSize := emptyCache_size c
    entries := fun _ he => .inl (mem_emptyCache he)
    keys := uniqueKeys_emptyCache c
    count := by
      rw [show (State.resetOf c).cache = emptyCache c from rfl, liveEntries_emptyCache]
      rfl
    txFits := Nat.zero_le _
    lookupReserved := zero_reserved }

/-! ## The end of a command -/

/-- The invariant holds once the running command ends, whatever its reason. -/
def InvAtFinish (s : State) : Prop := ∀ r, Inv (finish r s)

theorem inv_atFinish {s : State} (h : Inv s) : InvAtFinish s := fun r => { h with idle := rfl, status := ⟨r, rfl⟩ }

/-- The issue of a command writes only what its end writes again. -/
theorem inv_beginCommand {s : State} (h : Inv s) : InvAtFinish (beginCommand s) := fun r =>
  (inv_atFinish h r : Inv (finish r s))

theorem InvAtFinish.enterHalt {s : State} (h : InvAtFinish s) : Inv (enterHalt s) :=
  { h .none with idle := rfl, status := ⟨.txFailure, rfl⟩ }

theorem InvAtFinish.leaveHalt {s : State} (h : InvAtFinish s) : Inv (leaveHalt s) :=
  { h .none with idle := rfl, status := ⟨.restartDone, rfl⟩ }

theorem InvAtFinish.clearTxLen {s : State} (h : InvAtFinish s) : InvAtFinish { s with txLen := 0#16 } := fun r =>
  { h r with txFits := Nat.zero_le _ }

/-- A frame that fits `TXBUF` is stored in it. -/
theorem InvAtFinish.handOver {s : State} (h : InvAtFinish s) {out : Bytes} (hfits : out.length ≤ s.cfg.maxFrame) :
    InvAtFinish (handOver out s) := fun r =>
  { h r with
    memory := memSetBytes_wf _ _ _ (h r).memory
    buffers := fun c hc => by
      rcases mem_memSetBytes _ _ _ _ hc with hc | hc
      · exact .inr ⟨hc.1, Nat.lt_of_lt_of_le hc.2 (Nat.add_le_add_left hfits _)⟩
      · exact (h r).buffers c hc
    txFits := Nat.le_trans (Nat.mod_le _ _) hfits }

theorem InvAtFinish.transmit {s t : State} (h : InvAtFinish s) {out : Bytes} {r : Reason}
    (hfits : out.length ≤ s.cfg.maxFrame) (ht : transmit out r s = .next t) : Inv t := by
  rcases transmit_cases out r s with ⟨-, he⟩ | ⟨-, he⟩ <;> rw [he] at ht <;> cases ht
  · exact h.handOver hfits r
  · exact (h.handOver hfits).enterHalt

/-! ## The cache after a learn (R24, R25, R27) -/

theorem countUp_toNat (n : Word) : (countUp n).toNat = min (n.toNat + 1) (2 ^ 32 - 1) := by
  have hn := n.isLt
  have hmax : n = 0xFFFFFFFF#32 ↔ n.toNat = 2 ^ 32 - 1 := BitVec.toNat_inj.symm
  unfold countUp
  split_ifs with h
  · rw [hmax.1 h]
    rfl
  · rw [hmax] at h
    rw [BitVec.toNat_add, BitVec.toNat_ofNat]
    omega

/-- A new entry whose key no other entry in use holds keeps the keys unique. -/
theorem uniqueKeys_set {cache : List Entry} {i : Nat} {new : Entry} (h : UniqueKeys cache)
    (hnew : ∀ k e, k ≠ i → cache[k]? = some e → e.state ≠ .free → e.ip ≠ new.ip) : UniqueKeys (cache.set i new) := by
  refine List.pairwise_iff_getElem.2 fun j k hj hk hlt hjfree hkfree => ?_
  rw [List.length_set] at hj hk
  have hold := List.pairwise_iff_getElem.1 h j k hj hk hlt
  have hother (m : Nat) (hm : m < cache.length) (hmi : m ≠ i) := hnew m cache[m] hmi (List.getElem?_eq_getElem hm)
  simp only [List.getElem_set] at hjfree hkfree ⊢
  by_cases hji : i = j
  · have hki : i ≠ k := by omega
    rw [if_neg hki] at hkfree
    rw [if_pos hji, if_neg hki]
    exact (hother k hk hki.symm hkfree).symm
  · rw [if_neg hji] at hjfree ⊢
    by_cases hki : i = k
    · rw [if_pos hki]
      exact hother j hj (Ne.symm hji) hjfree
    · rw [if_neg hki] at hkfree ⊢
      exact hold hjfree hkfree

/-- What the invariant says of the cache alone. -/
structure CacheInv (c : Config) (cache : List Entry) (count : Word) : Prop where
  size : CacheSize c cache
  entries : ∀ e ∈ cache, LegalEntry e
  keys : UniqueKeys cache
  count : count.toNat = min (liveEntries cache) (2 ^ 32 - 1)

theorem InvAtFinish.cacheInv {s : State} (h : InvAtFinish s) : CacheInv s.cfg s.cache s.cacheCount :=
  ⟨(h .none).cacheSize, (h .none).entries, (h .none).keys, (h .none).count⟩

theorem InvAtFinish.withCache {s : State} (h : InvAtFinish s) {cache : List Entry} {count : Word}
    (hc : CacheInv s.cfg cache count) : InvAtFinish { s with cache := cache, cacheCount := count } := fun r =>
  { h r with cacheSize := hc.size, entries := hc.entries, keys := hc.keys, count := hc.count }

section
variable {c : Config} {cache : List Entry} {count : Word} (h : CacheInv c cache count)
include h

/-- A merge changes the MAC of an entry, which the invariant does not speak of. -/
theorem CacheInv.merge {i : Nat} {e : Entry} (he : cache[i]? = some e) (hfree : e.state ≠ .free) (mac : Mac) :
    CacheInv c (cache.set i { e with mac := mac }) count := by
  obtain ⟨hi, rfl⟩ := List.getElem?_eq_some_iff.1 he
  have hlive : liveEntries (cache.set i { cache[i] with mac := mac }) = liveEntries cache := by
    have hcount : 0 < liveEntries cache :=
      List.countP_pos_iff.2 ⟨cache[i], List.getElem_mem hi, decide_eq_true hfree⟩
    unfold liveEntries at hcount ⊢
    rw [List.countP_set hi, if_pos (decide_eq_true hfree)]
    exact Nat.sub_add_cancel hcount
  refine ⟨?_, fun x hx => ?_, uniqueKeys_set h.keys fun k x hk hx hxfree hip => ?_, hlive ▸ h.count⟩
  · have hsize := h.size
    cases hcap : c.arpCapacity with
    | none =>
      rw [cacheSize_of_inf hcap] at hsize ⊢
      intro x hx
      rcases List.mem_or_eq_of_mem_set hx with hx | rfl
      · exact hsize x hx
      · exact hfree
    | some n =>
      rw [cacheSize_of_capacity hcap] at hsize ⊢
      rwa [List.length_set]
  · rcases List.mem_or_eq_of_mem_set hx with hx | rfl
    · exact h.entries x hx
    · rcases h.entries _ (List.getElem_mem hi) with hempty | hlegal
      · exact absurd (hempty ▸ rfl) hfree
      · exact .inr hlegal
  · exact hk (uniqueKeys_index_eq h.keys hx (List.getElem?_eq_getElem hi) hxfree hfree hip)

/-- An append under `INF` adds one entry in use, whose key no other holds. -/
theorem CacheInv.append {ip : Word} (hcap : c.arpCapacity = none) (hip : lookup cache ip = none) (mac : Mac) :
    CacheInv c (cache ++ [Entry.learned ip 1#16 mac]) (countUp count) := by
  have hcount := h.count
  refine ⟨?_, fun x hx => ?_, List.pairwise_append.2 ⟨h.keys, List.pairwise_singleton .., fun a ha b hb hafree _ => ?_⟩, ?_⟩
  · have hsize := h.size
    rw [cacheSize_of_inf hcap] at hsize ⊢
    intro x hx
    rcases List.mem_append.1 hx with hx | hx
    · exact hsize x hx
    · rw [List.mem_singleton.1 hx]
      exact EntryState.noConfusion
  · rcases List.mem_append.1 hx with hx | hx
    · exact h.entries x hx
    · rw [List.mem_singleton.1 hx]
      exact .inr ⟨rfl, rfl⟩
  · rw [List.mem_singleton.1 hb]
    exact lookup_none hip a ha hafree
  · have hlive : liveEntries (cache ++ [Entry.learned ip 1#16 mac]) = liveEntries cache + 1 := List.countP_append
    rw [countUp_toNat, hlive]
    omega

/-- An insert turns one Free entry into one in use, whose key no other holds. -/
theorem CacheInv.insert {n j : Nat} {ip : Word} (hcap : c.arpCapacity = some n) (hip : lookup cache ip = none)
    (hj : freeIndex cache = some j) (mac : Mac) :
    CacheInv c (cache.set j (Entry.learned ip 1#16 mac)) (countUp count) := by
  have hcount := h.count
  obtain ⟨hlt, -⟩ := List.findIdx?_eq_some_iff_getElem.1 hj
  have hfree := freeIndex_some hj (List.getElem?_eq_getElem hlt)
  refine ⟨?_, fun x hx => ?_, uniqueKeys_set h.keys fun k x _ hx => lookup_none hip x (List.mem_of_getElem? hx), ?_⟩
  · have hsize := h.size
    rw [cacheSize_of_capacity hcap] at hsize ⊢
    rwa [List.length_set]
  · rcases List.mem_or_eq_of_mem_set hx with hx | rfl
    · exact h.entries x hx
    · exact .inr ⟨rfl, rfl⟩
  · have hlive : liveEntries (cache.set j (Entry.learned ip 1#16 mac)) = liveEntries cache + 1 := by
      unfold liveEntries
      rw [List.countP_set hlt, hfree]
      rfl
    rw [countUp_toNat, hlive]
    omega

end

theorem InvAtFinish.learnOk {s l : State} {arp : ArpView} (h : InvAtFinish s) (hw : arp.hwtype = 1#16)
    (hl : learn arp s = .ok l) : InvAtFinish l := by
  rcases learn_ok hl with ⟨i, hi, -, rfl⟩ | ⟨hn, hcap, rfl⟩ | ⟨n, j, hn, hcap, hj, rfl⟩
  · obtain ⟨e, he, hfree, -⟩ := lookup_some_getElem? hi
    rw [List.getD_eq_getElem?_getD, he]
    exact h.withCache (h.cacheInv.merge he hfree arp.smac)
  · rw [hw]
    exact h.withCache (h.cacheInv.append hcap hn arp.smac)
  · rw [hw]
    exact h.withCache (h.cacheInv.insert hcap hn hj arp.smac)

theorem InvAtFinish.learned {s l : State} (h : InvAtFinish s) (hl : Learned s l) : InvAtFinish l := by
  rcases hl with rfl | ⟨arp, hw, hl⟩
  · exact h
  · exact h.learnOk hw hl

/-- An ARP frame's learn, if there is one, changes the cache and `CACHE_COUNT` only (R26). -/
theorem learned_frame {s l : State} (h : Learned s l) : l = { s with cache := l.cache, cacheCount := l.cacheCount } := by
  rcases h with rfl | ⟨arp, -, h⟩
  · rfl
  · exact learn_frame h

theorem learned_cfg {s l : State} (h : Learned s l) : l.cfg = s.cfg := by rw [learned_frame h]

/-! ## The commands -/

/-- However the processing of a frame that fits ends, the invariant holds then. -/
theorem InvAtFinish.frameEnd {s t : State} {x : StepResult} (h : InvAtFinish s) (hfits : s.rxLen.toNat ≤ s.cfg.maxFrame)
    (hx : FrameEnd s x) (ht : x = .next t) : Inv t := by
  cases hx with
  | dropped r _ =>
    cases ht
    exact h r
  | consumed l r hl _ =>
    cases ht
    exact h.learned hl r
  | sent l out r hl _ hlen => exact (h.learned hl).transmit (learned_cfg hl ▸ Nat.le_trans hlen hfits) ht

theorem inv_execProcessFrame {s t : State} (h : Inv s) (ht : execProcessFrame s = .next t) : Inv t := by
  simp only [execProcessFrame, reject] at ht
  split_ifs at ht with _ hlong
  · cases ht
    exact inv_beginCommand h _
  · cases ht
    exact inv_beginCommand h _
  · exact (inv_beginCommand h).clearTxLen.frameEnd (Nat.le_of_not_lt hlong) (frameIncoming_end _) ht

/-- The state, the hardware type and the found flag leave bits 15:3 of `LK_INFO` 0 (R34). -/
theorem lookupInfo_reserved (e : Entry) : (lookupInfo e).extractLsb' 3 13 = 0#13 := by
  have hstate := (entryStateCode e.state).isLt
  apply BitVec.eq_of_toNat_eq
  rw [BitVec.extractLsb'_toNat, Nat.shiftRight_eq_div_pow, lookupInfo_toNat, BitVec.toNat_ofNat]
  omega

theorem inv_execCacheLookup {s t : State} (h : Inv s) (ht : execCacheLookup s = .next t) : Inv t := by
  simp only [execCacheLookup] at ht
  split at ht <;> cases ht
  · exact { inv_atFinish h .lookupDone with lookupReserved := zero_reserved }
  · exact { inv_atFinish h .lookupDone with lookupReserved := lookupInfo_reserved _ }

theorem inv_execChecksum {s t : State} (h : Inv s) (ht : execChecksum s = .next t) : Inv t := by
  simp only [execChecksum, reject] at ht
  split_ifs at ht <;> cases ht
  · exact inv_beginCommand h _
  · exact { inv_atFinish h .checksumDone with }

/-- Every value of `CMD` keeps the invariant (R90, R91). -/
theorem inv_exec_decodeCommand {s t : State} {v : Word} (h : Inv s) (ht : exec (decodeCommand v) s = .next t) : Inv t := by
  unfold decodeCommand at ht
  split_ifs at ht
  · exact inv_execProcessFrame h ht
  · exact inv_execCacheLookup h ht
  · exact inv_execChecksum h ht
  · cases ht
    exact (inv_beginCommand h).leaveHalt
  · cases ht
    exact inv_beginCommand h _

/-! ## The host's actions -/

/-- Writes that stay inside `RXBUF` keep the buffers' form. -/
theorem inv_writeRxBuf {s : State} (h : Inv s) {a : Nat} {B : Bytes} (hlow : rxBase ≤ a)
    (hhigh : ∀ x, x < a + B.length → a ≤ x → x < rxBase + s.cfg.maxFrame) :
    Inv { s with mem := memSetBytes s.mem a B } :=
  { h with
    memory := memSetBytes_wf _ _ _ h.memory
    buffers := fun c hc => by
      rcases mem_memSetBytes _ _ _ _ hc with hc | hc
      · exact .inl ⟨Nat.le_trans hlow hc.1, hhigh _ hc.2 hc.1⟩
      · exact h.buffers c hc }

theorem inv_hostWrite {off : Nat} {size : AccessSize} {v : Word} {s t : State} (h : Inv s)
    (ht : hostWrite off size v s = .next t) : Inv t := by
  rcases hostWrite_next ht with
    rfl | ⟨-, ⟨-, -, hexec⟩ | ⟨-, -, rfl⟩ | ⟨-, -, rfl⟩ | ⟨hlow, hhigh, -, rfl⟩⟩
  · exact h
  · exact inv_exec_decodeCommand h hexec
  · exact { h with }
  · exact { h with }
  · refine inv_writeRxBuf h (B := [v.setWidth 8]) hlow fun x hx _ => ?_
    rw [List.length_singleton] at hx
    omega

/-- The reset event starts from the reset state of the same configuration, and the fields it keeps are not in the
invariant (R332). -/
theorem inv_applyReset {s : State} (h : Inv s) : Inv (applyReset s) :=
  { resetMeetsTheInvariant s.cfg h.config with }

theorem inv_performHost {a : HostAction} {s t : State} (h : Inv s) (ht : performHost a s = .next t) : Inv t := by
  cases a with
  | read off size =>
    rw [hostRead_next ht]
    exact { h with }
  | write off size v => exact inv_hostWrite h ht
  | wrbuf off B =>
    obtain ⟨-, hlen, rfl⟩ := hostWriteBuffer_next ht
    exact inv_writeRxBuf h (Nat.le_add_right _ _) fun x hx hge => by omega
  | tx report =>
    cases ht
    exact { h with }
  | reset =>
    cases ht
    exact inv_applyReset h

/-- Settles O3: a step waits, or takes one action from the queue, which the invariant does not speak of, and performs it. -/
theorem stepKeepsTheInvariant : Obligations.StepKeepsTheInvariant := by
  intro s t h ht
  rcases step_next ht with ⟨-, rfl⟩ | ⟨a, rest, -, ha⟩
  · exact h
  · have hqueue : Inv { s with host := rest } := { h with }
    exact inv_performHost hqueue ha

end Sys2Proof.Proofs
end

section
/-! The dispatch of a frame (41_ethernet.md R140 to R143, 42_arp.md R172, 43_ipv4.md R195, 44_icmp.md R222, 45_tcp.md R242): each
unit's checks as one equation in the frame's bytes, each dispatch as `exec` of the row the field decodes to, and what the
statements about the checks and the rows' selection say of them. -/

namespace Sys2Proof.Proofs
open Sys2Proof.Machine Sys2Proof.Laws

/-! ## The rows a field selects -/

theorem dispatchEth_eq_exec (t : Half) (s : State) : dispatchEth t s = exec (decodeEthertype t) s := by
  unfold dispatchEth decodeEthertype
  split_ifs <;> rfl

theorem dispatchArp_eq_exec (op : Half) (s : State) : dispatchArp op s = exec (decodeArpOpcode op) s := by
  unfold dispatchArp decodeArpOpcode
  split_ifs <;> rfl

theorem dispatchIpv4_eq_exec (p : Byte) (s : State) : dispatchIpv4 p s = exec (decodeIpv4Proto p) s := by
  unfold dispatchIpv4 decodeIpv4Proto
  split_ifs <;> rfl

theorem dispatchIcmp_eq_exec (t : Byte) (s : State) : dispatchIcmp t s = exec (decodeIcmpType t) s := by
  unfold dispatchIcmp decodeIcmpType
  split_ifs <;> rfl

theorem dispatchTcp_eq_exec (f : Byte) (s : State) : dispatchTcp f s = exec (decodeTcpFlags f) s := by
  unfold dispatchTcp decodeTcpFlags
  split_ifs <;> rfl

/-! ## A field inside a string -/

theorem drop_eq_byteAt_cons {B : Bytes} {k : Nat} (h : k < B.length) : B.drop k = byteAt B k :: B.drop (k + 1) := by
  rw [List.drop_eq_getElem_cons h, byteAt, List.getD_eq_getElem _ _ h]

/-- A row decoded from a byte at an offset is the row of that byte. -/
theorem decode_byte_drop {l : Level} {row : Byte → Instr} (hwidth : l.width = 1)
    (hl : ∀ a rest, decode l (a :: rest) = .ok (row a, rest)) {B : Bytes} {k : Nat} {i : Instr} {rest : Bytes}
    (h : decode l (B.drop k) = .ok (i, rest)) : i = row (byteAt B k) := by
  have hlength := (decode_isOk_iff _ _).1 ⟨_, h⟩
  rw [hwidth, List.length_drop] at hlength
  rw [drop_eq_byteAt_cons (by omega), hl, Except.ok.injEq, Prod.mk.injEq] at h
  exact h.1.symm

/-- A row decoded from the two bytes at an offset is the row of that field, which lies inside the string. -/
theorem decode_half_drop {l : Level} {row : Half → Instr} (hwidth : l.width = 2)
    (hl : ∀ a b rest, decode l (a :: b :: rest) = .ok (row (be16 a b), rest)) {B : Bytes} {k : Nat} {i : Instr} {rest : Bytes}
    (h : decode l (B.drop k) = .ok (i, rest)) : k + 2 ≤ B.length ∧ i = row (be16 (byteAt B k) (byteAt B (k + 1))) := by
  have hlength := (decode_isOk_iff _ _).1 ⟨_, h⟩
  rw [hwidth, List.length_drop] at hlength
  rw [drop_eq_byteAt_cons (by omega), drop_eq_byteAt_cons (by omega), hl, Except.ok.injEq, Prod.mk.injEq] at h
  exact ⟨by omega, h.1.symm⟩

/-! ## A drop on a running block (R302) -/

/-- A drop on a running block writes `STATUS` only. -/
theorem drop_of_running {s : State} (h : s.halted = false) (r : Reason) :
    drop r s = .next (statusOnly (statusWord false r) s) := by
  rw [← h]
  rfl

/-- Settles O25: each of these rows is one drop or one consumption. -/
theorem quietRowsWriteOnlyStatus : Obligations.QuietRowsWriteOnlyStatus := by
  intro s h
  exact ⟨fun _ => drop_of_running h .ethUnknownEthertype, drop_of_running h .arpReplyLearned,
    fun _ => drop_of_running h .arpOpcodeIgnored, fun _ => drop_of_running h .ipUnknownProtocol,
    fun _ => drop_of_running h .icmpTypeIgnored⟩

/-! ## The Ethernet rows (R140 to R142, R270 to R272) -/

/-- The state in which PROCESS_FRAME runs the frame pipeline: the engine is busy and `TX_LEN` is cleared (R270, R271). -/
def issuedFrame (s : State) : State := { beginCommand s with txLen := 0#16 }

theorem exec_processFrame_of_fits {s : State} (hrunning : s.halted = false) (hfits : s.rxLen.toNat ≤ s.cfg.maxFrame) :
    exec .processFrame s = frameIncoming (issuedFrame s) :=
  (if_neg (Bool.eq_false_iff.mp hrunning)).trans (if_neg hfits.not_gt)

theorem frameIncoming_short {s : State} (h : s.rxLen.toNat < 14) : frameIncoming s = drop .ethTruncated s :=
  if_pos (by rwa [rxFrame_length])

theorem frameIncoming_whole {s : State} (h : 14 ≤ s.rxLen.toNat) :
    frameIncoming s = exec (decodeEthertype (be16 (byteAt (rxFrame s) 12) (byteAt (rxFrame s) 13))) s := by
  rw [frameIncoming, rxFrame_length, if_neg h.not_gt, ethOperand_ok h, orFault_ok, dispatchEth_eq_exec]
  rfl

theorem exec_ethArp_whole {s : State} (h : 14 ≤ s.rxLen.toNat) : exec .ethArp s = arpIncoming (rxPayload s) s := by
  rw [exec, execEthArp, ethOperand_ok h, orFault_ok]
  rfl

theorem exec_ethIpv4_whole {s : State} (h : 14 ≤ s.rxLen.toNat) : exec .ethIpv4 s = ipv4Incoming (rxPayload s) s := by
  rw [exec, execEthIpv4, ethOperand_ok h, orFault_ok]
  rfl

/-- Settles O24: the length check comes first, and what the issue wrote besides `TX_LEN` the drop writes again. -/
theorem shortFrameIsDropped : Obligations.ShortFrameIsDropped := by
  intro s hrunning hfits hshort
  rw [exec_processFrame_of_fits hrunning hfits, frameIncoming_short (s := issuedFrame s) hshort,
    drop_of_running (s := issuedFrame s) hrunning]
  rfl

/-- Settles O9: bytes 12 and 13 are the ethertype of the decoded view. -/
theorem processFrameRunsTheEthernetRow : Obligations.ProcessFrameRunsTheEthernetRow := by
  intro s i rest hrunning hfits hdecode
  obtain ⟨hlength, rfl⟩ := decode_half_drop rfl decode_ethernet hdecode
  rw [rxFrame_length] at hlength
  rw [exec_processFrame_of_fits hrunning hfits, frameIncoming_whole (s := issuedFrame s) hlength]
  rfl

/-! ## The ARP checks (R160, R161, R172) -/

/-- R172 from step 2 on: the learn, and then the row of the opcode on the state that has learned, or the drop of a failed
learn. -/
def learnAndDispatch (arp : ArpView) (s : State) : StepResult :=
  match learn arp s with
  | .error r => drop r s
  | .ok l => exec (decodeArpOpcode arp.opcode) l

theorem learnAndDispatch_of_error {arp : ArpView} {s : State} {r : Reason} (h : learn arp s = .error r) :
    learnAndDispatch arp s = drop r s := by
  rw [learnAndDispatch, h]

theorem learnAndDispatch_of_ok {arp : ArpView} {s l : State} (h : learn arp s = .ok l) :
    learnAndDispatch arp s = exec (decodeArpOpcode arp.opcode) l := by
  rw [learnAndDispatch, h]

section
variable {P : Bytes} {s : State}

theorem arpIncoming_short (h : P.length < 28) : arpIncoming P s = drop .arpTruncated s := if_pos h

variable (h : 28 ≤ P.length)
include h

/-- The checks of a payload that holds a whole message, in the order of R172. -/
theorem arpIncoming_eq :
    arpIncoming P s
      = if (arpOf P).hwtype ≠ 1#16 then drop .arpBadHwtype s
        else if (arpOf P).protype ≠ 0x0800#16 then drop .arpBadProtype s
        else learnAndDispatch (arpOf P) s := by
  rw [arpIncoming, if_neg h.not_gt, readU16_ok (by omega), readU16_ok (by omega), decodeArp_ok h, learnAndDispatch]
  simp only [orFault_ok, dispatchArp_eq_exec]
  rfl

theorem arpIncoming_badHwtype (hw : (arpOf P).hwtype ≠ 1#16) : arpIncoming P s = drop .arpBadHwtype s := by
  rw [arpIncoming_eq h, if_pos hw]

theorem arpIncoming_badProtype (hw : (arpOf P).hwtype = 1#16) (hp : (arpOf P).protype ≠ 0x0800#16) :
    arpIncoming P s = drop .arpBadProtype s := by
  rw [arpIncoming_eq h, if_neg (not_not_intro hw), if_pos hp]

variable (hw : (arpOf P).hwtype = 1#16) (hp : (arpOf P).protype = 0x0800#16)
include hw hp

theorem arpIncoming_learnFails {r : Reason} (hl : learn (arpOf P) s = .error r) : arpIncoming P s = drop r s := by
  rw [arpIncoming_eq h, if_neg (not_not_intro hw), if_neg (not_not_intro hp), learnAndDispatch_of_error hl]

theorem arpIncoming_learned {l : State} (hl : learn (arpOf P) s = .ok l) :
    arpIncoming P s = exec (decodeArpOpcode (arpOf P).opcode) l := by
  rw [arpIncoming_eq h, if_neg (not_not_intro hw), if_neg (not_not_intro hp), learnAndDispatch_of_ok hl]

end

/-- A decoded ARP message is the one the payload's 28 bytes hold (R160, R162). -/
theorem arpOperand_payload {s : State} {eth : EthView} {arp : ArpView} (h : arpOperand s = .ok (eth, arp)) :
    14 ≤ s.rxLen.toNat ∧ 28 ≤ (rxPayload s).length ∧ arp = arpOf (rxPayload s) := by
  obtain ⟨h42, hviews⟩ := arpOperand_inv h
  rw [rxPayload, List.length_drop, rxFrame_length]
  exact ⟨by omega, by omega, (Prod.mk.inj hviews).2⟩

/-- Settles O26: the checks one after the other, and a failed learn is a conflict or a full cache. -/
theorem arpChecksInOrder : Obligations.ArpChecksInOrder := by
  intro s hrunning h14
  refine ⟨fun hshort => ?_, fun h28 hw => ?_, fun h28 hw hp => ?_, fun eth arp r hop hw hp hl => ?_⟩
  · rw [exec_ethArp_whole h14, arpIncoming_short hshort, drop_of_running hrunning]
    rfl
  · rw [exec_ethArp_whole h14, arpIncoming_badHwtype h28 hw, drop_of_running hrunning]
    rfl
  · rw [exec_ethArp_whole h14, arpIncoming_badProtype h28 hw hp, drop_of_running hrunning]
    rfl
  · obtain ⟨-, h28, rfl⟩ := arpOperand_payload hop
    have hdrop : exec .ethArp s = .next (statusOnly (statusWord false r) s) := by
      rw [exec_ethArp_whole h14, arpIncoming_learnFails h28 hw hp hl, drop_of_running hrunning]
    rcases learn_error hl with ⟨-, -, -, rfl⟩ | ⟨-, -, -, -, rfl⟩
    · exact .inl ⟨rfl, hdrop⟩
    · exact .inr ⟨rfl, hdrop⟩

/-! ## The IPv4 checks (R190 to R195) -/

theorem ipv4Incoming_short {P : Bytes} {s : State} (h : P.length < 20) : ipv4Incoming P s = drop .ipTruncated s := if_pos h

/-- The checks of version, `IHL` and TTL (R191), and then those that need the whole header (R192 to R194). -/
theorem ipv4Incoming_eq {P : Bytes} {s : State} (h : 20 ≤ P.length) :
    ipv4Incoming P s
      = if ipVersion (byteAt P 0) ≠ 4#4 then drop .ipBadVersion s
        else if (ipIhl (byteAt P 0)).toNat < 5 then drop .ipBadIhl s
        else if byteAt P 8 = 0#8 then drop .ipTtlZero s
        else ipv4HeaderChecks P (ipIhl (byteAt P 0)) s := by
  rw [ipv4Incoming, if_neg h.not_gt, readU8_ok (by omega), readU8_ok (by omega)]
  rfl

theorem checksum_take (B : Bytes) (n : Nat) : checksum (B.take n) n = checksum B n := by
  rw [checksum, checksum, List.take_take, Nat.min_self]

/-- The checks that need the whole header, on a payload whose `IHL` is at least 5. -/
theorem ipv4HeaderChecks_eq {P : Bytes} {s : State} (h : 20 ≤ headerLen P) :
    ipv4HeaderChecks P (ipIhl (byteAt P 0)) s
      = if P.length < headerLen P then drop .ipHdrTruncated s
        else if checksum P (headerLen P) ≠ 0#16 then drop .ipChecksum s
        else if totalLen P < headerLen P ∨ P.length < totalLen P then drop .ipBadTotalLength s
        else exec (decodeIpv4Proto (byteAt P 9)) s := by
  by_cases hwhole : P.length < headerLen P
  · rw [if_pos hwhole]
    exact if_pos hwhole
  · have hheader : headerBytes (ipIhl (byteAt P 0)) = headerLen P := rfl
    rw [ipv4HeaderChecks, hheader, if_neg hwhole, if_neg hwhole, slice_ok (Nat.zero_le _) (Nat.le_of_not_lt hwhole),
      readU16_ok (by omega), decodeIpv4_ok h (Nat.le_of_not_lt hwhole), List.drop_zero, Nat.sub_zero, orFault_ok,
      orFault_ok, orFault_ok, checksum_take, dispatchIpv4_eq_exec]
    rfl

theorem headerLen_ge {P : Bytes} (h : 5 ≤ (ipIhl (byteAt P 0)).toNat) : 20 ≤ headerLen P :=
  Nat.mul_le_mul_left 4 h

/-- Settles O32: with a check failed and all before it passed, the equations of the checks leave its drop. -/
theorem ipv4ChecksInOrder : Obligations.Ipv4ChecksInOrder := by
  intro s hrunning h14 P
  have hlen : rxHeaderLen s = headerLen P := rfl
  have htot : rxTotalLen s = totalLen P := rfl
  rw [exec_ethIpv4_whole h14, hlen, htot]
  refine ⟨fun hshort => ?_, fun h20 => ?_⟩
  · rw [ipv4Incoming_short hshort, drop_of_running hrunning]
    rfl
  rw [ipv4Incoming_eq h20]
  refine ⟨fun hv => ?_, fun hv => ⟨fun hi => ?_, fun hi => ⟨fun ht => ?_, fun ht => ?_⟩⟩⟩
  · rw [if_pos hv, drop_of_running hrunning]
    rfl
  · rw [if_neg (not_not_intro hv), if_pos hi, drop_of_running hrunning]
    rfl
  · rw [if_neg (not_not_intro hv), if_neg hi.not_gt, if_pos ht, drop_of_running hrunning]
    rfl
  rw [if_neg (not_not_intro hv), if_neg hi.not_gt, if_neg ht, ipv4HeaderChecks_eq (headerLen_ge hi)]
  refine ⟨fun hh => ?_, fun hh => ⟨fun hc => ?_, fun hc htl => ?_⟩⟩
  · rw [if_pos hh, drop_of_running hrunning]
    rfl
  · rw [if_neg hh.not_gt, if_pos hc, drop_of_running hrunning]
    rfl
  · rw [if_neg hh.not_gt, if_neg (not_not_intro hc), if_pos htl, drop_of_running hrunning]
    rfl

/-- A payload that passes the checks runs the row of its protocol (R195). -/
theorem ipv4Incoming_valid {P : Bytes} {s : State} (hv : ipVersion (byteAt P 0) = 4#4)
    (hi : 5 ≤ (ipIhl (byteAt P 0)).toNat) (ht : byteAt P 8 ≠ 0#8) (hh : headerLen P ≤ P.length)
    (hc : checksum P (headerLen P) = 0#16) (hlow : headerLen P ≤ totalLen P) (hhigh : totalLen P ≤ P.length) :
    ipv4Incoming P s = exec (decodeIpv4Proto (byteAt P 9)) s := by
  have h20 := headerLen_ge hi
  rw [ipv4Incoming_eq (Nat.le_trans h20 hh), if_neg (not_not_intro hv), if_neg hi.not_gt, if_neg ht,
    ipv4HeaderChecks_eq h20, if_neg hh.not_gt, if_neg (not_not_intro hc),
    if_neg (not_or.2 ⟨hlow.not_gt, hhigh.not_gt⟩)]

/-! ## The responders' checks (R220 to R222, R240 to R242) -/

theorem icmpIncoming_eq (M : Bytes) (s : State) :
    icmpIncoming M s
      = if M.length < 4 then drop .icmpTruncated s
        else if checksum M M.length ≠ 0#16 then drop .icmpChecksum s
        else exec (decodeIcmpType (byteAt M 0)) s := by
  by_cases h : M.length < 4
  · rw [if_pos h]
    exact if_pos h
  · rw [icmpIncoming, if_neg h, if_neg h, decodeIcmp_ok (Nat.le_of_not_lt h), orFault_ok, dispatchIcmp_eq_exec]
    rfl

theorem tcpIncoming_eq (d : Datagram) (s : State) :
    tcpIncoming d s
      = if d.payload.length < 20 then drop .tcpTruncated s
        else if tcpChecksum d.ip.saddr d.ip.daddr d.ip.proto d.payload ≠ 0#16 then drop .tcpChecksum s
        else exec (decodeTcpFlags (byteAt d.payload 13)) s := by
  by_cases h : d.payload.length < 20
  · rw [if_pos h]
    exact if_pos h
  · rw [tcpIncoming, if_neg h, if_neg h, decodeTcp_ok (Nat.le_of_not_lt h), orFault_ok, dispatchTcp_eq_exec]
    rfl

section
variable {s : State} {d : Datagram} (hd : datagramOperand s = .ok d)
include hd

theorem exec_ipv4Icmp : exec .ipv4Icmp s = icmpIncoming d.payload s := by
  rw [exec, execIpv4Icmp, hd, orFault_ok]

theorem exec_ipv4Tcp : exec .ipv4Tcp s = tcpIncoming d s := by
  rw [exec, execIpv4Tcp, hd, orFault_ok]

theorem exec_icmpEchoRequest :
    exec .icmpEchoRequest s
      = if d.payload.length < 8 then drop .icmpEchoTruncated s
        else sendOutgoing d (echoReply d.payload) .icmpEchoReplySent s := by
  rw [exec, execIcmpEchoRequest, hd, orFault_ok]

end

/-- Settles O35: the length comes before the checksum, and the echo's own length check is its row's. -/
theorem icmpChecksInOrder : Obligations.IcmpChecksInOrder := by
  intro s d hrunning hd
  rw [exec_ipv4Icmp hd, icmpIncoming_eq, exec_icmpEchoRequest hd]
  refine ⟨fun hshort => ?_, fun hlen hc => ?_, fun hshort => ?_⟩
  · rw [if_pos hshort, drop_of_running hrunning]
    rfl
  · rw [if_neg hlen.not_gt, if_pos hc, drop_of_running hrunning]
    rfl
  · rw [if_pos hshort, drop_of_running hrunning]
    rfl

/-- Settles O38: the length comes before the checksum. -/
theorem tcpChecksInOrder : Obligations.TcpChecksInOrder := by
  intro s d hrunning hd
  rw [exec_ipv4Tcp hd, tcpIncoming_eq]
  refine ⟨fun hshort => ?_, fun hlen hc => ?_⟩
  · rw [if_pos hshort, drop_of_running hrunning]
    rfl
  · rw [if_neg hlen.not_gt, if_pos hc, drop_of_running hrunning]
    rfl

end Sys2Proof.Proofs
end

section
/-! How a dispatch row ends (41_ethernet.md R148, R149; 60_exceptions.md R300, R302): every row either ends quietly or hands one
framed reply to the channel, and what each end leaves of the state is said once. From it follow what the rows complete with,
that no conflict is reported, and the outcomes of PROCESS_FRAME. -/

namespace Sys2Proof.Proofs
open Sys2Proof.Machine Sys2Proof.Laws

/-! ## The ends of a row -/

/-- How a row that runs on `l` ends, with replies of at most `n` bytes: a drop or a consumption, a learn's conflict (which only an
ARP message can have, R166), or one framed reply. -/
inductive RowEnd (l : State) (n : Nat) : StepResult → Prop
  | quiet (r : Reason) (hkind : reasonKind r = .dropped ∨ reasonKind r = .consumed) (hr : r ≠ .arpCacheConflict) :
      RowEnd l n (.next (finish r l))
  | conflict (arp : ArpView) (hw : arp.hwtype = 1#16) (hl : learn arp l = .error .arpCacheConflict) :
      RowEnd l n (.next (finish .arpCacheConflict l))
  | replied (eth : EthView) (Q : Bytes) (r : Reason) (hkind : reasonKind r = .replied) (hlen : 14 + Q.length ≤ n) :
      RowEnd l n (transmit (replyFrame l.cfg eth Q) r l)

theorem RowEnd.dropped {l : State} {n : Nat} {r : Reason} (hkind : reasonKind r = .dropped) (hr : r ≠ .arpCacheConflict) :
    RowEnd l n (drop r l) := .quiet r (.inl hkind) hr

theorem RowEnd.consumed {l : State} {n : Nat} {r : Reason} (hkind : reasonKind r = .consumed) :
    RowEnd l n (consume r l) := .quiet r (.inr hkind) (by rintro rfl; cases hkind)

theorem RowEnd.mono {l : State} {n m : Nat} {x : StepResult} (h : RowEnd l n x) (hnm : n ≤ m) : RowEnd l m x := by
  cases h with
  | quiet r hkind hr => exact .quiet r hkind hr
  | conflict arp hw hl => exact .conflict arp hw hl
  | replied eth Q r hkind hlen => exact .replied eth Q r hkind (Nat.le_trans hlen hnm)

/-! ## What an end leaves of the state -/

/-- What every end of a row keeps, with replies of at most `n` bytes: the cache, the host's side, and every byte outside a
reply. -/
structure RowFrame (l t : State) (n : Nat) : Prop where
  cache : KeepsCache l t
  host : KeepsHostSide l t
  idle : t.engine = .idle
  mem : ∀ a, a < txBase ∨ txBase + n ≤ a → memGet t.mem a = memGet l.mem a

/-- Nothing is transmitted, for this reason. -/
structure EndsQuietly (l t : State) (r : Reason) : Prop where
  kind : reasonKind r = .dropped ∨ reasonKind r = .consumed
  status : t.status = statusWord l.halted r
  halted : t.halted = l.halted
  txLen : t.txLen = l.txLen
  mem : t.mem = l.mem
  sent : t.sent = l.sent
  channel : t.channel = l.channel

/-- One frame of 14 to `n` bytes is handed to the channel, with this answer. -/
structure Transmits (l t : State) (n : Nat) (out : Bytes) (accepted : Bool) : Prop where
  header : 14 ≤ out.length
  length : out.length ≤ n
  answer : l.channel.accepts out.length = accepted
  txLen : t.txLen = BitVec.ofNat 16 out.length
  sent : t.sent = l.sent ++ [⟨out, accepted⟩]
  channel : t.channel = .ok
  stored : out.length < 65536 → txFrame t = out

theorem rowFrame_finish (l : State) (n : Nat) (r : Reason) : RowFrame l (finish r l) n :=
  ⟨⟨rfl, rfl⟩, ⟨rfl, rfl, rfl, rfl, rfl, rfl, rfl, rfl, rfl, rfl, rfl⟩, rfl, fun _ _ => rfl⟩

theorem endsQuietly_finish (l : State) {r : Reason} (h : reasonKind r = .dropped ∨ reasonKind r = .consumed) :
    EndsQuietly l (finish r l) r :=
  ⟨h, rfl, rfl, rfl, rfl, rfl, rfl⟩

theorem memGet_handOver {out : Bytes} {n : Nat} (hlen : out.length ≤ n) (l : State) (a : Nat)
    (ha : a < txBase ∨ txBase + n ≤ a) : memGet (handOver out l).mem a = memGet l.mem a :=
  memGet_memSetBytes_outside _ _ _ _ (by omega)

section
variable {l : State} {n : Nat} {out : Bytes} (hlen : out.length ≤ n)
include hlen

theorem rowFrame_finish_handOver (r : Reason) : RowFrame l (finish r (handOver out l)) n :=
  ⟨⟨rfl, rfl⟩, ⟨rfl, rfl, rfl, rfl, rfl, rfl, rfl, rfl, rfl, rfl, rfl⟩, rfl, memGet_handOver hlen l⟩

theorem rowFrame_enterHalt_handOver : RowFrame l (enterHalt (handOver out l)) n :=
  ⟨⟨rfl, rfl⟩, ⟨rfl, rfl, rfl, rfl, rfl, rfl, rfl, rfl, rfl, rfl, rfl⟩, rfl, memGet_handOver hlen l⟩

variable (hheader : 14 ≤ out.length)
include hheader

theorem transmits_finish_handOver {r : Reason} (h : l.channel.accepts out.length = true) :
    Transmits l (finish r (handOver out l)) n out true :=
  ⟨hheader, hlen, h, rfl, by rw [finish_sent, handOver_sent, h], rfl, txFrame_handOver out l⟩

theorem transmits_enterHalt_handOver (h : l.channel.accepts out.length = false) :
    Transmits l (enterHalt (handOver out l)) n out false :=
  ⟨hheader, hlen, h, rfl, by rw [enterHalt_sent, handOver_sent, h], rfl, txFrame_handOver out l⟩

end

/-- The word of the fatal event (R149). -/
theorem statusWord_txFailure : statusWord true .txFailure = 0xD460#16 := by decide

/-- Everything a row's end can be, told by the next state: quiet, an accepted reply, or a refused one that halts the block. -/
theorem RowEnd.outcome {l : State} {n : Nat} {x : StepResult} (h : RowEnd l n x) :
    ∃ t, x = .next t ∧ RowFrame l t n
      ∧ ((∃ r, EndsQuietly l t r)
        ∨ (∃ r out, Transmits l t n out true ∧ reasonKind r = .replied ∧ t.status = statusWord l.halted r
            ∧ t.halted = l.halted)
        ∨ ∃ out, Transmits l t n out false ∧ t.status = 0xD460#16 ∧ t.halted = true) := by
  cases h with
  | quiet r hkind _ => exact ⟨_, rfl, rowFrame_finish l n r, .inl ⟨r, endsQuietly_finish l hkind⟩⟩
  | conflict arp _ _ => exact ⟨_, rfl, rowFrame_finish l n _, .inl ⟨_, endsQuietly_finish l (.inl rfl)⟩⟩
  | replied eth Q r hkind hlen =>
    have hout := replyFrame_length l.cfg eth Q
    have hheader : 14 ≤ (replyFrame l.cfg eth Q).length := hout ▸ Nat.le_add_right 14 _
    rw [← hout] at hlen
    rcases transmit_cases (replyFrame l.cfg eth Q) r l with ⟨ha, he⟩ | ⟨ha, he⟩
    · exact ⟨_, he, rowFrame_finish_handOver hlen r,
        .inr (.inl ⟨r, _, transmits_finish_handOver hlen hheader ha, hkind, rfl, rfl⟩)⟩
    · exact ⟨_, he, rowFrame_enterHalt_handOver hlen,
        .inr (.inr ⟨_, transmits_enterHalt_handOver hlen hheader ha, statusWord_txFailure, rfl⟩)⟩

/-! ## The end of each row -/

theorem rowEnd_execArpRequest {s : State} (h : 42 ≤ s.rxLen.toNat) : RowEnd s 42 (execArpRequest s) := by
  rw [execArpRequest, arpOperand_ok h, orFault_ok]
  dsimp only
  split_ifs
  · exact .consumed rfl
  · exact .replied _ _ _ rfl (by rw [arpReplyMessage_length])

theorem rowEnd_decodeArpOpcode {s : State} (h : 42 ≤ s.rxLen.toNat) (op : Half) :
    RowEnd s 42 (exec (decodeArpOpcode op) s) := by
  unfold decodeArpOpcode
  split_ifs
  · exact rowEnd_execArpRequest h
  · exact .consumed rfl
  · exact .consumed rfl

theorem exec_tcpNonsyn_drop {s : State} (f : Byte) (hdrop : s.cfg.tcpNonSyn = .drop) :
    exec (.tcpNonsyn f) s = drop .tcpNonsynDropped s := by
  rw [exec, execTcpNonsyn, hdrop]

section
variable {s : State} {d : Datagram} (hd : datagramOperand s = .ok d)
include hd

theorem datagramOperand_payload_length :
    20 ≤ d.header.length ∧ d.header.length + d.payload.length = d.ip.totlen.toNat := by
  obtain ⟨hF, rfl⟩ := datagramOperand_inv hd
  obtain ⟨hheader, hpayload⟩ := datagramOf_lengths hF
  obtain ⟨-, hminimum, hlow, -⟩ := hF
  have htotal : (datagramOf (rxFrame s)).ip.totlen.toNat = totalLen ((rxFrame s).drop 14) := rfl
  omega

theorem datagramOperand_fits : 14 + d.ip.totlen.toNat ≤ s.rxLen.toNat := by
  obtain ⟨hF, rfl⟩ := datagramOperand_inv hd
  obtain ⟨h14, -, -, hhigh⟩ := hF
  have htotal : (datagramOf (rxFrame s)).ip.totlen.toNat = totalLen ((rxFrame s).drop 14) := rfl
  rw [List.length_drop, rxFrame_length] at hhigh
  rw [rxFrame_length] at h14
  omega

/-- A turnaround with a payload as long as the received one hands over a frame of `14 + totlen` bytes (R199). -/
theorem rowEnd_sendOutgoing {Q : Bytes} {r : Reason} (hr : reasonKind r = .replied)
    (hQ : Q.length = d.payload.length) : RowEnd s (14 + d.ip.totlen.toNat) (sendOutgoing d Q r s) := by
  obtain ⟨hminimum, hlength⟩ := datagramOperand_payload_length hd
  refine .replied _ _ r hr ?_
  rw [List.length_append, turnaroundHeader_length d hminimum, hQ, hlength]

theorem rowEnd_icmpEchoRequest : RowEnd s (14 + d.ip.totlen.toNat) (exec .icmpEchoRequest s) := by
  rw [exec_icmpEchoRequest hd]
  split_ifs with hshort
  · exact .dropped rfl nofun
  · exact rowEnd_sendOutgoing hd rfl (echoReply_length _ (by omega))

theorem rowEnd_decodeIcmpType (type : Byte) : RowEnd s (14 + d.ip.totlen.toNat) (exec (decodeIcmpType type) s) := by
  unfold decodeIcmpType
  split_ifs
  · exact rowEnd_icmpEchoRequest hd
  · exact .consumed rfl

theorem rowEnd_ipv4Icmp : RowEnd s (14 + d.ip.totlen.toNat) (exec .ipv4Icmp s) := by
  rw [exec_ipv4Icmp hd, icmpIncoming_eq]
  split_ifs
  · exact .dropped rfl nofun
  · exact .dropped rfl nofun
  · exact rowEnd_decodeIcmpType hd _

section
variable (h20 : 20 ≤ d.payload.length)
include h20

theorem tcpOperand_eq : tcpOperand s = .ok (d, tcpOf d.payload) := by
  obtain ⟨hF, rfl⟩ := datagramOperand_inv hd
  exact tcpOperand_ok hF h20

theorem exec_tcpSyn_eq (f : Byte) :
    exec (.tcpSyn f) s = sendOutgoing d (synAckSegment s.cfg d (tcpOf d.payload) f) .tcpReplySent s := by
  rw [exec, execTcpSyn, tcpOperand_eq hd h20, orFault_ok]

theorem exec_tcpNonsyn_echo (f : Byte) (hecho : s.cfg.tcpNonSyn = .echo) :
    exec (.tcpNonsyn f) s = sendOutgoing d (echoSegment d (tcpOf d.payload)) .tcpReplySent s := by
  rw [exec, execTcpNonsyn, hecho, tcpOperand_eq hd h20]
  rfl

end

theorem rowEnd_tcpSyn (h20 : 20 ≤ d.payload.length) (f : Byte) :
    RowEnd s (14 + d.ip.totlen.toNat) (exec (.tcpSyn f) s) := by
  rw [exec_tcpSyn_eq hd h20]
  exact rowEnd_sendOutgoing hd rfl (synAckSegment_length _ _ _ _ h20)

theorem rowEnd_tcpNonsyn (h20 : 20 ≤ d.payload.length) (f : Byte) :
    RowEnd s (14 + d.ip.totlen.toNat) (exec (.tcpNonsyn f) s) := by
  cases hpolicy : s.cfg.tcpNonSyn with
  | drop =>
    rw [exec_tcpNonsyn_drop f hpolicy]
    exact .dropped rfl nofun
  | echo =>
    rw [exec_tcpNonsyn_echo hd h20 f hpolicy]
    exact rowEnd_sendOutgoing hd rfl (echoSegment_length _ _ h20)

theorem rowEnd_decodeTcpFlags (h20 : 20 ≤ d.payload.length) (f : Byte) :
    RowEnd s (14 + d.ip.totlen.toNat) (exec (decodeTcpFlags f) s) := by
  unfold decodeTcpFlags
  split_ifs
  · exact rowEnd_tcpSyn hd h20 f
  · exact rowEnd_tcpNonsyn hd h20 f

theorem rowEnd_ipv4Tcp : RowEnd s (14 + d.ip.totlen.toNat) (exec .ipv4Tcp s) := by
  rw [exec_ipv4Tcp hd, tcpIncoming_eq]
  split_ifs with hshort
  · exact .dropped rfl nofun
  · exact .dropped rfl nofun
  · exact rowEnd_decodeTcpFlags hd (Nat.le_of_not_lt hshort) _

theorem rowEnd_decodeIpv4Proto (p : Byte) : RowEnd s (14 + d.ip.totlen.toNat) (exec (decodeIpv4Proto p) s) := by
  unfold decodeIpv4Proto
  split_ifs
  · exact rowEnd_ipv4Icmp hd
  · exact rowEnd_ipv4Tcp hd
  · exact .dropped rfl nofun

end

/-- A payload that passes the IPv4 checks holds a datagram, of the payload's total length (R195). -/
theorem datagramOperand_of_checks {s : State} (h14 : 14 ≤ s.rxLen.toNat) (h20 : 20 ≤ rxHeaderLen s)
    (hlow : rxHeaderLen s ≤ rxTotalLen s) (hhigh : rxTotalLen s ≤ (rxPayload s).length) :
    ∃ d, datagramOperand s = .ok d ∧ d.ip.totlen.toNat = rxTotalLen s :=
  ⟨_, datagramOperand_ok ⟨by rwa [rxFrame_length], h20, hlow, hhigh⟩, rfl⟩

theorem rowEnd_ethIpv4 {s : State} (h14 : 14 ≤ s.rxLen.toNat) : RowEnd s s.rxLen.toNat (exec .ethIpv4 s) := by
  rw [exec_ethIpv4_whole h14]
  by_cases h20 : (rxPayload s).length < 20
  · rw [ipv4Incoming_short h20]
    exact .dropped rfl nofun
  rw [ipv4Incoming_eq (Nat.le_of_not_lt h20)]
  split_ifs with _ hihl
  · exact .dropped rfl nofun
  · exact .dropped rfl nofun
  · exact .dropped rfl nofun
  have hheader := headerLen_ge (Nat.le_of_not_lt hihl)
  rw [ipv4HeaderChecks_eq hheader]
  split_ifs with _ _ hlength
  · exact .dropped rfl nofun
  · exact .dropped rfl nofun
  · exact .dropped rfl nofun
  obtain ⟨hlow, hhigh⟩ := not_or.1 hlength
  obtain ⟨d, hd, -⟩ := datagramOperand_of_checks h14 hheader (Nat.le_of_not_lt hlow) (Nat.le_of_not_lt hhigh)
  exact (rowEnd_decodeIpv4Proto hd _).mono (datagramOperand_fits hd)

/-- ETH_ARP ends on the received state when a check fails, and on the one that has learned the sender otherwise (R172). -/
theorem rowEnd_ethArp {s : State} (h14 : 14 ≤ s.rxLen.toNat) :
    ∃ l, Learned s l ∧ RowEnd l s.rxLen.toNat (exec .ethArp s) := by
  have hlength : (rxPayload s).length = s.rxLen.toNat - 14 := by rw [rxPayload, List.length_drop, rxFrame_length]
  rw [exec_ethArp_whole h14]
  by_cases h28 : (rxPayload s).length < 28
  · rw [arpIncoming_short h28]
    exact ⟨s, .inl rfl, .dropped rfl nofun⟩
  have hwhole := Nat.le_of_not_lt h28
  by_cases hw : (arpOf (rxPayload s)).hwtype = 1#16
  case neg =>
    rw [arpIncoming_badHwtype hwhole hw]
    exact ⟨s, .inl rfl, .dropped rfl nofun⟩
  by_cases hp : (arpOf (rxPayload s)).protype = 0x0800#16
  case neg =>
    rw [arpIncoming_badProtype hwhole hw hp]
    exact ⟨s, .inl rfl, .dropped rfl nofun⟩
  cases hl : learn (arpOf (rxPayload s)) s with
  | error r =>
    rw [arpIncoming_learnFails hwhole hw hp hl]
    rcases learn_error hl with ⟨-, -, -, rfl⟩ | ⟨-, -, -, -, rfl⟩
    · exact ⟨s, .inl rfl, .conflict _ hw hl⟩
    · exact ⟨s, .inl rfl, .dropped rfl nofun⟩
  | ok l =>
    have hlearned : Learned s l := .inr ⟨_, hw, hl⟩
    have h42 : 42 ≤ s.rxLen.toNat := by omega
    rw [arpIncoming_learned hwhole hw hp hl]
    exact ⟨l, hlearned, (rowEnd_decodeArpOpcode (by rwa [hlearned.rxLen]) _).mono h42⟩

/-- However a frame is dispatched, its row ends; only an ARP frame's learns (R26, R272). -/
theorem rowEnd_frameIncoming (s : State) :
    ∃ l, Learned s l ∧ (be16 (byteAt (rxFrame s) 12) (byteAt (rxFrame s) 13) ≠ 0x0806#16 → l = s)
      ∧ RowEnd l s.rxLen.toNat (frameIncoming s) := by
  by_cases h14 : s.rxLen.toNat < 14
  · rw [frameIncoming_short h14]
    exact ⟨s, .inl rfl, fun _ => rfl, .dropped rfl nofun⟩
  have hwhole := Nat.le_of_not_lt h14
  rw [frameIncoming_whole hwhole]
  unfold decodeEthertype
  split_ifs with harp
  · obtain ⟨l, hl, hend⟩ := rowEnd_ethArp hwhole
    exact ⟨l, hl, fun h => absurd harp h, hend⟩
  · exact ⟨s, .inl rfl, fun _ => rfl, rowEnd_ethIpv4 hwhole⟩
  · exact ⟨s, .inl rfl, fun _ => rfl, .dropped rfl nofun⟩

/-! ## The rows complete -/

/-- A row's end completes with its frame condition. -/
theorem RowEnd.completes {l : State} {n : Nat} {x : StepResult} (h : RowEnd l n x) : ∃ t, x = .next t ∧ RowFrame l t n := by
  obtain ⟨t, ht, hframe, -⟩ := h.outcome
  exact ⟨t, ht, hframe⟩

/-- Settles O10: the learn's state runs the row of bytes 20 and 21 of the frame, and the learn itself writes the cache only. -/
theorem ethArpLearnsAndRunsTheArpRow : Obligations.EthArpLearnsAndRunsTheArpRow := by
  intro s l eth arp i rest hop hw hp hl hdecode
  obtain ⟨h14, h28, rfl⟩ := arpOperand_payload hop
  have hlearned : Learned s l := .inr ⟨_, hw, hl⟩
  obtain ⟨h42, -⟩ := arpOperand_inv hop
  have hrow : exec .ethArp s = exec i l := by
    obtain ⟨-, rfl⟩ := decode_half_drop rfl decode_arp hdecode
    have hopcode : (arpOf (rxPayload s)).opcode = be16 (byteAt (rxFrame s) 20) (byteAt (rxFrame s) (20 + 1)) := by
      simp only [arpOf, rxPayload, byteAt_drop, Nat.reduceAdd]
    rw [exec_ethArp_whole h14, arpIncoming_learned h28 hw hp hl, hopcode]
  have hend : RowEnd l 42 (exec .ethArp s) := by
    rw [exec_ethArp_whole h14, arpIncoming_learned h28 hw hp hl]
    exact rowEnd_decodeArpOpcode (by rwa [hlearned.rxLen]) _
  obtain ⟨t, ht, hframe⟩ := hend.completes
  have hhost := hframe.host
  rw [learn_frame hl] at hhost
  exact ⟨hrow, t, ht, hframe.cache, hhost, hframe.idle, fun a ha => (hframe.mem a ha).trans (by rw [learn_frame hl])⟩

/-- Settles O11: the checks passed, the payload holds a datagram and its protocol's row runs. -/
theorem ethIpv4RunsTheIpv4Row : Obligations.EthIpv4RunsTheIpv4Row := by
  intro s i rest h14 hv hi ht hh hc hlow hhigh hdecode
  obtain rfl := decode_byte_drop rfl decode_ipv4 hdecode
  have hrow : exec .ethIpv4 s = exec (decodeIpv4Proto (byteAt (rxPayload s) 9)) s := by
    rw [exec_ethIpv4_whole h14, ipv4Incoming_valid hv hi ht hh hc hlow hhigh]
  obtain ⟨d, hd, hlength⟩ := datagramOperand_of_checks h14 (headerLen_ge hi) hlow hhigh
  obtain ⟨t, hnext, hframe⟩ := (rowEnd_decodeIpv4Proto hd (byteAt (rxPayload s) 9)).completes
  rw [hlength] at hframe
  exact ⟨hrow, t, hrow.trans hnext, hframe.cache, hframe.host, hframe.idle, hframe.mem⟩

/-- Settles O12: a message that passes its responder's checks leaves the last branch of their equation. -/
theorem ipv4RowsRunTheResponderRow : Obligations.Ipv4RowsRunTheResponderRow := by
  refine ⟨fun s d i rest hd hlen hc hdecode => ?_, fun s d i rest hd hlen hc hdecode => ?_⟩
  · obtain rfl : i = decodeIcmpType (byteAt d.payload 0) := decode_byte_drop (k := 0) rfl decode_icmp hdecode
    obtain ⟨t, ht, hframe⟩ := (rowEnd_ipv4Icmp hd).completes
    refine ⟨?_, t, ht, hframe.cache, hframe.host, hframe.idle, hframe.mem⟩
    rw [exec_ipv4Icmp hd, icmpIncoming_eq, if_neg hlen.not_gt, if_neg (not_not_intro hc)]
  · obtain rfl := decode_byte_drop rfl decode_tcp hdecode
    obtain ⟨t, ht, hframe⟩ := (rowEnd_ipv4Tcp hd).completes
    refine ⟨?_, t, ht, hframe.cache, hframe.host, hframe.idle, hframe.mem⟩
    rw [exec_ipv4Tcp hd, tcpIncoming_eq, if_neg hlen.not_gt, if_neg (not_not_intro hc)]

end Sys2Proof.Proofs
end

section
/-! What PROCESS_FRAME and the other instructions leave of the block: the outcomes of a frame (60_exceptions.md R300, R303), the frame
condition of every instruction (46_host_commands.md R275), and who writes `HALTED` (10_state.md R29). -/

namespace Sys2Proof.Proofs
open Sys2Proof.Machine Sys2Proof.Laws

/-! ## Every PROCESS_FRAME -/

/-- PROCESS_FRAME is rejected, or the block runs and the frame fits and goes through the pipeline (R271, R276, R277). -/
theorem exec_processFrame_cases (s : State) :
    (∃ r, reasonKind r = .rejected ∧ exec .processFrame s = .next (statusOnly (statusWord s.halted r) s))
      ∨ (s.halted = false ∧ s.rxLen.toNat ≤ s.cfg.maxFrame ∧ exec .processFrame s = frameIncoming (issuedFrame s)) := by
  cases hhalted : s.halted with
  | true => exact .inl ⟨.cmdHalted, rfl, exec_processFrame_of_halted hhalted⟩
  | false =>
    by_cases hfits : s.rxLen.toNat ≤ s.cfg.maxFrame
    · exact .inr ⟨rfl, hfits, exec_processFrame_of_fits hhalted hfits⟩
    · exact .inl ⟨.frameTooLong, rfl, exec_processFrame_of_tooLong hhalted (Nat.lt_of_not_le hfits)⟩

@[simp] theorem statusReason_statusWord (halted : Bool) (r : Reason) : statusReason (statusWord halted r) = reasonCode r :=
  statusReason_packStatus ..

@[simp] theorem statusKind_statusWord (halted : Bool) (r : Reason) :
    statusKind (statusWord halted r) = kindCode (reasonKind r) :=
  statusKind_packStatus ..

/-! ## The conflict (R168) -/

theorem eq_arpCacheConflict_of_reasonCode {r : Reason} (h : reasonCode r = 0x23#8) : r = .arpCacheConflict := by
  cases r
  case arpCacheConflict => rfl
  all_goals exact absurd h (by decide)

/-- Where the invariant holds every entry in use has the one hardware type R161 admits, so an admitted sender merges. -/
theorem InvAtFinish.learn_ne_conflict {l : State} {arp : ArpView} (h : InvAtFinish l) (hw : arp.hwtype = 1#16) :
    learn arp l ≠ .error .arpCacheConflict := by
  intro hl
  rcases learn_error hl with ⟨i, hi, hne, -⟩ | ⟨-, -, -, -, hr⟩
  · obtain ⟨e, he, hfree, -⟩ := lookup_some_getElem? hi
    rw [List.getD_eq_getElem?_getD, he, hw] at hne
    rcases h.cacheInv.entries e (List.mem_of_getElem? he) with rfl | ⟨-, hlegal⟩
    · exact hfree rfl
    · exact hne hlegal
  · cases hr

/-- Settles O30: of the ends of a row only a learn's conflict has that reason, and the invariant leaves none. -/
theorem conflictIsNeverReported : Obligations.ConflictIsNeverReported := by
  intro s t hinv ht hreason
  rcases exec_processFrame_cases s with ⟨r, hkind, he⟩ | ⟨-, -, he⟩
  · rw [he] at ht
    cases ht
    obtain rfl := eq_arpCacheConflict_of_reasonCode ((statusReason_statusWord s.halted r).symm.trans hreason)
    cases hkind
  obtain ⟨l, hl, -, hend⟩ := rowEnd_frameIncoming (issuedFrame s)
  have hatFinish : InvAtFinish l := (inv_beginCommand hinv).clearTxLen.learned hl
  rw [← he, ht] at hend
  generalize hx : Host.Outcome.next t = x at hend
  cases hend with
  | quiet r _ hr =>
    cases hx
    exact hr (eq_arpCacheConflict_of_reasonCode ((statusReason_statusWord l.halted r).symm.trans hreason))
  | conflict arp hw hlearn => exact hatFinish.learn_ne_conflict hw hlearn
  | replied eth Q r hkind _ =>
    rcases transmit_cases (replyFrame l.cfg eth Q) r l with ⟨-, hsent⟩ | ⟨-, hsent⟩ <;> rw [hsent] at hx <;> cases hx
    · obtain rfl := eq_arpCacheConflict_of_reasonCode ((statusReason_statusWord l.halted r).symm.trans hreason)
      cases hkind
    · exact absurd hreason (by rw [enterHalt_status]; decide)

/-! ## The outcomes of a frame -/

/-- What ends on the state after a learn, if there was one, keeps the host's side of the received state. -/
theorem RowFrame.keepsHostSide {s l t : State} {n : Nat} (h : RowFrame l t n) (hl : Learned s l) : KeepsHostSide s t := by
  have hhost := h.host
  rw [learned_frame hl] at hhost
  exact hhost

theorem RowFrame.keepsMem {s l t : State} {n m : Nat} (h : RowFrame l t n) (hl : Learned s l) (hnm : n ≤ m) (a : Nat)
    (ha : a < txBase ∨ txBase + m ≤ a) : memGet t.mem a = memGet s.mem a := by
  rw [h.mem a (by omega), learned_frame hl]

/-- Settles O44: the frame's row ends in one of three ways, and each leaves the fields as the statement says. -/
theorem processFrameReachesOneOutcome : Obligations.ProcessFrameReachesOneOutcome := by
  intro s hrunning hfits
  obtain ⟨l, hl, harp, hend⟩ := rowEnd_frameIncoming (issuedFrame s)
  obtain ⟨t, ht, hframe, hout⟩ := hend.outcome
  have hlhalted : l.halted = false := by rw [learned_frame hl]; exact hrunning
  have hlchannel : l.channel = s.channel := by rw [learned_frame hl]; rfl
  have hlsent : l.sent = s.sent := learned_sent (s := issuedFrame s) hl
  refine ⟨t, (exec_processFrame_of_fits hrunning hfits).trans ht, RowFrame.keepsHostSide (s := issuedFrame s) hframe hl,
    hframe.idle, RowFrame.keepsMem (s := issuedFrame s) hframe hl hfits, fun hne => ?_, ?_⟩
  · have hcache := hframe.cache
    rw [harp hne] at hcache
    exact hcache
  have hlen {out : Bytes} {ok : Bool} (htx : Transmits l t s.rxLen.toNat out ok) :
      t.txLen.toNat = out.length ∧ txFrame t = out := by
    have hlt : out.length < 65536 := Nat.lt_of_le_of_lt htx.length s.rxLen.isLt
    exact ⟨by rw [htx.txLen, BitVec.toNat_ofNat, Nat.mod_eq_of_lt hlt], htx.stored hlt⟩
  rcases hout with ⟨r, hquiet⟩ | ⟨r, out, htx, hkind, hstatus, hhalted⟩ | ⟨out, htx, hstatus, hhalted⟩
  · refine .inl ⟨r, hquiet.kind, hlhalted ▸ hquiet.status, hquiet.halted.trans hlhalted, ?_, ?_,
      hquiet.sent.trans hlsent, hquiet.channel.trans hlchannel⟩
    · rw [hquiet.txLen, learned_frame hl]
      rfl
    · rw [hquiet.mem, learned_frame hl]
      rfl
  · obtain ⟨htxLen, hstored⟩ := hlen htx
    rw [← hlchannel, htxLen, hstored, ← hlsent]
    exact .inr (.inl ⟨r, hkind, hlhalted ▸ hstatus, hhalted.trans hlhalted, htx.channel, htx.header, htx.length,
      htx.answer, htx.sent⟩)
  · obtain ⟨htxLen, hstored⟩ := hlen htx
    rw [← hlchannel, htxLen, hstored, ← hlsent]
    exact .inr (.inr ⟨hstatus, hhalted, htx.channel, htx.header, htx.length, htx.answer, htx.sent⟩)

/-- Settles O45: a kind of DROPPED is a drop's, which ends on the received state; a rejection, a consumption and a transmission
have other kinds. -/
theorem droppedFrameLeavesTheCache : Obligations.DroppedFrameLeavesTheCache := by
  intro s t ht hkind
  rcases exec_processFrame_cases s with ⟨r, hrejected, he⟩ | ⟨-, -, he⟩
  · rw [he] at ht
    cases ht
    have hcode : kindCode (reasonKind r) = 3#3 := (statusKind_statusWord s.halted r).symm.trans hkind
    rw [hrejected] at hcode
    exact absurd hcode (by decide)
  have hend := frameIncoming_end (issuedFrame s)
  rw [← he, ht] at hend
  generalize hx : Host.Outcome.next t = x at hend
  cases hend with
  | dropped r _ =>
    cases hx
    exact ⟨rfl, rfl, rfl, rfl⟩
  | consumed l r _ hconsumed =>
    cases hx
    rw [finish_status, statusKind_statusWord, hconsumed] at hkind
    exact absurd hkind (by decide)
  | sent l out r _ hreplied _ =>
    rcases transmit_cases out r l with ⟨-, hsent⟩ | ⟨-, hsent⟩ <;> rw [hsent] at hx <;> cases hx
    · rw [finish_status, statusKind_statusWord, hreplied] at hkind
      exact absurd hkind (by decide)
    · rw [enterHalt_status, statusKind_statusWord] at hkind
      exact absurd hkind (by decide)

/-! ## The frame condition of every instruction -/

/-- A dispatch row that completes, run alone, ends as rows end, with replies no longer than the received frame. -/
theorem exec_row_end {i : Instr} {s t : State} (hrow : i.level ≠ .command) (h : exec i s = .next t) :
    ∃ l, Learned s l ∧ RowEnd l s.rxLen.toNat (exec i s) := by
  cases i with
  | ethArp =>
    obtain ⟨eth, heth, -⟩ := orFault_next h
    exact rowEnd_ethArp (by simpa using (decodeEth_inv heth).1)
  | ethIpv4 =>
    obtain ⟨eth, heth, -⟩ := orFault_next h
    exact ⟨s, .inl rfl, rowEnd_ethIpv4 (by simpa using (decodeEth_inv heth).1)⟩
  | ethOther ethertype => exact ⟨s, .inl rfl, .dropped rfl nofun⟩
  | arpRequest =>
    obtain ⟨x, hx, -⟩ := orFault_next h
    obtain ⟨h42, -⟩ := arpOperand_inv hx
    exact ⟨s, .inl rfl, (rowEnd_execArpRequest h42).mono h42⟩
  | arpReply => exact ⟨s, .inl rfl, .consumed rfl⟩
  | arpOther opcode => exact ⟨s, .inl rfl, .consumed rfl⟩
  | ipv4Icmp =>
    obtain ⟨d, hd, -⟩ := orFault_next h
    exact ⟨s, .inl rfl, (rowEnd_ipv4Icmp hd).mono (datagramOperand_fits hd)⟩
  | ipv4Tcp =>
    obtain ⟨d, hd, -⟩ := orFault_next h
    exact ⟨s, .inl rfl, (rowEnd_ipv4Tcp hd).mono (datagramOperand_fits hd)⟩
  | ipv4Other proto => exact ⟨s, .inl rfl, .dropped rfl nofun⟩
  | icmpEchoRequest =>
    obtain ⟨d, hd, -⟩ := orFault_next h
    exact ⟨s, .inl rfl, (rowEnd_icmpEchoRequest hd).mono (datagramOperand_fits hd)⟩
  | icmpOther type => exact ⟨s, .inl rfl, .consumed rfl⟩
  | tcpSyn flags =>
    obtain ⟨x, hx, -⟩ := orFault_next h
    obtain ⟨hF, h20, -⟩ := tcpOperand_inv hx
    have hd := datagramOperand_ok hF
    exact ⟨s, .inl rfl, (rowEnd_tcpSyn hd h20 flags).mono (datagramOperand_fits hd)⟩
  | tcpNonsyn flags =>
    cases hpolicy : s.cfg.tcpNonSyn with
    | drop =>
      rw [exec_tcpNonsyn_drop flags hpolicy]
      exact ⟨s, .inl rfl, .dropped rfl nofun⟩
    | echo =>
      rw [exec, execTcpNonsyn, hpolicy] at h
      obtain ⟨x, hx, -⟩ := orFault_next h
      obtain ⟨hF, h20, -⟩ := tcpOperand_inv hx
      have hd := datagramOperand_ok hF
      exact ⟨s, .inl rfl, (rowEnd_tcpNonsyn hd h20 flags).mono (datagramOperand_fits hd)⟩
  | processFrame => exact absurd rfl hrow
  | cacheLookup => exact absurd rfl hrow
  | checksum => exact absurd rfl hrow
  | restart => exact absurd rfl hrow
  | cmdIllegal value => exact absurd rfl hrow

/-- What every instruction but CACHE_LOOKUP and CHECKSUM keeps: the host's side, and every byte but the first `RX_LEN` of
`TXBUF`. -/
def KeepsAllButReply (s t : State) : Prop :=
  KeepsHostSide s t ∧ ∀ a, a < txBase ∨ txBase + s.rxLen.toNat ≤ a → memGet t.mem a = memGet s.mem a

theorem RowEnd.keepsAllButReply {s l t : State} {x : StepResult} (hl : Learned s l) (h : RowEnd l s.rxLen.toNat x)
    (ht : x = .next t) : KeepsAllButReply s t := by
  obtain ⟨t', ht', hframe⟩ := h.completes
  obtain rfl : t = t' := by rw [ht] at ht'; cases ht'; rfl
  exact ⟨hframe.keepsHostSide hl, hframe.keepsMem hl (Nat.le_refl _)⟩

/-- The end of a command that writes `STATUS` and the fields of the frame state only. -/
theorem keepsAllButReply_statusOnly (s : State) (status : Half) (halted : Bool) :
    KeepsAllButReply s (statusOnly status { s with halted := halted }) :=
  ⟨⟨rfl, rfl, rfl, rfl, rfl, rfl, rfl, rfl, rfl, rfl, rfl⟩, fun _ _ => rfl⟩

theorem exec_keepsAllButReply {i : Instr} {s t : State} (hlookup : i ≠ .cacheLookup) (hchecksum : i ≠ .checksum)
    (h : exec i s = .next t) : KeepsAllButReply s t := by
  by_cases hrow : i.level = .command
  case neg =>
    obtain ⟨l, hl, hend⟩ := exec_row_end hrow h
    exact hend.keepsAllButReply hl h
  cases i with
  | processFrame =>
    rcases exec_processFrame_cases s with ⟨r, -, he⟩ | ⟨-, -, he⟩
    · rw [he] at h
      cases h
      exact keepsAllButReply_statusOnly s _ s.halted
    · obtain ⟨l, hl, -, hend⟩ := rowEnd_frameIncoming (issuedFrame s)
      exact RowEnd.keepsAllButReply (s := issuedFrame s) hl hend (he.symm.trans h)
  | cacheLookup => exact absurd rfl hlookup
  | checksum => exact absurd rfl hchecksum
  | restart =>
    rw [exec_restart] at h
    cases h
    exact keepsAllButReply_statusOnly s _ false
  | cmdIllegal value =>
    rw [exec_cmdIllegal] at h
    cases h
    exact keepsAllButReply_statusOnly s _ s.halted
  | _ => cases hrow

theorem exec_cacheLookup_frame {s t : State} (h : exec .cacheLookup s = .next t) :
    t = statusOnly t.status { s with lkInfo := t.lkInfo, lkMacHi := t.lkMacHi, lkMacLo := t.lkMacLo } := by
  cases hl : lookup s.cache s.argIp with
  | none =>
    rw [exec_cacheLookup_of_miss hl] at h
    cases h
    rfl
  | some i =>
    obtain ⟨e, he, -⟩ := lookup_some_getElem? hl
    rw [exec_cacheLookup_of_hit hl he] at h
    cases h
    rfl

theorem exec_checksum_frame {s t : State} (h : exec .checksum s = .next t) :
    t = statusOnly t.status { s with csumResult := t.csumResult } := by
  by_cases hfits : s.rxLen.toNat ≤ s.cfg.maxFrame
  · rw [exec_checksum_of_fits hfits] at h
    cases h
    rfl
  · rw [exec_checksum_of_tooLong (Nat.lt_of_not_le hfits)] at h
    cases h
    rfl

/-- Settles O51: the lookup and the checksum write their own registers, and every other instruction keeps the host's side. -/
theorem noInstructionWritesWhatTheHostWrites : Obligations.NoInstructionWritesWhatTheHostWrites := by
  intro i s t h
  by_cases hlookup : i = .cacheLookup
  · subst hlookup
    rw [exec_cacheLookup_frame h]
    exact ⟨rfl, rfl, rfl, rfl, rfl, rfl, rfl, fun _ _ => rfl, fun _ _ _ => rfl, fun hne => absurd rfl hne, fun _ => rfl⟩
  by_cases hchecksum : i = .checksum
  · subst hchecksum
    rw [exec_checksum_frame h]
    exact ⟨rfl, rfl, rfl, rfl, rfl, rfl, rfl, fun _ _ => rfl, fun _ _ _ => rfl, fun _ => ⟨rfl, rfl, rfl⟩,
      fun hne => absurd rfl hne⟩
  obtain ⟨⟨hcfg, hrx, harg, hinfo, hhi, hlo, hcsum, hhost, hrdata, hepoch, hdraws⟩, hmem⟩ :=
    exec_keepsAllButReply hlookup hchecksum h
  exact ⟨hcfg, hrx, harg, hhost, hrdata, hepoch, hdraws, hmem, fun hfits a ha => hmem a (by omega),
    fun _ => ⟨hinfo, hhi, hlo⟩, fun _ => hcsum⟩

/-! ## Who writes `HALTED` (R29) -/

/-- The block halts: a frame that the channel refused is the last one sent, and `STATUS` says TX_FAILURE (R149). -/
def HaltsOnRefusal (s t : State) : Prop :=
  t.halted = true ∧ (∃ F, t.sent = s.sent ++ [⟨F, false⟩]) ∧ t.status = 0xD460#16

theorem exec_processFrame_halted {s t : State} (h : exec .processFrame s = .next t) :
    t.halted = s.halted ∨ HaltsOnRefusal s t := by
  rcases exec_processFrame_cases s with ⟨r, -, he⟩ | ⟨-, -, he⟩
  · rw [he] at h
    cases h
    exact .inl rfl
  · obtain ⟨l, hl, -, hend⟩ := rowEnd_frameIncoming (issuedFrame s)
    obtain ⟨t', ht', -, hout⟩ := hend.outcome
    obtain rfl : t = t' := by rw [← he, h] at ht'; cases ht'; rfl
    have hlhalted : l.halted = s.halted := by rw [learned_frame hl]; rfl
    have hlsent : l.sent = s.sent := learned_sent (s := issuedFrame s) hl
    rcases hout with ⟨r, hquiet⟩ | ⟨r, out, -, -, -, hhalted⟩ | ⟨out, htx, hstatus, hhalted⟩
    · exact .inl (hquiet.halted.trans hlhalted)
    · exact .inl (hhalted.trans hlhalted)
    · exact .inr ⟨hhalted, ⟨out, hlsent ▸ htx.sent⟩, hstatus⟩

/-- A command sets `HALTED` by a refused transmission, clears it as RESTART, or leaves it. -/
theorem exec_decodeCommand_halted {v : Word} {s t : State} (h : exec (decodeCommand v) s = .next t) :
    t.halted = s.halted ∨ HaltsOnRefusal s t ∨ (v = 4#32 ∧ t.halted = false) := by
  unfold decodeCommand at h
  split_ifs at h with _ _ _ hrestart
  · exact (exec_processFrame_halted h).imp_right .inl
  · rw [exec_cacheLookup_frame h]
    exact .inl rfl
  · rw [exec_checksum_frame h]
    exact .inl rfl
  · rw [exec_restart] at h
    cases h
    exact .inr (.inr ⟨hrestart, rfl⟩)
  · rw [exec_cmdIllegal] at h
    cases h
    exact .inl rfl

/-- Of the host's actions only a command and the reset event write `HALTED`. -/
theorem performHost_halted {a : HostAction} {s t : State} (h : performHost a s = .next t) :
    t.halted = s.halted ∨ HaltsOnRefusal s t ∨ ((a = .reset ∨ a = .write 0x000 .word 4#32) ∧ t.halted = false) := by
  cases a with
  | read off size =>
    rw [hostRead_next h]
    exact .inl rfl
  | write off size v =>
    rcases hostWrite_next h with
      rfl | ⟨-, ⟨rfl, rfl, hexec⟩ | ⟨-, -, rfl⟩ | ⟨-, -, rfl⟩ | ⟨-, -, -, rfl⟩⟩
    · exact .inl rfl
    · refine (exec_decodeCommand_halted hexec).imp_right (.imp_right ?_)
      rintro ⟨rfl, hcleared⟩
      exact ⟨.inr rfl, hcleared⟩
    · exact .inl rfl
    · exact .inl rfl
    · exact .inl rfl
  | wrbuf off B =>
    obtain ⟨-, -, rfl⟩ := hostWriteBuffer_next h
    exact .inl rfl
  | tx report =>
    cases h
    exact .inl rfl
  | reset =>
    cases h
    exact .inr (.inr ⟨.inl rfl, rfl⟩)

/-- Settles O53: a step that changes `HALTED` performs an action, which sets it on a refusal or clears it as RESTART or
reset. -/
theorem haltedIsSetByFailureAndClearedByRestart : Obligations.HaltedIsSetByFailureAndClearedByRestart := by
  intro s t h
  rcases step_next h with ⟨-, rfl⟩ | ⟨a, rest, hs, ha⟩
  · exact ⟨fun hclear hset => absurd (hclear.symm.trans hset) nofun, fun hset hclear => absurd (hset.symm.trans hclear) nofun⟩
  rcases performHost_halted ha with hsame | ⟨hset, ⟨F, hsent⟩, hstatus⟩ | ⟨haction, hclear⟩
  · have hsame : t.halted = s.halted := hsame
    exact ⟨fun h0 h1 => absurd ((hsame.trans h0).symm.trans h1) nofun,
      fun h1 h0 => absurd ((hsame.trans h1).symm.trans h0) nofun⟩
  · exact ⟨fun _ _ => ⟨F, hsent, hstatus⟩, fun _ h0 => absurd (hset.symm.trans h0) nofun⟩
  · refine ⟨fun _ h1 => absurd (hclear.symm.trans h1) nofun, fun _ _ => ?_⟩
    rw [hs]
    exact haction.imp (congrArg some) (congrArg some)

end Sys2Proof.Proofs
end

section
/-! The field writes and the laws of the checksum (40_codec_checksum.md R122, R123, R127 to R130): every law is one of the word sum
and of what `fold` makes of it. -/

namespace Sys2Proof.Proofs
open Sys2Proof.Machine Sys2Proof.Laws

/-! ## Field writes (R123) -/

/-- Settles O14: the write's own window reads back, and every other byte is as it was. -/
theorem fieldWritesReadBackAndTouchNothingElse : Obligations.FieldWritesReadBackAndTouchNothingElse := by
  refine ⟨fun B off v h => ⟨writeU16_length B off v h, ?_, fun i => byteAt_writeU16_other B off v i h⟩,
    fun B off v h => ⟨writeU32_length B off v h, ?_, fun i => byteAt_writeU32_other B off v i h⟩⟩
  · rw [readU16_ok ((writeU16_length B off v h).symm ▸ h), be16_writeU16_same B off v h]
  · rw [readU32_ok ((writeU32_length B off v h).symm ▸ h), be32_writeU32_same B off v h]

/-- A part replaced twice by strings of one length is replaced by the second. -/
theorem splice_splice (B : Bytes) (off : Nat) {C D : Bytes} (hCD : D.length = C.length) (h : off + C.length ≤ B.length) :
    splice (splice B off C) off D = splice B off D := by
  have htake : (B.take off).length = off := List.length_take_of_le (by omega)
  have hfront : (B.take off ++ C).length = off + C.length := by rw [List.length_append, htake]
  unfold splice
  rw [hCD, List.drop_left' hfront, List.append_assoc (B.take off) C, List.take_left' htake]

theorem writeU16_writeU16 (B : Bytes) (off : Nat) (v w : Half) (h : off + 2 ≤ B.length) :
    writeU16 (writeU16 B off v) off w = writeU16 B off w :=
  splice_splice B off rfl h

/-! ## The end-around carry (R129) -/

theorem fold_fold_add (s w : Nat) : fold (fold s + w) = fold (s + w) := by
  rw [fold_eq s, fold_eq (s + w), fold_eq]
  split_ifs <;> omega

/-- Folding after each word answers what folding the sum of all of them does. -/
theorem foldl_fold_add (ws : List Nat) (s : Nat) :
    ws.foldl (fun acc w => fold (acc + w)) (fold s) = fold (s + ws.sum) := by
  induction ws generalizing s with
  | nil => simp
  | cons w ws ih => rw [List.foldl_cons, fold_fold_add, ih, List.sum_cons, Nat.add_assoc]

/-- Settles O16: the accumulator starts at `fold 0`, and the words' sum is `sum16`. -/
theorem endAroundCarryAccumulatorAgrees : Obligations.EndAroundCarryAccumulatorAgrees := by
  intro B
  have hacc : (wordsOf B).foldl (fun acc w => fold (acc + w)) 0 = fold (sum16 B) := by
    have h := foldl_fold_add (wordsOf B) 0
    rwa [(fold_eq_zero_iff 0).2 rfl, Nat.zero_add, ← sum16_eq_sum_wordsOf] at h
  exact ⟨hacc, by rw [hacc, checksum_full B _ (Nat.le_refl _)]⟩

/-! ## The pseudo-header's sum (R128) -/

@[simp] theorem pseudoHeader_length (src dst : Word) (p : Byte) (n : Half) : (pseudoHeader src dst p n).length = 12 := by
  simp only [pseudoHeader, List.length_append, u32_length, u8_length, u16_length]

/-- The word sum that the pseudo-header of a segment of the given length adds. -/
def pseudoSum (src dst : Word) (p : Byte) (n : Nat) : Nat := sum16 (pseudoHeader src dst p (BitVec.ofNat 16 n))

theorem sum16_pseudoHeader_append (src dst : Word) (p : Byte) (n : Nat) (T : Bytes) :
    sum16 (pseudoHeader src dst p (BitVec.ofNat 16 n) ++ T) = pseudoSum src dst p n + sum16 T :=
  sum16_append _ _ (by rw [pseudoHeader_length])

/-- The two addresses trade places among the words of the sum (R244). -/
theorem pseudoSum_comm (a b : Word) (p : Byte) (n : Nat) : pseudoSum a b p n = pseudoSum b a p n := by
  have hsum (x y : Word) : pseudoSum x y p n
      = sum16 (u32 x) + sum16 (u32 y) + sum16 (u8 0#8 ++ u8 p ++ u16 (BitVec.ofNat 16 n)) := by
    simp only [pseudoSum, pseudoHeader, List.append_assoc]
    rw [sum16_append _ _ (by rw [u32_length]), sum16_append _ _ (by rw [u32_length]), Nat.add_assoc]
  rw [hsum a b, hsum b a, Nat.add_comm (sum16 (u32 a))]

section
variable (src dst : Word) (p : Byte) (T : Bytes)

theorem pseudoHeader_append_length : (pseudoHeader src dst p (BitVec.ofNat 16 T.length) ++ T).length = 12 + T.length := by
  rw [List.length_append, pseudoHeader_length]

theorem tcpChecksum_toNat :
    (tcpChecksum src dst p T).toNat = 65535 - fold (pseudoSum src dst p T.length + sum16 T) := by
  rw [tcpChecksum, checksum_full _ _ (pseudoHeader_append_length src dst p T).le, sum16_pseudoHeader_append]

/-- A segment validates exactly when its sum with the pseudo-header's is a positive multiple of 65535. -/
theorem tcpChecksum_eq_zero_iff :
    tcpChecksum src dst p T = 0#16
      ↔ 0 < pseudoSum src dst p T.length + sum16 T ∧ (pseudoSum src dst p T.length + sum16 T) % 65535 = 0 := by
  rw [tcpChecksum, checksum_eq_zero_iff _ _ (pseudoHeader_append_length src dst p T).le, sum16_pseudoHeader_append]

end

/-! ## Construction for a segment (R127, R128; R130 law 1) -/

section
variable {src dst : Word} {p : Byte} {T : Bytes} (h : 18 ≤ T.length)
include h

theorem zeroedChecksum_length : (writeU16 T 16 0#16).length = T.length := writeU16_length T 16 0#16 h

/-- The construction leaves every byte outside the field as it was. -/
theorem byteAt_constructTcpChecksum_other {i : Nat} (hi : i < 16 ∨ 18 ≤ i) :
    byteAt (constructTcpChecksum src dst p T) i = byteAt T i := by
  rw [constructTcpChecksum, byteAt_writeU16_other _ _ _ _ ((zeroedChecksum_length h).symm ▸ h) hi,
    byteAt_writeU16_other _ _ _ _ h hi]

theorem readU16_constructTcpChecksum :
    readU16 (constructTcpChecksum src dst p T) 16 = .ok (tcpChecksum src dst p (writeU16 T 16 0#16)) := by
  rw [readU16_ok ((constructTcpChecksum_length src dst p T h).symm ▸ h), constructTcpChecksum,
    be16_writeU16_same _ _ _ ((zeroedChecksum_length h).symm ▸ h)]

/-- The constructed field zeroed again is the segment the checksum was taken over. -/
theorem zeroed_constructTcpChecksum :
    writeU16 (constructTcpChecksum src dst p T) 16 0#16 = writeU16 T 16 0#16 := by
  rw [constructTcpChecksum, writeU16_writeU16 _ _ _ _ ((zeroedChecksum_length h).symm ▸ h), writeU16_writeU16 _ _ _ _ h]

/-- A segment whose checksum was constructed validates: the field completes the sum to a multiple of 65535. -/
theorem tcpChecksum_constructTcpChecksum : tcpChecksum src dst p (constructTcpChecksum src dst p T) = 0#16 := by
  have hlength := constructTcpChecksum_length src dst p T h
  have hsum := sum16_writeU16 (writeU16 T 16 0#16) 16 (tcpChecksum src dst p (writeU16 T 16 0#16)) rfl
    ((zeroedChecksum_length h).symm ▸ h)
  have hnew := tcpChecksum_toNat src dst p (writeU16 T 16 0#16)
  have htotal : sum16 (constructTcpChecksum src dst p T)
      = sum16 (writeU16 (writeU16 T 16 0#16) 16 (tcpChecksum src dst p (writeU16 T 16 0#16))) := rfl
  rw [be16_writeU16_same T 16 0#16 h, BitVec.toNat_ofNat, Nat.zero_mod, Nat.add_zero, ← htotal] at hsum
  rw [zeroedChecksum_length h, fold_eq] at hnew
  rw [tcpChecksum_eq_zero_iff, hlength, hsum, hnew]
  split_ifs <;> omega

end

/-- Settles O17: the constructed field completes the sum, the pseudo-header's included, to a positive multiple of 65535. -/
theorem constructedChecksumValidates : Obligations.ConstructedChecksumValidates :=
  ⟨fun R c heven h => ⟨constructChecksum_length R c h, checksum_constructChecksum h heven⟩,
    fun _ _ _ _ h => tcpChecksum_constructTcpChecksum h⟩

/-! ## One bit flipped (R130 law 2) -/

/-- Flipping a bit adds its weight or takes it away. -/
theorem xor_two_pow_cases (x j : Nat) : x ^^^ 2 ^ j = x + 2 ^ j ∨ (x ^^^ 2 ^ j) + 2 ^ j = x := by
  induction j generalizing x with
  | zero =>
    have hlow := Nat.xor_mod_two_eq (m := x) (n := 1)
    have hhigh := Nat.xor_div_two (a := x) (b := 1)
    rw [show 1 / 2 = 0 from rfl, Nat.xor_zero] at hhigh
    rw [Nat.pow_zero]
    omega
  | succ j ih =>
    have hlow := Nat.xor_mod_two_eq (m := x) (n := 2 ^ (j + 1))
    have hhigh := Nat.xor_div_two (a := x) (b := 2 ^ (j + 1))
    rw [Nat.pow_succ, Nat.mul_div_cancel _ (by decide)] at hhigh
    have hrest := ih (x / 2)
    rw [← hhigh] at hrest
    rw [Nat.pow_succ] at hlow ⊢
    omega

/-- What a byte's value counts in the word sum: it is the high byte of a word at an even place, the low one at an odd. -/
def byteWeight (i : Nat) : Nat := if i % 2 = 0 then 256 else 1

/-- Exchanging one byte exchanges its value in the sum. -/
theorem sum16_set (R : Bytes) (i : Nat) (b : Byte) (h : i < R.length) :
    sum16 (R.set i b) + byteWeight i * (byteAt R i).toNat = sum16 R + byteWeight i * b.toNat := by
  induction R using sum16.induct generalizing i with
  | case1 => exact absurd h (Nat.not_lt_zero i)
  | case2 a =>
    obtain rfl : i = 0 := by simpa using h
    simp only [List.set_cons_zero, sum16, byteWeight, byteAt, List.getD_cons_zero, Nat.zero_mod, if_true]
    omega
  | case3 a a' rest ih =>
    match i with
    | 0 =>
      simp only [List.set_cons_zero, sum16, byteWeight, byteAt, List.getD_cons_zero, Nat.zero_mod, if_true]
      omega
    | 1 =>
      simp only [List.set_cons_succ, List.set_cons_zero, sum16, byteWeight, byteAt, List.getD_cons_succ,
        List.getD_cons_zero, Nat.one_mod, one_ne_zero, if_false]
      omega
    | i + 2 =>
      have hrest := ih i (by simpa using h)
      have hweight : byteWeight (i + 2) = byteWeight i := by rw [byteWeight, byteWeight, Nat.add_mod_right]
      simp only [List.set_cons_succ, sum16, hweight, byteAt, List.getD_cons_succ] at hrest ⊢
      omega

/-- Settles O18: the flip moves the sum by at least 1 and at most 2^15, so not by a multiple of 65535. -/
theorem singleBitFlipIsDetected : Obligations.SingleBitFlipIsDetected := by
  intro R i j hi hj hvalid hflipped
  have hset := sum16_set R i (byteAt R i ^^^ BitVec.twoPow 8 j) hi
  have hbit := xor_two_pow_cases (byteAt R i).toNat j
  have hlength : (R.set i (byteAt R i ^^^ BitVec.twoPow 8 j)).length ≤ R.length := (List.length_set ..).le
  obtain ⟨-, hmod⟩ := (checksum_eq_zero_iff R _ (Nat.le_refl _)).1 hvalid
  obtain ⟨-, hmod'⟩ := (checksum_eq_zero_iff _ _ hlength).1 hflipped
  have hpow : 2 ^ j ≤ 128 := Nat.pow_le_pow_right (by decide) (Nat.le_of_lt_succ hj)
  have hpos : 0 < 2 ^ j := Nat.two_pow_pos j
  have htwoPow : (BitVec.twoPow 8 j).toNat = 2 ^ j := by
    rw [BitVec.toNat_twoPow, Nat.mod_eq_of_lt (by omega)]
  rw [BitVec.toNat_xor, htwoPow] at hset
  unfold byteWeight at hset
  split_ifs at hset <;> omega

/-! ## The order of the words, and the two zeros (R130 laws 3 and 4) -/

@[simp] theorem flatMap_u16_length (ws : List Half) : (ws.flatMap u16).length = 2 * ws.length := by
  simp [Nat.mul_comm]

theorem sum16_flatMap_u16 (ws : List Half) (tail : Bytes) :
    sum16 (ws.flatMap u16 ++ tail) = (ws.map BitVec.toNat).sum + sum16 tail := by
  induction ws with
  | nil => simp
  | cons w ws ih =>
    rw [List.flatMap_cons, List.append_assoc, sum16_append _ _ (by rw [u16_length]), sum16_u16, ih, List.map_cons, List.sum_cons,
      Nat.add_assoc]

/-- Settles O19: the sum of the words does not depend on their order, a checksum of 0 is the complement of 0xFFFF, and 0xFFFF
adds a multiple of 65535 to a valid sum. -/
theorem checksumIgnoresWordOrderAndHasTwoZeros : Obligations.ChecksumIgnoresWordOrderAndHasTwoZeros := by
  refine ⟨fun ws ws' tail hperm => ?_, fun R c heven h => ⟨fun hread => ?_, fun hvalid => ?_⟩⟩
  · have hsum : sum16 (ws.flatMap u16 ++ tail) = sum16 (ws'.flatMap u16 ++ tail) := by
      rw [sum16_flatMap_u16, sum16_flatMap_u16, (hperm.map BitVec.toNat).sum_eq]
    have hlength (vs : List Half) (hvs : vs.length = ws.length) :
        (vs.flatMap u16 ++ tail).length ≤ 2 * ws.length + tail.length := by
      rw [List.length_append, flatMap_u16_length, hvs]
    refine ⟨hsum, BitVec.eq_of_toNat_eq ?_⟩
    rw [checksum_full _ _ (hlength ws rfl), checksum_full _ _ (hlength ws' hperm.length_eq.symm), hsum]
  · rw [readU16_constructChecksum h, Except.ok.injEq] at hread
    have hnew := checksum_zeroed_toNat h
    have hlt := fold_lt (sum16 (writeU16 R c 0#16))
    rw [hread, BitVec.toNat_ofNat, Nat.zero_mod] at hnew
    omega
  · have hzeros := sum16_writeU16 R c 0#16 heven h
    have hones := sum16_writeU16 R c 0xFFFF#16 heven h
    rw [checksum_eq_zero_iff _ _ (writeU16_length R c _ h).le] at hvalid ⊢
    simp only [BitVec.toNat_ofNat, Nat.reducePow, Nat.reduceMod] at hzeros hones
    omega

/-! ## The messages' codecs (R72, R79, R83 to R85) -/

theorem arpEncode_length (a : ArpView) : (arpEncode a).length = 28 := by
  simp only [arpEncode, List.length_append, u8_length, u16_length, u32_length, u48_length]

/-- Each field of the view is read from the window (R72) that the encoder filled with that field's own bytes. (Bracketed to the
right the string is checked window by window.) -/
theorem arpOf_arpEncode (a : ArpView) (rest : Bytes) : arpOf (arpEncode a ++ rest) = a := by
  cases a
  simp only [arpEncode, List.append_assoc]
  rw [arpOf, ArpView.mk.injEq]
  exact ⟨be16_u16 _, be16_u16 _, rfl, rfl, be16_u16 _, macOfBytes_u48 _, be32_u32 _, macOfBytes_u48 _, be32_u32 _⟩

theorem icmpOf_icmpEncode (m : IcmpView) : icmpOf (icmpEncode m) = m := by
  cases m
  rw [icmpOf, IcmpView.mk.injEq]
  exact ⟨rfl, rfl, be16_u16 _, rfl⟩

/-- The data offset and the reserved bits share a byte (R84); every other field has a window of its own (R83). -/
theorem tcpOf_tcpEncode (t : TcpView) : tcpOf (tcpEncode t) = t := by
  cases t
  simp only [tcpEncode, List.append_assoc]
  rw [tcpOf, TcpView.mk.injEq]
  exact ⟨be16_u16 _, be16_u16 _, be32_u32 _, be32_u32 _, BitVec.extractLsb'_append_eq_left,
    BitVec.extractLsb'_append_eq_right, rfl, be16_u16 _, be16_u16 _, be16_u16 _, rfl⟩

/-- Settles O22: an encoded message is as long as its decoder needs, so it decodes to its view. -/
theorem messageRoundTrips : Obligations.MessageRoundTrips := by
  refine ⟨fun a rest => ⟨?_, arpEncode_length a⟩, fun m => ?_, fun t => ?_⟩
  · have hwhole : 28 ≤ (arpEncode a ++ rest).length := by
      rw [List.length_append, arpEncode_length]
      exact Nat.le_add_right _ _
    rw [decodeArp_ok hwhole, arpOf_arpEncode]
  · have hwhole : 4 ≤ (icmpEncode m).length := by
      simp only [icmpEncode, List.length_append, u8_length, u16_length]
      omega
    rw [decodeIcmp_ok hwhole, icmpOf_icmpEncode]
  · have hwhole : 20 ≤ (tcpEncode t).length := by
      simp only [tcpEncode, List.length_append, u8_length, u16_length, u32_length]
      omega
    rw [decodeTcp_ok hwhole, tcpOf_tcpEncode]

end Sys2Proof.Proofs
end

section
/-! The replies (41_ethernet.md R146, R148, R149): the frames the rows hand over, byte for byte, and the state after the hand-over;
with the turnaround's header (43_ipv4.md R199) and the segments of the TCP builder (45_tcp.md R243 to R247). -/

namespace Sys2Proof.Proofs
open Sys2Proof.Machine Sys2Proof.Laws

/-! ## Reads of a string with a part replaced -/

/-- A 16-bit field reads the same from strings of one length that agree on its bytes. -/
theorem readU16_congr {A B : Bytes} {off : Nat} (hlength : A.length = B.length)
    (h : ∀ i, off ≤ i → i < off + 2 → byteAt A i = byteAt B i) : readU16 A off = readU16 B off := by
  rw [readU16, readU16, hlength, h off (by omega) (by omega), h (off + 1) (by omega) (by omega)]

theorem readU32_congr {A B : Bytes} {off : Nat} (hlength : A.length = B.length)
    (h : ∀ i, off ≤ i → i < off + 4 → byteAt A i = byteAt B i) : readU32 A off = readU32 B off := by
  rw [readU32, readU32, hlength, h off (by omega) (by omega), h (off + 1) (by omega) (by omega),
    h (off + 2) (by omega) (by omega), h (off + 3) (by omega) (by omega)]

theorem readU16_writeU16_same {B : Bytes} {off : Nat} (v : Half) (h : off + 2 ≤ B.length) :
    readU16 (writeU16 B off v) off = .ok v := (fieldWritesReadBackAndTouchNothingElse.1 B off v h).2.1

theorem readU32_writeU32_same {B : Bytes} {off : Nat} (v : Word) (h : off + 4 ≤ B.length) :
    readU32 (writeU32 B off v) off = .ok v := (fieldWritesReadBackAndTouchNothingElse.2 B off v h).2.1

/-! ## The turnaround's header (R199) -/

/-- The turnaround constructs the checksum of the header whose addresses traded places. -/
theorem turnaroundHeader_eq_construct {d : Datagram} (h : HeaderOfView d) :
    turnaroundHeader d = constructChecksum (swappedHeader d) 10 := by
  rw [turnaroundHeader_eq, constructChecksum, writeU16_length _ _ _ (swappedHeader_holds_hcsum h), swappedHeader_length h,
    h.length]

/-- Settles O33: construction touches only its field, and the two writes of the swap only the addresses. -/
theorem turnaroundHeaderSwapsAddresses : Obligations.TurnaroundHeaderSwapsAddresses := by
  intro s d hd
  have h := headerOfView_of_operand hd
  have hminimum := h.minimum
  have hfirst := writeDaddr_length h
  have hlength := swappedHeader_length h
  have hholds := swappedHeader_holds_hcsum h
  have hlengthC := constructChecksum_length (swappedHeader d) 10 hholds
  have hother {i : Nat} (hi : i < 10 ∨ 12 ≤ i) := byteAt_constructChecksum_other hholds hi
  rw [turnaroundHeader_eq_construct h, ← hlength]
  refine ⟨hlengthC, ?_, ?_, fun i hi => ?_, checksum_constructChecksum hholds rfl, ?_⟩
  · rw [readU32_congr hlengthC fun i hlow _ => hother (by omega),
      readU32_congr (B := writeU32 d.header 12 d.ip.daddr) (hlength.trans hfirst.symm)
        fun i _ hhigh => byteAt_writeU32_other _ _ _ _ (by omega) (.inl hhigh),
      readU32_writeU32_same _ (by omega)]
  · rw [readU32_congr hlengthC fun i hlow _ => hother (by omega), swappedHeader, readU32_writeU32_same _ (by omega)]
  · rw [hother (by omega), swappedHeader, byteAt_writeU32_other _ _ _ _ (by omega) (by omega),
      byteAt_writeU32_other _ _ _ _ (by omega) (by omega)]
  · have hzeroed : writeU16 (constructChecksum (swappedHeader d) 10) 10 0#16 = writeU16 (swappedHeader d) 10 0#16 := by
      rw [constructChecksum, writeU16_writeU16 _ _ _ _ (zeroedField_holds_field hholds), writeU16_writeU16 _ _ _ _ hholds]
    rw [readU16_constructChecksum hholds, hzeroed]

/-! ## The state after a reply -/

theorem transmit_of_accepts {s : State} (hrunning : s.halted = false) (out : Bytes) (r : Reason)
    (h : s.channel.accepts out.length = true) :
    transmit out r s = .next (afterReply out (statusWord false r) true s) := by
  have hnext : transmit out r s = .next (finish r (handOver out s)) := if_pos h
  simp only [hnext, finish, handOver, afterReply, h, hrunning, Bool.not_true, Bool.or_false]

theorem transmit_of_refuses {s : State} (out : Bytes) (r : Reason) (h : s.channel.accepts out.length = false) :
    transmit out r s = .next (afterReply out 0xD460#16 false s) := by
  have hnext : transmit out r s = .next (enterHalt (handOver out s)) := if_neg (Bool.eq_false_iff.mp h)
  simp only [hnext, enterHalt, finish, handOver, afterReply, h, Bool.not_false, Bool.or_true, statusWord_txFailure]

/-! ## The bytes of a reply -/

/-- A 16-bit field is written as the two bytes it was read from. -/
theorem u16_be16_at {B : Bytes} {off : Nat} (h : off + 2 ≤ B.length) :
    u16 (be16 (byteAt B off) (byteAt B (off + 1))) = (B.drop off).take 2 := by
  rw [u16_be16, drop_eq_byteAt_cons (by omega), drop_eq_byteAt_cons (by omega)]
  rfl

theorem u32_be32_at {B : Bytes} {off : Nat} (h : off + 4 ≤ B.length) :
    u32 (be32 (byteAt B off) (byteAt B (off + 1)) (byteAt B (off + 2)) (byteAt B (off + 3))) = (B.drop off).take 4 := by
  rw [u32_be32, drop_eq_byteAt_cons (by omega), drop_eq_byteAt_cons (by omega), drop_eq_byteAt_cons (by omega),
    drop_eq_byteAt_cons (by omega)]
  rfl

/-- A reply goes to the received source, from `DEV_MAC`, with the received ethertype (R146). -/
theorem replyFrame_ethOf (c : Config) {F : Bytes} (h : 14 ≤ F.length) (Q : Bytes) :
    replyFrame c (ethOf F) Q = (F.drop 6).take 6 ++ u48 c.devMac ++ (F.drop 12).take 2 ++ Q := by
  rw [← u48_macAt (show 6 + 6 ≤ F.length by omega), ← u16_be16_at (show 12 + 2 ≤ F.length by omega)]
  rfl

/-! ## The ARP reply (R170 to R174) -/

/-- The four leading fields of an ARP message are the six bytes they were read from (R72). -/
theorem arpOf_leadingFields {P : Bytes} (h : 28 ≤ P.length) :
    u16 (arpOf P).hwtype ++ u16 (arpOf P).protype ++ u8 (arpOf P).hwsize ++ u8 (arpOf P).prosize = P.take 6 := by
  have hbytes := drop_eq_byteAt_cons (B := P) (k := 0) (by omega)
  rw [drop_eq_byteAt_cons (k := 0 + 1) (by omega), drop_eq_byteAt_cons (k := 0 + 1 + 1) (by omega),
    drop_eq_byteAt_cons (k := 0 + 1 + 1 + 1) (by omega), drop_eq_byteAt_cons (k := 0 + 1 + 1 + 1 + 1) (by omega),
    drop_eq_byteAt_cons (k := 0 + 1 + 1 + 1 + 1 + 1) (by omega), List.drop_zero] at hbytes
  simp only [arpOf, u16_be16, u8]
  rw [hbytes]
  rfl

/-- The reply has the request's four leading fields, opcode 2, the device as sender and the received sender as target (R170). -/
theorem arpReplyMessage_arpOf (c : Config) {P : Bytes} (h : 28 ≤ P.length) :
    arpReplyMessage c (arpOf P)
      = P.take 6 ++ [0x00, 0x02] ++ u48 c.devMac ++ u32 c.devIp ++ (P.drop 8).take 6 ++ (P.drop 14).take 4 := by
  have hreply : u16 2#16 = [0x00, 0x02] := by decide
  rw [← arpOf_leadingFields h, ← hreply, ← u48_macAt (show 8 + 6 ≤ P.length by omega),
    ← u32_be32_at (show 14 + 4 ≤ P.length by omega)]
  rfl

theorem u32_injective {v w : Word} (h : u32 v = u32 w) : v = w := by
  rw [← be32_u32 v, ← be32_u32 w]
  simp only [u32, List.cons.injEq] at h
  rw [h.1, h.2.1, h.2.2.1, h.2.2.2.1]

/-- The 42 bytes of the reply frame, the message's windows told by their offsets in the received frame. -/
theorem arpReplyFrame_bytes (c : Config) {F : Bytes} (h : 42 ≤ F.length) :
    replyFrame c (ethOf F) (arpReplyMessage c (arpOf (F.drop 14)))
      = (F.drop 6).take 6 ++ u48 c.devMac ++ (F.drop 12).take 2 ++ (F.drop 14).take 6 ++ [0x00, 0x02] ++ u48 c.devMac
        ++ u32 c.devIp ++ (F.drop 22).take 6 ++ (F.drop 28).take 4 := by
  have hpayload : 28 ≤ (F.drop 14).length := by
    rw [List.length_drop]
    omega
  rw [replyFrame_ethOf c (by omega), arpReplyMessage_arpOf c hpayload]
  simp only [List.append_assoc, List.drop_drop, Nat.reduceAdd]

/-- The target address is the four bytes at offset 38 of the frame (R72). -/
theorem arpOf_tip_eq_iff {F : Bytes} (h : 42 ≤ F.length) (ip : Word) :
    (arpOf (F.drop 14)).tip = ip ↔ (F.drop 38).take 4 = u32 ip := by
  have htip : u32 (arpOf (F.drop 14)).tip = (F.drop 38).take 4 := by
    rw [← List.drop_drop (i := 24) (j := 14)]
    exact u32_be32_at (by rw [List.length_drop]; omega)
  exact ⟨fun heq => htip.symm.trans (congrArg u32 heq), fun heq => u32_injective (htip.trans heq)⟩

theorem exec_arpRequest {s : State} (h : 42 ≤ s.rxLen.toNat) :
    exec .arpRequest s
      = if s.cfg.arpOwnIpOnly ∧ (arpOf (rxPayload s)).tip ≠ s.cfg.devIp then consume .arpRequestNotOwnIp s
        else transmit (replyFrame s.cfg (ethOf (rxFrame s)) (arpReplyMessage s.cfg (arpOf (rxPayload s)))) .arpReplySent s := by
  rw [exec, execArpRequest, arpOperand_ok h, orFault_ok]
  rfl

/-- Settles O31: the row is a consumption or one transmission, and the frame's fields are the windows they were read from. -/
theorem arpRequestIsAnswered : Obligations.ArpRequestIsAnswered := by
  intro s hrunning h42 F out forUs
  have hF : 42 ≤ F.length := by rwa [rxFrame_length]
  have hforUs : (arpOf (rxPayload s)).tip = s.cfg.devIp ↔ forUs := arpOf_tip_eq_iff hF s.cfg.devIp
  have hout : replyFrame s.cfg (ethOf F) (arpReplyMessage s.cfg (arpOf (rxPayload s))) = out := arpReplyFrame_bytes s.cfg hF
  have hlength : out.length = 42 := by rw [← hout, replyFrame_length, arpReplyMessage_length]
  refine ⟨fun hours => ?_, fun hown hnot => ?_⟩
  · have hanswer : ¬ (s.cfg.arpOwnIpOnly ∧ (arpOf (rxPayload s)).tip ≠ s.cfg.devIp) := by
      rintro ⟨hown, htip⟩
      rcases hours with hany | hus
      · rw [hany] at hown
        cases hown
      · exact htip (hforUs.2 hus)
    rw [exec_arpRequest h42, if_neg hanswer, hout]
    exact ⟨hlength, fun ha => transmit_of_accepts hrunning out .arpReplySent (by rw [hlength, ha]),
      fun ha => transmit_of_refuses out .arpReplySent (by rw [hlength, ha])⟩
  · rw [exec_arpRequest h42, if_pos ⟨hown, fun htip => hnot (hforUs.1 htip)⟩]
    exact drop_of_running hrunning .arpRequestNotOwnIp

/-! ## The turnaround's frame (R199) -/

/-- A turnaround on a running block hands over its frame, as long as the received datagram: the channel accepts it, or the block
halts. -/
theorem sendOutgoing_answers {s : State} {d : Datagram} {Q : Bytes} (r : Reason) (hrunning : s.halted = false)
    (hd : datagramOperand s = .ok d) (hQ : Q.length = d.payload.length) :
    let F := rxFrame s
    let out := (F.drop 6).take 6 ++ u48 s.cfg.devMac ++ (F.drop 12).take 2 ++ turnaroundHeader d ++ Q
    out.length = 14 + d.ip.totlen.toNat
      ∧ (s.channel.accepts out.length = true →
          sendOutgoing d Q r s = .next (afterReply out (statusWord false r) true s))
      ∧ (s.channel.accepts out.length = false → sendOutgoing d Q r s = .next (afterReply out 0xD460#16 false s)) := by
  intro F out
  obtain ⟨hminimum, htotal⟩ := datagramOperand_payload_length hd
  obtain ⟨hF, hdF⟩ := datagramOperand_inv hd
  have hout : replyFrame s.cfg d.eth (turnaroundHeader d ++ Q) = out := by
    have heth : d.eth = ethOf F := congrArg Datagram.eth hdF
    rw [heth, replyFrame_ethOf s.cfg hF.1, ← List.append_assoc]
  have hsend : sendOutgoing d Q r s = transmit out r s := by rw [sendOutgoing, hout]
  refine ⟨?_, fun ha => ?_, fun ha => ?_⟩
  · rw [← hout, replyFrame_length, List.length_append, turnaroundHeader_length d hminimum, hQ, htotal]
  · rw [hsend, transmit_of_accepts hrunning out r ha]
  · rw [hsend, transmit_of_refuses out r ha]

/-- Settles O36: a message with identifier and sequence passes the row's length check, and the reply is as long as it. -/
theorem icmpEchoRequestIsAnswered : Obligations.IcmpEchoRequestIsAnswered := by
  intro s d hrunning hd hlength
  rw [exec_icmpEchoRequest hd, if_neg hlength.not_gt]
  exact sendOutgoing_answers .icmpEchoReplySent hrunning hd (echoReply_length _ (by omega))

/-! ## The segments of the TCP builder (R243, R245) -/

section
variable {src dst : Word} {p : Byte} {T : Bytes} (h : 18 ≤ T.length)
include h

theorem readU16_constructTcpChecksum_other {off : Nat} (hoff : off + 2 ≤ 16) :
    readU16 (constructTcpChecksum src dst p T) off = readU16 T off :=
  readU16_congr (constructTcpChecksum_length _ _ _ _ h) fun _ _ hi => byteAt_constructTcpChecksum_other h (by omega)

theorem readU32_constructTcpChecksum_other {off : Nat} (hoff : off + 4 ≤ 16) :
    readU32 (constructTcpChecksum src dst p T) off = readU32 T off :=
  readU32_congr (constructTcpChecksum_length _ _ _ _ h) fun _ _ hi => byteAt_constructTcpChecksum_other h (by omega)

end

section
variable {T : Bytes} (h : 20 ≤ T.length) (tcp : TcpView)
include h

theorem firstPortWrite_length : (writeU16 T 0 tcp.dport).length = T.length := writeU16_length _ _ _ (by omega)

theorem readU16_swapPorts_first : readU16 (swapPorts tcp T) 0 = .ok tcp.dport := by
  have hfirst := firstPortWrite_length h tcp
  rw [swapPorts, readU16_congr (writeU16_length (writeU16 T 0 tcp.dport) 2 tcp.sport (by omega))
    fun i _ hi => byteAt_writeU16_other _ _ _ _ (by omega) (.inl hi), readU16_writeU16_same _ (by omega)]

theorem readU16_swapPorts_second : readU16 (swapPorts tcp T) 2 = .ok tcp.sport := by
  have hfirst := firstPortWrite_length h tcp
  rw [swapPorts, readU16_writeU16_same _ (by omega)]

theorem byteAt_swapPorts_other {i : Nat} (hi : 4 ≤ i) : byteAt (swapPorts tcp T) i = byteAt T i := by
  have hfirst := firstPortWrite_length h tcp
  rw [swapPorts, byteAt_writeU16_other _ _ _ _ (by omega) (.inr hi), byteAt_writeU16_other _ _ _ _ (by omega) (by omega)]

/-- The ports trade places among the words of the sum. -/
theorem sum16_swapPorts : sum16 (swapPorts (tcpOf T) T) = sum16 T := by
  have hfirst := firstPortWrite_length h (tcpOf T)
  have hsum := sum16_writeU16 T 0 (tcpOf T).dport rfl (by omega)
  have hsum' := sum16_writeU16 (writeU16 T 0 (tcpOf T).dport) 2 (tcpOf T).sport rfl (by omega)
  rw [byteAt_writeU16_other _ _ _ _ (by omega) (.inr (by omega)),
    byteAt_writeU16_other _ _ _ _ (by omega) (.inr (by omega))] at hsum'
  have hsport : be16 (byteAt T 0) (byteAt T (0 + 1)) = (tcpOf T).sport := rfl
  have hdport : be16 (byteAt T 2) (byteAt T (2 + 1)) = (tcpOf T).dport := rfl
  rw [hsport] at hsum
  rw [hdport] at hsum'
  rw [swapPorts]
  omega

end

/-- The SYN/ACK segment before its checksum is constructed: the ports swapped, and the sequence number, the acknowledgement and
the flags written (R243). -/
def synAckFields (c : Config) (tcp : TcpView) (flags : Byte) (T : Bytes) : Bytes :=
  splice (writeU32 (writeU32 (swapPorts tcp T) 4 c.tcpIsn) 8 (tcp.seq + 1#32)) 13 (u8 (flags ||| ackBit))

theorem synAckSegment_eq (c : Config) (d : Datagram) (tcp : TcpView) (flags : Byte) :
    synAckSegment c d tcp flags
      = constructTcpChecksum d.ip.daddr d.ip.saddr d.ip.proto (synAckFields c tcp flags d.payload) := rfl

theorem echoSegment_eq (d : Datagram) (tcp : TcpView) :
    echoSegment d tcp = constructTcpChecksum d.ip.daddr d.ip.saddr d.ip.proto (swapPorts tcp d.payload) := rfl

section
variable {T : Bytes} (h : 20 ≤ T.length) (c : Config) (tcp : TcpView) (flags : Byte)
include h

theorem isnWrite_length : (writeU32 (swapPorts tcp T) 4 c.tcpIsn).length = T.length := by
  have hswap := swapPorts_length tcp T (by omega)
  rw [writeU32_length _ _ _ (by omega), hswap]

theorem ackWrite_length : (writeU32 (writeU32 (swapPorts tcp T) 4 c.tcpIsn) 8 (tcp.seq + 1#32)).length = T.length := by
  have hisn := isnWrite_length h c tcp
  rw [writeU32_length _ _ _ (by omega), hisn]

theorem synAckFields_length : (synAckFields c tcp flags T).length = T.length := by
  have hack := ackWrite_length h c tcp
  rw [synAckFields, splice_length _ _ _ (by rw [u8_length]; omega), hack]

/-- The writes after the swap of the ports leave every byte but the two numbers' and the flags' alone. -/
theorem byteAt_synAckFields_other {i : Nat} (hi : i < 4 ∨ 12 ≤ i) (hflags : i ≠ 13) :
    byteAt (synAckFields c tcp flags T) i = byteAt (swapPorts tcp T) i := by
  have hswap := swapPorts_length tcp T (by omega)
  have hisn := isnWrite_length h c tcp
  have hack := ackWrite_length h c tcp
  rw [synAckFields, byteAt_splice _ _ _ _ (by rw [u8_length]; omega), u8_length, if_neg (by omega),
    byteAt_writeU32_other _ _ _ _ (by omega) (by omega), byteAt_writeU32_other _ _ _ _ (by omega) (by omega)]

theorem byteAt_synAckFields_flags : byteAt (synAckFields c tcp flags T) 13 = flags ||| ackBit := by
  have hack := ackWrite_length h c tcp
  rw [synAckFields, byteAt_splice _ _ _ _ (by rw [u8_length]; omega), u8_length, if_pos (by omega)]
  rfl

theorem readU32_synAckFields_ack : readU32 (synAckFields c tcp flags T) 8 = .ok (tcp.seq + 1#32) := by
  have hisn := isnWrite_length h c tcp
  have hack := ackWrite_length h c tcp
  rw [readU32_congr ((synAckFields_length h c tcp flags).trans hack.symm) fun i _ hi => ?_,
    readU32_writeU32_same _ (by omega)]
  rw [synAckFields, byteAt_splice _ _ _ _ (by rw [u8_length]; omega), u8_length, if_neg (by omega)]

theorem readU32_synAckFields_seq : readU32 (synAckFields c tcp flags T) 4 = .ok c.tcpIsn := by
  have hswap := swapPorts_length tcp T (by omega)
  have hisn := isnWrite_length h c tcp
  have hack := ackWrite_length h c tcp
  rw [readU32_congr ((synAckFields_length h c tcp flags).trans hisn.symm) fun i _ hi => ?_,
    readU32_writeU32_same _ (by omega)]
  rw [synAckFields, byteAt_splice _ _ _ _ (by rw [u8_length]; omega), u8_length, if_neg (by omega),
    byteAt_writeU32_other _ _ _ _ (by omega) (by omega)]

end

/-- The acknowledged number is the received one plus 1 modulo 2^32. -/
theorem seq_succ_eq_ofNat (v : Word) : v + 1#32 = BitVec.ofNat 32 ((v.toNat + 1) % 2 ^ 32) := by
  apply BitVec.eq_of_toNat_eq
  simp

/-- Settles O39: each field of the segment is read from the write that set it, which the later ones leave alone. -/
theorem tcpSynIsAnswered : Obligations.TcpSynIsAnswered := by
  intro s f d tcp hrunning hop
  obtain ⟨hF, h20, hviews⟩ := tcpOperand_inv hop
  obtain ⟨rfl, rfl⟩ := Prod.mk.inj hviews
  have hd := datagramOperand_ok hF
  generalize datagramOf (rxFrame s) = d at *
  have hfields := synAckFields_length h20 s.cfg (tcpOf d.payload) f
  have hswap := swapPorts_length (tcpOf d.payload) d.payload (by omega)
  have h18 : 18 ≤ (synAckFields s.cfg (tcpOf d.payload) f d.payload).length := by omega
  have hlength := synAckSegment_length s.cfg d (tcpOf d.payload) f h20
  have hport {off : Nat} (hoff : off + 2 ≤ 4) : readU16 (synAckSegment s.cfg d (tcpOf d.payload) f) off
      = readU16 (swapPorts (tcpOf d.payload) d.payload) off := by
    rw [synAckSegment_eq, readU16_constructTcpChecksum_other h18 (by omega),
      readU16_congr (hfields.trans hswap.symm) fun i _ hi => byteAt_synAckFields_other h20 _ _ _ (by omega) (by omega)]
  have hanswers := sendOutgoing_answers .tcpReplySent hrunning hd hlength
  rw [← exec_tcpSyn_eq hd h20 f] at hanswers
  refine ⟨synAckSegment s.cfg d (tcpOf d.payload) f, hlength, ?_, ?_, ?_, ?_, ?_, fun i hi => ?_, ?_, ?_, hanswers⟩
  · rw [hport (by omega), readU16_swapPorts_first h20]
  · rw [hport (by omega), readU16_swapPorts_second h20]
  · rw [synAckSegment_eq, readU32_constructTcpChecksum_other h18 (by omega), readU32_synAckFields_seq h20]
  · rw [synAckSegment_eq, readU32_constructTcpChecksum_other h18 (by omega), readU32_synAckFields_ack h20,
      seq_succ_eq_ofNat]
  · rw [readU8_ok (by omega), synAckSegment_eq, byteAt_constructTcpChecksum_other h18 (.inl (by omega)),
      byteAt_synAckFields_flags h20]
    rfl
  · rw [synAckSegment_eq, byteAt_constructTcpChecksum_other h18 (by omega),
      byteAt_synAckFields_other h20 _ _ _ (by omega) (by omega), byteAt_swapPorts_other h20 _ (by omega)]
  · rw [synAckSegment_eq, tcpChecksum_constructTcpChecksum h18]
  · rw [synAckSegment_eq, zeroed_constructTcpChecksum h18, readU16_constructTcpChecksum h18]

/-- Settles O40: the policy decides between the drop and the echo, whose segment differs in the ports and the checksum only. -/
theorem tcpNonsynIsEchoedOrDropped : Obligations.TcpNonsynIsEchoedOrDropped := by
  refine ⟨fun s f hrunning hdrop => ?_, fun s f d tcp hrunning hecho hop => ?_⟩
  · rw [exec_tcpNonsyn_drop f hdrop, drop_of_running hrunning]
    rfl
  obtain ⟨hF, h20, hviews⟩ := tcpOperand_inv hop
  obtain ⟨rfl, rfl⟩ := Prod.mk.inj hviews
  have hd := datagramOperand_ok hF
  generalize datagramOf (rxFrame s) = d at *
  have hswap := swapPorts_length (tcpOf d.payload) d.payload (by omega)
  have h18 : 18 ≤ (swapPorts (tcpOf d.payload) d.payload).length := by omega
  have hlength := echoSegment_length d (tcpOf d.payload) h20
  have hanswers := sendOutgoing_answers .tcpReplySent hrunning hd hlength
  rw [← exec_tcpNonsyn_echo hd h20 f hecho] at hanswers
  refine ⟨echoSegment d (tcpOf d.payload), hlength, ?_, ?_, fun i hi => ?_, ?_, ?_, hanswers⟩
  · rw [echoSegment_eq, readU16_constructTcpChecksum_other h18 (by omega), readU16_swapPorts_first h20]
  · rw [echoSegment_eq, readU16_constructTcpChecksum_other h18 (by omega), readU16_swapPorts_second h20]
  · rw [echoSegment_eq, byteAt_constructTcpChecksum_other h18 (by omega), byteAt_swapPorts_other h20 _ (by omega)]
  · rw [echoSegment_eq, tcpChecksum_constructTcpChecksum h18]
  · rw [echoSegment_eq, zeroed_constructTcpChecksum h18, readU16_constructTcpChecksum h18]

/-! ## The checksum of an echo (R244, R245) -/

theorem tcpChecksum_comm (a b : Word) (p : Byte) (T : Bytes) : tcpChecksum a b p T = tcpChecksum b a p T := by
  apply BitVec.eq_of_toNat_eq
  rw [tcpChecksum_toNat, tcpChecksum_toNat, pseudoSum_comm]

/-- The complement of the folded sum over a zeroed field, in a region whose whole sum is a positive multiple of 65535, is the
field, except that of the two zeros 0x0000 may be answered for 0xFFFF. -/
theorem complement_fold_field {sum : Nat} {v : Half} (hpos : 0 < sum + v.toNat) (hmod : (sum + v.toNat) % 65535 = 0) :
    65535 - fold sum = v.toNat ∨ (v = 0xFFFF#16 ∧ 65535 - fold sum = 0) := by
  have hv := v.isLt
  have hones : v = 0xFFFF#16 ↔ v.toNat = 65535 := BitVec.toNat_inj.symm
  rw [fold_eq, hones]
  split_ifs <;> omega

/-- Settles O41: the addresses and the ports only trade places in the sum, so the construction finds the received checksum. -/
theorem tcpChecksumIgnoresAddressOrder : Obligations.TcpChecksumIgnoresAddressOrder := by
  refine ⟨tcpChecksum_comm, fun s d tcp hop hvalid => ?_⟩
  obtain ⟨-, h20, hviews⟩ := tcpOperand_inv hop
  obtain ⟨rfl, rfl⟩ := Prod.mk.inj hviews
  generalize datagramOf (rxFrame s) = d at *
  have hswap := swapPorts_length (tcpOf d.payload) d.payload (by omega)
  have h18 : 16 + 2 ≤ (swapPorts (tcpOf d.payload) d.payload).length := by omega
  have hsum := sum16_writeU16 (swapPorts (tcpOf d.payload) d.payload) 16 0#16 rfl h18
  rw [byteAt_swapPorts_other h20 _ (by omega), byteAt_swapPorts_other h20 _ (by omega), sum16_swapPorts h20] at hsum
  have hcsum : be16 (byteAt d.payload 16) (byteAt d.payload (16 + 1)) = (tcpOf d.payload).csum := rfl
  rw [hcsum, BitVec.toNat_ofNat, Nat.zero_mod, Nat.add_zero] at hsum
  obtain ⟨hpos, hmod⟩ := (tcpChecksum_eq_zero_iff _ _ _ _).1 hvalid
  rw [pseudoSum_comm, ← hsum, ← Nat.add_assoc] at hpos hmod
  have hnew := tcpChecksum_toNat d.ip.daddr d.ip.saddr d.ip.proto
    (writeU16 (swapPorts (tcpOf d.payload) d.payload) 16 0#16)
  rw [zeroedChecksum_length h18, hswap] at hnew
  rw [echoSegment_eq, readU16_constructTcpChecksum h18]
  refine (complement_fold_field hpos hmod).imp (fun hsame => ?_) (fun ⟨hones, hzero⟩ => ⟨hones, ?_⟩)
  · rw [BitVec.eq_of_toNat_eq (hnew.trans hsame)]
  · rw [BitVec.eq_of_toNat_eq (y := 0#16) (hnew.trans hzero)]

/-! ## No connection state (R247) -/

/-- The operand of a TCP row is read from the received frame alone. -/
theorem tcpOperand_congr {s s' : State} (h : rxFrame s = rxFrame s') : tcpOperand s = tcpOperand s' := by
  rw [tcpOperand, tcpOperand, datagramOperand, datagramOperand, ethOperand, ethOperand, h]

/-- From two states the same is seen of a row: the `STATUS` it ends with and the frames it transmits. -/
def SeenAlike (s s' t t' : State) : Prop :=
  t.status = t'.status ∧ ∃ new : List Sent, t.sent = s.sent ++ new ∧ t'.sent = s'.sent ++ new

theorem drop_seenAlike {s s' t t' : State} (hhalted : s.halted = s'.halted) {r : Reason} (h : drop r s = .next t)
    (h' : drop r s' = .next t') : SeenAlike s s' t t' := by
  cases h
  cases h'
  exact ⟨congrArg (statusWord · r) hhalted, [], (List.append_nil _).symm, (List.append_nil _).symm⟩

theorem transmit_seenAlike {s s' t t' : State} (hchannel : s.channel = s'.channel) (hhalted : s.halted = s'.halted)
    {out : Bytes} {r : Reason} (h : transmit out r s = .next t) (h' : transmit out r s' = .next t') :
    SeenAlike s s' t t' := by
  refine ⟨?_, _, transmit_sent h, by rw [transmit_sent h', hchannel]⟩
  rw [transmit] at h h'
  rw [← hchannel] at h'
  split_ifs at h h' <;> cases h <;> cases h'
  · exact congrArg (statusWord · r) hhalted
  · rfl

theorem sendOutgoing_seenAlike {s s' t t' : State} (hcfg : s.cfg = s'.cfg) (hchannel : s.channel = s'.channel)
    (hhalted : s.halted = s'.halted) {d : Datagram} {Q : Bytes} {r : Reason} (h : sendOutgoing d Q r s = .next t)
    (h' : sendOutgoing d Q r s' = .next t') : SeenAlike s s' t t' := by
  rw [sendOutgoing, ← hcfg] at h'
  exact transmit_seenAlike hchannel hhalted h h'

/-- Settles O42: both rows are a function of the operand and the configuration, and end with a drop or one transmission. -/
theorem tcpRepliesKeepNoConnectionState : Obligations.TcpRepliesKeepNoConnectionState := by
  intro s s' t t' f i hi hcfg hframe hchannel hhalted h h'
  have hop := tcpOperand_congr hframe
  rcases hi with rfl | rfl
  · obtain ⟨⟨d, tcp⟩, hx, hk⟩ := orFault_next h
    obtain ⟨⟨d', tcp'⟩, hx', hk'⟩ := orFault_next h'
    rw [← hop, hx, Except.ok.injEq] at hx'
    obtain ⟨rfl, rfl⟩ := Prod.mk.inj hx'
    rw [← hcfg] at hk'
    exact sendOutgoing_seenAlike hcfg hchannel hhalted hk hk'
  · cases hpolicy : s.cfg.tcpNonSyn with
    | drop =>
      rw [exec_tcpNonsyn_drop f hpolicy] at h
      rw [exec_tcpNonsyn_drop f (hcfg ▸ hpolicy)] at h'
      exact drop_seenAlike hhalted h h'
    | echo =>
      rw [exec, execTcpNonsyn, hpolicy] at h
      rw [exec, execTcpNonsyn, ← hcfg, hpolicy] at h'
      obtain ⟨⟨d, tcp⟩, hx, hk⟩ := orFault_next h
      obtain ⟨⟨d', tcp'⟩, hx', hk'⟩ := orFault_next h'
      rw [← hop, hx, Except.ok.injEq] at hx'
      obtain ⟨rfl, rfl⟩ := Prod.mk.inj hx'
      exact sendOutgoing_seenAlike hcfg hchannel hhalted hk hk'

end Sys2Proof.Proofs
end

section
/-! The learn (42_arp.md R165 to R169): what it answers in each case, and what a lookup finds after it. -/

namespace Sys2Proof.Proofs
open Sys2Proof.Machine Sys2Proof.Laws

/-! ## What the learn answers -/

theorem learn_of_hit {s : State} {arp : ArpView} {i : Nat} {e : Entry} (hl : lookup s.cache arp.sip = some i)
    (he : s.cache[i]? = some e) :
    learn arp s = if e.hwtype = arp.hwtype then .ok { s with cache := s.cache.set i { e with mac := arp.smac } }
      else .error .arpCacheConflict := by
  have hentry : s.cache.getD i Entry.empty = e := by rw [List.getD_eq_getElem?_getD, he, Option.getD_some]
  simp only [learn, hl, hentry]

theorem learn_of_miss {s : State} {arp : ArpView} (hl : lookup s.cache arp.sip = none) :
    learn arp s = insertEntry arp.sip arp.hwtype arp.smac s := by
  simp only [learn, hl]

section
variable {s : State} (ip : Word) (hwtype : Half) (mac : Mac)

theorem insertEntry_inf (hcap : s.cfg.arpCapacity = none) :
    insertEntry ip hwtype mac s = .ok { s with cache := s.cache ++ [Entry.learned ip hwtype mac],
                                               cacheCount := countUp s.cacheCount } := by
  simp only [insertEntry, hcap]

theorem insertEntry_free {n j : Nat} (hcap : s.cfg.arpCapacity = some n) (hj : freeIndex s.cache = some j) :
    insertEntry ip hwtype mac s = .ok { s with cache := s.cache.set j (Entry.learned ip hwtype mac),
                                               cacheCount := countUp s.cacheCount } := by
  simp only [insertEntry, hcap, hj]

theorem insertEntry_full {n : Nat} (hcap : s.cfg.arpCapacity = some n) (hfull : freeIndex s.cache = none) :
    insertEntry ip hwtype mac s = .error .arpCacheFull := by
  simp only [insertEntry, hcap, hfull]

end

theorem freeIndex_eq_some {cache : List Entry} {j : Nat} {e : Entry} (he : cache[j]? = some e) (hfree : e.state = .free)
    (hlow : ∀ k e', k < j → cache[k]? = some e' → e'.state ≠ .free) : freeIndex cache = some j := by
  obtain ⟨hj, rfl⟩ := List.getElem?_eq_some_iff.1 he
  refine List.findIdx?_eq_some_iff_getElem.2 ⟨hj, decide_eq_true hfree, fun k hk => ?_⟩
  rw [decide_eq_true_iff]
  exact hlow k _ hk (List.getElem?_eq_getElem (hk.trans hj))

theorem freeIndex_eq_none {cache : List Entry} (h : ∀ e ∈ cache, e.state ≠ .free) : freeIndex cache = none :=
  List.findIdx?_eq_none_iff.2 fun e he => decide_eq_false (h e he)

/-- Settles O28: a known sender merges or conflicts, an unknown one takes a new place, the lowest Free one, or none. -/
theorem learnMergesInsertsOrRejects : Obligations.LearnMergesInsertsOrRejects := by
  intro s arp
  refine ⟨fun i e hl he => ⟨fun hw => ?_, fun hw => ?_⟩, fun hl => ⟨countUp s.cacheCount, countUp_toNat _, fun hcap => ?_,
    fun c j hcap hfree hlow => ?_, fun c hcap hfull => ?_⟩⟩
  · rw [learn_of_hit hl he, if_pos hw]
  · rw [learn_of_hit hl he, if_neg hw]
  · rw [learn_of_miss hl, insertEntry_inf _ _ _ hcap]
    rfl
  · obtain ⟨e, he, hfree⟩ := hfree
    rw [learn_of_miss hl, insertEntry_free _ _ _ hcap (freeIndex_eq_some he hfree hlow)]
    rfl
  · rw [learn_of_miss hl, insertEntry_full _ _ _ hcap (freeIndex_eq_none hfull)]

/-! ## What a lookup finds after the learn -/

theorem answers_eq_false {ip : Word} {e : Entry} (h : e.state ≠ .free → e.ip ≠ ip) : e.answers ip = false := by
  rw [Entry.answers, Bool.and_eq_false_imp, decide_eq_true_iff, decide_eq_false_iff_not]
  exact h

theorem learned_answers (ip : Word) (hwtype : Half) (mac : Mac) : (Entry.learned ip hwtype mac).answers ip = true :=
  Bool.and_eq_true_iff.2 ⟨rfl, decide_eq_true rfl⟩

theorem learned_not_answers {ip key : Word} (h : key ≠ ip) (hwtype : Half) (mac : Mac) :
    (Entry.learned ip hwtype mac).answers key = false :=
  answers_eq_false fun _ => h.symm

/-- The lookup sees of the entries only whether each answers the key. -/
theorem lookup_set_of_answers_eq {cache : List Entry} {ip : Word} {i : Nat} {e new : Entry} (he : cache[i]? = some e)
    (h : new.answers ip = e.answers ip) : lookup (cache.set i new) ip = lookup cache ip := by
  obtain ⟨hi, rfl⟩ := List.getElem?_eq_some_iff.1 he
  have hmap : (cache.set i new).map (Entry.answers ip) = cache.map (Entry.answers ip) := by
    rw [List.map_set, h]
    exact (congrArg _ (List.getElem_map (Entry.answers ip)).symm).trans (List.set_getElem_self (by rwa [List.length_map]))
  have hlookup (c : List Entry) : lookup c ip = (c.map (Entry.answers ip)).findIdx? id := by
    rw [List.findIdx?_map]
    rfl
  rw [hlookup, hmap, ← hlookup]

/-- The entry a lookup answers, if any. -/
def foundEntry (cache : List Entry) (ip : Word) : Option (Option Entry) := (lookup cache ip).map fun i => cache[i]?

/-- Overwriting an entry that does not answer a key with one that does not either changes nothing for that key. -/
theorem foundEntry_set_of_not_answers {cache : List Entry} {ip : Word} {i : Nat} {e new : Entry} (he : cache[i]? = some e)
    (hold : e.answers ip = false) (hnew : new.answers ip = false) : foundEntry (cache.set i new) ip = foundEntry cache ip := by
  rw [foundEntry, foundEntry, lookup_set_of_answers_eq he (hnew.trans hold.symm)]
  cases hl : lookup cache ip with
  | none => rfl
  | some k =>
    obtain ⟨e', he', hfree', hip'⟩ := lookup_some_getElem? hl
    have hne : i ≠ k := by
      rintro rfl
      obtain rfl : e = e' := Option.some.inj (he.symm.trans he')
      rw [Entry.answers, decide_eq_true hfree', decide_eq_true hip'] at hold
      cases hold
    rw [Option.map_some, Option.map_some, List.getElem?_set_ne hne]

theorem foundEntry_append_of_not_answers {cache : List Entry} {ip : Word} {new : Entry} (hnew : new.answers ip = false) :
    foundEntry (cache ++ [new]) ip = foundEntry cache ip := by
  have hlookup : lookup (cache ++ [new]) ip = lookup cache ip := by
    rw [lookup, List.findIdx?_append, List.findIdx?_singleton, hnew]
    exact Option.or_none
  rw [foundEntry, foundEntry, hlookup]
  cases hl : lookup cache ip with
  | none => rfl
  | some k => rw [Option.map_some, Option.map_some, List.getElem?_append_left (lookup_some hl).1]

/-- Where no entry answers a key, the entry that is written with it is the one found. -/
theorem lookup_set_of_none {cache : List Entry} {ip : Word} {j : Nat} {new : Entry} (hn : lookup cache ip = none)
    (hj : j < cache.length) (hnew : new.answers ip = true) : lookup (cache.set j new) ip = some j := by
  refine List.findIdx?_eq_some_iff_getElem.2 ⟨by rwa [List.length_set], by rwa [List.getElem_set_self], fun k hk => ?_⟩
  rw [List.getElem_set_ne hk.ne', answers_eq_false (lookup_none hn _ (List.getElem_mem _))]
  decide

theorem lookup_append_of_none {cache : List Entry} {ip : Word} {new : Entry} (hn : lookup cache ip = none)
    (hnew : new.answers ip = true) : lookup (cache ++ [new]) ip = some cache.length := by
  rw [lookup] at hn
  rw [lookup, List.findIdx?_append, hn, List.findIdx?_singleton, hnew]
  exact congrArg some (Nat.zero_add _)

/-- Settles O29: in each of the learn's three cases the written entry is the sender's, and the one it replaces, if any, answers
no other key. -/
theorem learnedSenderIsFoundAndOthersStay : Obligations.LearnedSenderIsFoundAndOthersStay := by
  intro s l arp h
  rcases learn_ok h with ⟨i, hi, hw, rfl⟩ | ⟨hn, -, rfl⟩ | ⟨n, j, hn, -, hj, rfl⟩
  · obtain ⟨e, he, hfree, hip⟩ := lookup_some_getElem? hi
    obtain ⟨hlt, -⟩ := List.getElem?_eq_some_iff.1 he
    rw [List.getD_eq_getElem?_getD, he, Option.getD_some] at hw ⊢
    refine ⟨⟨i, _, ?_, List.getElem?_set_self hlt, hw, rfl⟩, fun ip hne => ?_⟩
    · rw [← hi]
      exact lookup_set_of_answers_eq he rfl
    · have hother : e.answers ip = false := answers_eq_false fun _ => hip ▸ hne.symm
      exact foundEntry_set_of_not_answers he hother hother
  · refine ⟨⟨_, _, lookup_append_of_none hn (learned_answers _ _ _), List.getElem?_concat_length, rfl, rfl⟩, fun ip hne => ?_⟩
    exact foundEntry_append_of_not_answers (learned_not_answers hne _ _)
  · obtain ⟨hlt, -⟩ := List.findIdx?_eq_some_iff_getElem.1 hj
    have he := List.getElem?_eq_getElem hlt
    refine ⟨⟨j, _, lookup_set_of_none hn hlt (learned_answers _ _ _), List.getElem?_set_self hlt, rfl, rfl⟩, fun ip hne => ?_⟩
    exact foundEntry_set_of_not_answers he (answers_eq_false fun hused => absurd (freeIndex_some hj he) hused)
      (learned_not_answers hne _ _)

end Sys2Proof.Proofs
end

section
/-! The host port (20_memory.md R59; 30_encoding.md R90, R104 to R106; 70_reset_and_hazards.md R338): what each access answers, from
which the statements about the host's steps follow by taking the action from the queue. -/

namespace Sys2Proof.Proofs
open Sys2Proof.Machine Sys2Proof.Laws

/-! ## The register map (R104) -/

theorem regAt_regOffset (r : Reg) : regAt (regOffset r) = some r := by cases r <;> rfl

/-- No register stands at an offset that is none of the registers'. -/
theorem regAt_eq_none {off : Nat} (h : ∀ r, regOffset r ≠ off) : regAt off = none :=
  List.find?_eq_none.2 fun r _ => by
    rw [decide_eq_true_iff]
    exact h r

/-- Settles O56: the offsets are the thirteen registers', and each register reads as its field, widened. -/
theorem registerMap : Obligations.RegisterMap := by
  intro s
  have hwide {n : Nat} (v : BitVec n) (hn : n ≤ 32) : (v.setWidth 32).toNat = v.toNat := BitVec.toNat_setWidth_of_le hn
  refine ⟨regAt_regOffset, rfl, fun off _ hoff => regAt_eq_none fun r hr => hoff ?_, rfl, hwide s.status (by decide),
    hwide s.rxLen (by decide), hwide s.txLen (by decide), rfl, rfl, hwide s.lkMacHi (by decide), rfl,
    hwide s.csumResult (by decide), rfl, rfl, ?_⟩
  · rw [← hr]
    cases r <;> decide
  · have hhigh : (readReg s .devMacHi).toNat = (s.cfg.devMac.extractLsb' 32 16).toNat := hwide _ (by decide)
    rw [hhigh]
    exact mac_hi_lo_toNat s.cfg.devMac

/-! ## Accesses of the register range (R59) -/

section
variable {off : Nat} (h : off < 0x10000) (s : State)
include h

section
variable (ha : off % 4 = 0)
include ha

theorem hostRead_register (r : Option Reg) (hr : regAt off = r) :
    hostRead off .word s = .next { s with rdata := r.elim 0#32 (readReg s) } := by
  rw [hostRead, target_register s h, hr]
  cases r <;> exact if_pos ⟨rfl, ha⟩

theorem hostWrite_unmapped (v : Word) (hr : regAt off = none) : hostWrite off .word v s = .next s := by
  rw [hostWrite, target_register s h, hr]
  exact if_pos ⟨rfl, ha⟩

theorem hostWrite_register (v : Word) {r : Reg} (hr : regAt off = some r) : hostWrite off .word v s = writeReg r v s := by
  rw [hostWrite, target_register s h, hr]
  exact if_pos ⟨rfl, ha⟩

end

variable {size : AccessSize} (hbad : size ≠ .word ∨ off % 4 ≠ 0)
include hbad

theorem hostRead_misaligned : hostRead off size s = .refused (.registerAccess off size) := by
  rw [hostRead, target_register s h]
  exact if_neg (not_and_or.2 hbad)

theorem hostWrite_misaligned (v : Word) : hostWrite off size v s = .refused (.registerAccess off size) := by
  rw [hostWrite, target_register s h]
  exact if_neg (not_and_or.2 hbad)

end

/-- A write of a register other than `CMD`, `RX_LEN` and `ARG_IP` has no effect. -/
theorem writeReg_readOnly {r : Reg} (hcmd : r ≠ .cmd) (hrx : r ≠ .rxLen) (harg : r ≠ .argIp) (v : Word) (s : State) :
    writeReg r v s = .next s := by
  cases r
  case cmd => exact absurd rfl hcmd
  case rxLen => exact absurd rfl hrx
  case argIp => exact absurd rfl harg
  all_goals rfl

theorem regOffset_lt (r : Reg) : regOffset r < 0x10000 := by cases r <;> decide

theorem regOffset_aligned (r : Reg) : regOffset r % 4 = 0 := by cases r <;> rfl

/-- A word write at a register's offset is a write of the register. -/
theorem hostWrite_regOffset (r : Reg) (v : Word) (s : State) : hostWrite (regOffset r) .word v s = writeReg r v s :=
  hostWrite_register (regOffset_lt r) s (regOffset_aligned r) v (regAt_regOffset r)

/-! ## Accesses of the buffers (R36, R37, R59) -/

section
variable (s : State) {k : Nat} (hk : k < s.cfg.maxFrame)
include hk

theorem hostRead_rx : hostRead (0x10000 + k) .byte s = deliverByte 0x10000 (0x10000 + k) s.rxLen s := by
  rw [hostRead, target_rx s hk]
  rfl

theorem hostWrite_rx (v : Word) :
    hostWrite (0x10000 + k) .byte v s
      = unlessBusy (0x10000 + k) s (.next { s with mem := memSet s.mem (0x10000 + k) (v.setWidth 8) }) := by
  rw [hostWrite, target_rx s hk]
  rfl

variable (hm : s.cfg.maxFrame ≤ 0xFFFF)
include hm

theorem hostRead_tx : hostRead (0x20000 + k) .byte s = deliverByte 0x20000 (0x20000 + k) s.txLen s := by
  rw [hostRead, target_tx s hk hm]
  rfl

theorem hostWrite_tx (v : Word) : hostWrite (0x20000 + k) .byte v s = .next s := by
  rw [hostWrite, target_tx s hk hm]
  rfl

variable {base : Nat} (hbase : base = 0x10000 ∨ base = 0x20000) {size : AccessSize} (hbad : size ≠ .byte)
include hbase hbad

theorem hostRead_wideBuffer : hostRead (base + k) size s = .refused (.bufferAccess (base + k) size) := by
  rcases hbase with rfl | rfl
  · rw [hostRead, target_rx s hk]
    exact if_neg hbad
  · rw [hostRead, target_tx s hk hm]
    exact if_neg hbad

theorem hostWrite_wideBuffer (v : Word) : hostWrite (base + k) size v s = .refused (.bufferAccess (base + k) size) := by
  rcases hbase with rfl | rfl
  · rw [hostWrite, target_rx s hk]
    exact if_neg hbad
  · rw [hostWrite, target_tx s hk hm]
    exact if_neg hbad

end

/-! ## The steps -/

section
variable {s : State} {rest : List HostAction}

theorem step_of_read {off : Nat} {size : AccessSize} (h : s.host = .read off size :: rest) :
    step s = hostRead off size { s with host := rest } := step_of_host_cons h

theorem step_of_write {off : Nat} {size : AccessSize} {v : Word} (h : s.host = .write off size v :: rest) :
    step s = hostWrite off size v { s with host := rest } := step_of_host_cons h

theorem step_of_wrbuf {off : Nat} {B : Bytes} (h : s.host = .wrbuf off B :: rest) :
    step s = hostWriteBuffer off B { s with host := rest } := step_of_host_cons h

/-- A write at a register's offset, as a step. -/
theorem step_of_wrLine {r : Reg} {v : Word} (h : s.host = wrLine r v :: rest) :
    step s = writeReg r v { s with host := rest } :=
  (step_of_write h).trans (hostWrite_regOffset r v _)

end

/-- Settles O8: `CMD` stands at offset 0, and an idle engine runs what its value decodes to. -/
theorem stepRunsTheDecodedCommand : Obligations.StepRunsTheDecodedCommand := by
  intro s v rest i hhost hidle hdecode
  have hrow := decode_command_u32 v []
  rw [List.append_nil, hdecode, Except.ok.injEq, Prod.mk.injEq] at hrow
  obtain ⟨rfl, -⟩ := hrow
  have hidle' : ({ s with host := rest } : State).engine = .idle := hidle
  exact (step_of_wrLine (r := .cmd) hhost).trans (unlessBusy_idle hidle')

/-- Settles O60: the byte is not among the first `TX_LEN`, so the read draws. -/
theorem txBytesBeyondTxLenReadFreely : Obligations.TxBytesBeyondTxLenReadFreely := by
  intro s k rest hlen hk hm hhost
  rw [step_of_read hhost, hostRead_tx { s with host := rest } hk hm]
  exact deliverByte_free (Nat.add_le_add_left hlen _)

/-- The low 16 bits of a value, taken either way. -/
theorem setWidth_eq_low_half (v : Word) : v.setWidth 16 = v.extractLsb' 0 16 := by
  apply BitVec.eq_of_toNat_eq
  simp

/-- Settles O55: each clause is one access of the map, the action being taken from the queue. -/
theorem hostAccessesFollowTheMap : Obligations.HostAccessesFollowTheMap := by
  refine ⟨fun s off rest hoff ha => ⟨fun hhost => ?_, fun v hhost hcmd hrx harg => ?_⟩,
    fun s v rest hidle => ⟨fun hhost => ?_, fun hhost => ?_⟩,
    fun s k rest hk hm => ⟨fun hhost hlen => ?_, fun hhost hlen => ?_, fun hhost hlen => ?_, fun v hhost hidle => ?_,
      fun v hhost => ?_⟩,
    fun s off size rest hoff hbad => ⟨fun hhost => ?_, fun v hhost => ?_⟩,
    fun s base k size rest hbase hk hm hbad => ⟨fun hhost => ?_, fun v hhost => ?_⟩,
    fun s off size rest hlow hhigh => ⟨fun hhost => ?_, fun v hhost => ?_⟩⟩
  · rw [step_of_read hhost, hostRead_register hoff _ ha _ rfl]
    cases regAt off <;> rfl
  · rw [step_of_write hhost]
    cases hr : regAt off with
    | none => exact hostWrite_unmapped hoff _ ha v hr
    | some r =>
      rw [hr] at hcmd hrx harg
      rw [hostWrite_register hoff _ ha v hr]
      exact writeReg_readOnly (hcmd ∘ congrArg some) (hrx ∘ congrArg some) (harg ∘ congrArg some) v _
  · rw [step_of_wrLine (r := .rxLen) hhost, ← setWidth_eq_low_half]
    exact unlessBusy_idle (s := { s with host := rest }) hidle
  · rw [step_of_wrLine (r := .argIp) hhost]
    exact unlessBusy_idle (s := { s with host := rest }) hidle
  · rw [step_of_read hhost, hostRead_rx { s with host := rest } hk]
    exact deliverByte_specified (Nat.add_lt_add_left hlen _)
  · rw [step_of_read hhost, hostRead_rx { s with host := rest } hk]
    exact deliverByte_free (Nat.add_le_add_left hlen _)
  · rw [step_of_read hhost, hostRead_tx { s with host := rest } hk hm]
    exact deliverByte_specified (Nat.add_lt_add_left hlen _)
  · rw [step_of_write hhost, hostWrite_rx { s with host := rest } hk, unlessBusy_idle (s := { s with host := rest }) hidle]
    refine ⟨_, rfl, ?_, rfl, fun a hne => memGet_memSet_other _ _ _ _ hne⟩
    rw [bufByte, memGet_memSet_same]
    rfl
  · rw [step_of_write hhost]
    exact hostWrite_tx { s with host := rest } hk hm v
  · rw [step_of_read hhost, hostRead_misaligned hoff _ hbad]
  · rw [step_of_write hhost, hostWrite_misaligned hoff _ hbad]
  · rw [step_of_read hhost]
    exact hostRead_wideBuffer { s with host := rest } hk hm hbase hbad
  · rw [step_of_write hhost]
    exact hostWrite_wideBuffer { s with host := rest } hk hm hbase hbad v
  · rw [step_of_read hhost, hostRead, target_outside { s with host := rest } hlow hhigh]
  · rw [step_of_write hhost, hostWrite, target_outside { s with host := rest } hlow hhigh]

/-- Settles O58: each of these writes stands behind the check of the engine, but a `wrbuf` that does not fit, which is refused
before it. -/
theorem writesWhileBusyAreRefused : Obligations.WritesWhileBusyAreRefused := by
  intro s rest v hbusy
  have hbusy' : ({ s with host := rest } : State).engine = .busy := hbusy
  refine ⟨fun r hr hhost => ?_, fun k hk hm hhost => ?_, fun off B hhost => ?_⟩
  · rw [step_of_wrLine hhost]
    rcases hr with rfl | rfl | rfl
    · exact unlessBusy_busy hbusy'
    · exact unlessBusy_busy hbusy'
    · exact unlessBusy_busy hbusy'
  · rw [step_of_write hhost, hostWrite_rx { s with host := rest } hk, unlessBusy_busy hbusy']
  · rw [step_of_wrbuf hhost, hostWriteBuffer, unlessBusy_busy hbusy']
    refine ⟨fun hfits => if_pos ?_, ?_⟩
    · exact Nat.le_sub_of_add_le (by rwa [Nat.add_comm])
    · split_ifs
      · exact ⟨_, rfl⟩
      · exact ⟨_, rfl⟩

/-! ## The stimulus lines (R105, R106) -/

/-- Bytes written to consecutive cells are the buffer's bytes there. -/
theorem bufBytes_of_memSetBytes {s : State} {m : Memory} {base : Nat} {B : Bytes} (h : s.mem = memSetBytes m base B) :
    bufBytes s base B.length = B := by
  apply List.ext_getElem
  · exact bufBytes_length _ _ _
  · intro i h1 h2
    have hcell : memGet s.mem (base + i) = some B[i] := by
      rw [h, memGet_memSetBytes, if_pos ⟨Nat.le_add_right _ _, Nat.add_lt_add_left h2 _⟩, Nat.add_sub_cancel_left,
        List.getElem?_eq_getElem h2]
    simp only [bufBytes, bufByte, List.getElem_map, List.getElem_range, hcell, Option.getD_some]

/-- Settles O57: the `wrbuf` stores the bytes and the write of `RX_LEN` says how many they are. -/
theorem frameLineDeliversItsBytes : Obligations.FrameLineDeliversItsBytes := by
  intro s F rest hhost hidle hfits hm
  have hlength : (BitVec.setWidth 16 (BitVec.ofNat 32 F.length)).toNat = F.length := by
    rw [BitVec.toNat_setWidth, BitVec.toNat_ofNat]
    omega
  refine ⟨_, _, (step_of_wrbuf hhost).trans ((if_pos hfits).trans (unlessBusy_idle hidle)),
    (step_of_wrLine (r := .rxLen) rfl).trans (unlessBusy_idle hidle), ?_, rfl, rfl,
    fun a ha => memGet_memSetBytes_outside _ _ _ _ ha⟩
  rw [rxFrame, hlength]
  exact bufBytes_of_memSetBytes (base := rxBase) rfl

/-- Settles O23: the bytes are those a hand-over stores, and the channel's answers are `accepts` by cases. -/
theorem replyStoresOnlyItsFrame : Obligations.ReplyStoresOnlyItsFrame := by
  refine ⟨fun s out st ok hlen => ⟨?_, fun a => memGet_memSetBytes_outside _ _ _ _⟩, fun len => ?_, fun s report rest h => ?_,
    rfl, fun _ _ _ _ => rfl⟩
  · exact (rfl : txFrame (afterReply out st ok s) = txFrame (handOver out s)).trans
      (txFrame_handOver out s (Nat.lt_succ_of_le hlen))
  · exact ⟨accepts_ok len, accepts_fail len, accepts_unconnected len, fun _ h => decide_eq_false h.not_ge,
      fun _ h => decide_eq_true h⟩
  · exact step_of_host_cons h

/-! ## Idempotence (R60) -/

theorem exec_cacheLookup_idempotent {s t : State} (h : exec .cacheLookup s = .next t) : exec .cacheLookup t = .next t := by
  cases hl : lookup s.cache s.argIp with
  | none =>
    rw [exec_cacheLookup_of_miss hl] at h
    cases h
    exact exec_cacheLookup_of_miss hl
  | some i =>
    obtain ⟨e, he, -⟩ := lookup_some_getElem? hl
    rw [exec_cacheLookup_of_hit hl he] at h
    cases h
    exact exec_cacheLookup_of_hit hl he

theorem exec_checksum_idempotent {s t : State} (h : exec .checksum s = .next t) : exec .checksum t = .next t := by
  by_cases hfits : s.rxLen.toNat ≤ s.cfg.maxFrame
  · rw [exec_checksum_of_fits hfits] at h
    cases h
    exact exec_checksum_of_fits hfits
  · have hlong := Nat.lt_of_not_le hfits
    rw [exec_checksum_of_tooLong hlong] at h
    cases h
    exact exec_checksum_of_tooLong hlong

/-- Settles O50: what each of the three commands reads it leaves as it was, and what it writes does not depend on what it
wrote. -/
theorem lookupChecksumRestartAreIdempotent : Obligations.LookupChecksumRestartAreIdempotent := by
  rintro i s t (rfl | rfl | rfl) h
  · exact exec_cacheLookup_idempotent h
  · exact exec_checksum_idempotent h
  · rw [exec_restart] at h
    cases h
    exact exec_restart _

end Sys2Proof.Proofs
end
